-- ==== Sys2Proof/Word.lean ====
section
/-! DEFINITION. The two word types of the block: registers and bus data are 32 bits wide (R7, R35), symbols and
buffer bytes 8 bits (R7). All values are unsigned (R8). -/

namespace Sys2Proof

/-- Host data, host addresses, registers and the command word: 32 bits (R7, R140). -/
abbrev Word := BitVec 32

/-- A symbol, or one byte of IBUF or OBUF: 8 bits (R7). -/
abbrev Byte := BitVec 8

end Sys2Proof
end

