-- ==== Sys2Proof/Config.lean ====
section
/-! DEFINITION. What an instance fixes at build time (R6) and the free values: the values the spec leaves unspecified
(R11) and the delay it leaves open (R611). A free value is an opaque constant applied to `draw`, the number of the
step that draws it (`State.draws`), so that two draws need not agree; nothing in Lean can evaluate one.

DESIGN CHOICE (log 4; log 10 for the delay): a draw takes no other piece of state as an argument. R11 and R611 let the value
depend on the command, the data and hidden state, so that two states with equal `draws` agree on it is the model's. -/

namespace Sys2Proof

/-- The build-time parameters of an instance (R6, U9). LATENCY is `Config.latency`; BUS_PROTOCOL is open and the model
sees whole transactions only (R6). -/
structure Params where
  /-- `IBUF_BYTES`, the size of IBUF in bytes. -/
  ibufBytes : Nat
  /-- `OBUF_BYTES`, the size of OBUF in bytes. -/
  obufBytes : Nat
  deriving DecidableEq, Repr

/-- The instance the reset state stands for: both buffers of 1024 bytes, the sizes of the spec's test vectors.
DESIGN CHOICE (log 1). -/
def Params.vectors : Params := { ibufBytes := 1024, obufBytes := 1024 }

namespace Config

/-- LATENCY (R6, R611): how many steps pass between the acceptance of a command in step `draw` and its completion.
Any finite number. DESIGN CHOICE (log 10): it is counted in steps of this model, and it is a function of the acceptance
step's number alone, although R611 lets it depend on the command, IN_LEN, the data and the history. -/
opaque latency (draw : Nat) : Nat

/-- The word an unspecified host read returns (R11, R68, R69), before it is cut to the register's implemented bits. DESIGN
CHOICE (log 4): it is a function of the step's number alone and of no hidden state, although R11 allows any value. -/
opaque readWord (draw : Nat) : Word

/-- What read number `pass` of IBUF byte `i` in step `draw` returns when the host has not written that byte since reset
(R11, R61): a command that goes through its input again draws again. -/
opaque ibufByte (draw pass i : Nat) : Byte

/-- What stream bit `j` of OBUF holds below OUT_LEN when the command of step `draw` put fewer bits than it counted, which
takes an input byte that the host never wrote (R11; log 5). -/
opaque unputBit (draw j : Nat) : Bool

/-- What a host read of OBUF byte `i` in step `draw` sees when that byte is unspecified (R62). -/
opaque obufByte (draw i : Nat) : Byte

/-- FREQ entry `i` where a rule leaves FREQ unspecified (R503, R601). -/
opaque freqEntry (draw i : Nat) : Word

/-- CT entry `i` (VALID, LEN and CODE, 265 bits) where a rule leaves CT unspecified (R503, R601). -/
opaque ctEntry (draw i : Nat) : BitVec 265

/-- NODE entry `i` (60 bits) where a rule leaves NODE unspecified (R503, R601). -/
opaque nodeEntry (draw i : Nat) : BitVec 60

/-- PENDING where a rule leaves it unspecified (R70). -/
opaque pending (draw : Nat) : Word

/-- SYMCOUNT where a rule leaves it unspecified (R503). -/
opaque symcount (draw : Nat) : BitVec 9

/-- ROOT where a rule leaves it unspecified (R503). -/
opaque root (draw : Nat) : BitVec 9

/-- PAD_OUT where a rule leaves it unspecified (R503). -/
opaque padOut (draw : Nat) : BitVec 3

/-- TOTAL_BITS where a rule leaves it unspecified (R503). -/
opaque totalBits (draw : Nat) : BitVec 64

end Config

end Sys2Proof
end

