-- ==== Sys2Proof/Syntax.lean ====
section
/-! DEFINITION. The command set, HTB command set revision 1 (R2, R141): one constructor per row of the opcode table.
A command word carries no register number and no immediate (R143), so no constructor has an argument. -/

namespace Sys2Proof

/-- The eleven commands of R141. -/
inductive Instr where
  /-- NOP: complete with no effect (R400). -/
  | nop
  /-- CLEAR: discard all derived state (R402). -/
  | clear
  /-- COUNT: count each byte value of the input (R200). -/
  | count
  /-- BUILD: build the prefix-code tree (R220). -/
  | build
  /-- GENCODES: derive the code table (R251). -/
  | gencodes
  /-- TENC: write the tree-shape stream (R300). -/
  | tenc
  /-- PACK: pack the input's codes into bytes (R270). -/
  | pack
  /-- TDEC: read a tree-shape stream (R310). -/
  | tdec
  /-- UNPACK: decode a payload with the tree (R280). -/
  | unpack
  /-- COMPRESS: write a container (R370). -/
  | compress
  /-- DECOMPRESS: read a container (R380). -/
  | decompress
  deriving DecidableEq, Repr

end Sys2Proof
end

