-- ==== Sys2Proof/WellFormed.lean ====
section
/-! DEFINITION. Well-formedness: of an instruction (nothing to check, R143) and of an instance's parameters (R6). -/

namespace Sys2Proof

/-- A command has no operand (R143), so every command is well formed. -/
def Instr.wf : Instr → Bool
  | .nop | .clear | .count | .build | .gencodes | .tenc | .pack | .tdec | .unpack | .compress | .decompress => true

/-- The legal parameters of R6: both sizes multiples of 4, `4 ≤ IBUF_BYTES ≤ 2^30` and `324 ≤ OBUF_BYTES ≤ 2^30`. -/
def Params.wf (p : Params) : Bool :=
  p.ibufBytes % 4 == 0 && decide (4 ≤ p.ibufBytes) && decide (p.ibufBytes ≤ 2 ^ 30) &&
  p.obufBytes % 4 == 0 && decide (324 ≤ p.obufBytes) && decide (p.obufBytes ≤ 2 ^ 30)

end Sys2Proof
end

