-- ==== Sys2Proof/Decode.lean ====
section
/-! DEFINITION. The decoder, total on 32-bit words and rejecting by name (R140 to R142), and the encoder, both from the
opcode map of R141. A command is one 32-bit register write (R37): it has no byte order of its own (R102), so the
decoder reads a word, not a byte list. -/

namespace Sys2Proof

/-- Why a word is illegal (R142). Both complete with BAD_COMMAND. -/
inductive DecodeError where
  /-- RSVD, bits [31:8], is not 0. -/
  | reservedBits
  /-- RSVD is 0 and OPCODE is none of the eleven. -/
  | reservedOpcode
  deriving DecidableEq, Repr

/-- The opcode map of R141: the exact word that selects each command. -/
def opcodeMap : List (Word × Instr) :=
  [ (0x00000000, .nop),
    (0x00000001, .clear),
    (0x00000010, .count),
    (0x00000011, .build),
    (0x00000012, .gencodes),
    (0x00000013, .tenc),
    (0x00000014, .pack),
    (0x00000020, .tdec),
    (0x00000021, .unpack),
    (0x00000030, .compress),
    (0x00000031, .decompress) ]

/-- The block decodes the whole command word (R141); every other word is illegal (R142). -/
def decode (w : Word) : Except DecodeError Instr :=
  match opcodeMap.lookup w with
  | some i => .ok i
  | none => if w.extractLsb 31 8 = 0 then .error .reservedOpcode else .error .reservedBits

/-- The OPCODE field, bits [7:0], of each command (R140, R141). -/
def opcode : Instr → BitVec 8
  | .nop => 0x00
  | .clear => 0x01
  | .count => 0x10
  | .build => 0x11
  | .gencodes => 0x12
  | .tenc => 0x13
  | .pack => 0x14
  | .tdec => 0x20
  | .unpack => 0x21
  | .compress => 0x30
  | .decompress => 0x31

/-- The command word of R140: RSVD = 0 above OPCODE. -/
def encode (i : Instr) : Word := 0#24 ++ opcode i

/-- The instruction the decoder reads from the table's bits: a command is one 32-bit word, so the table's numbering is
the word's own. -/
def decodeTableWord (_nbits w : Nat) : Option Instr :=
  if w < 2 ^ 32 then
    match decode (BitVec.ofNat 32 w) with
    | .ok i => some i
    | .error _ => none
  else none

end Sys2Proof
end

