-- ==== Sys2Proof/Machine/State.lean ====
section
/-! DEFINITION. The state of the block (R30 to R70), the reasons a step can stop, and the state right after reset
(R70). Beside the block's own state it holds the platform's side as plain data: what the host will do next, what its
reads returned, whether reset is asserted, and how long the running command still takes. -/

namespace Sys2Proof.Machine

/-- The engine's phase (R32), visible as STATUS.BUSY. -/
inductive Phase where
  | idle
  | busy
  deriving DecidableEq, Repr

/-- The error codes of R500. Codes 8 to 15 are reserved and never produced, so they have no constructor. -/
inductive ErrCode where
  /-- 0, NONE. -/
  | noError
  /-- 1, CORRUPT_STREAM. -/
  | corruptStream
  /-- 2, INVALID_HEADER. -/
  | invalidHeader
  /-- 3, BAD_COMMAND. -/
  | badCommand
  /-- 4, NOT_READY. -/
  | notReady
  /-- 5, BAD_LENGTH. -/
  | badLength
  /-- 6, OUT_OVERFLOW. -/
  | outOverflow
  /-- 7, NO_CODE. -/
  | noCode
  deriving DecidableEq, Repr

/-- One entry of the code table CT (R58). -/
structure CtEntry where
  valid : Bool
  len : BitVec 8
  code : BitVec 256
  deriving DecidableEq, Repr

/-- An entry with no code: VALID = 0, LEN = 0, CODE = 0 (R59). -/
def CtEntry.invalid : CtEntry := { valid := false, len := 0, code := 0 }

/-- One entry of the node arena NODE (R60). -/
structure Node where
  used : Bool
  leaf : Bool
  sym : Byte
  left : BitVec 9
  right : BitVec 9
  freq : Word
  deriving DecidableEq, Repr

/-- An entry not in use: every field 0 (R60). -/
def Node.unused : Node := { used := false, leaf := false, sym := 0, left := 0, right := 0, freq := 0 }

/-- A buffer's contents: the bytes that hold a specified value, as (index, byte) pairs with the indices strictly
rising. A byte that is not listed is unspecified (R11, R61, R62). -/
abbrev Memory := List Host.Cell

/-- What happens at the block's boundary, one event at a time: the host's bus transactions (R101, R145), its polling
loop WAIT (R146), and the platform's reset line (R600). -/
inductive Input where
  /-- `W addr, data`. -/
  | write (addr data : Word)
  /-- `R addr`. -/
  | read (addr : Word)
  /-- `WAIT`: read STATUS until BUSY = 0. -/
  | wait
  /-- The platform asserts reset. -/
  | assertReset
  /-- The platform releases reset. -/
  | releaseReset
  deriving DecidableEq, Repr

/-- Why a step has no next state though the spec names no effect. -/
inductive Fault where
  /-- Raised by GENCODES, TENC and UNPACK (by the shared `finish`) when NODE and ROOT break the tree invariant R44 so
  that the command's pseudocode has no result: its tree walk never ends, or it reads a NODE entry outside 0 to 510, or
  its stream outgrows OBUF. R44 holds whenever TREE_VALID = 1, so no run reaches it. Safe: the model stops. -/
  | brokenArena
  deriving DecidableEq, Repr

/-- Why a step is given no meaning. -/
inductive Refusal where
  /-- Raised by `exec` for a command not modelled yet; none is left. Safe: the model stops. -/
  | notModelled (mnemonic : String)
  /-- Raised by a host write while BUSY to IN_LEN, PAD_IN, CT_SEL, NODE_SEL or the IBUF window: the spec says that a
  model refuses it (R606, U8). Safe: the model stops. -/
  | hostWriteWhileBusy (addr : Word)
  deriving DecidableEq, Repr

/-- The whole state. -/
structure State where
  /-- IBUF_BYTES and OBUF_BYTES, which the registers IBUF_SIZE and OBUF_SIZE read (R6, R55). -/
  params : Params
  /-- IDLE or BUSY (R32); STATUS.BUSY (R39). -/
  phase : Phase
  /-- PENDING, the accepted command word (R32). -/
  pending : Word
  /-- STATUS.DONE (R40). -/
  done : Bool
  /-- STATUS.DROP (R41). -/
  drop : Bool
  /-- STATUS.ERR (R42). -/
  err : ErrCode
  /-- STATUS.FT_VALID (R43). -/
  ftValid : Bool
  /-- STATUS.TREE_VALID (R43). -/
  treeValid : Bool
  /-- STATUS.CT_VALID (R43). -/
  ctValid : Bool
  /-- IN_LEN (R46). -/
  inLen : Word
  /-- OUT_LEN (R47). -/
  outLen : Word
  /-- SYMCOUNT (R48). -/
  symcount : BitVec 9
  /-- PAD_IN (R49). -/
  padIn : BitVec 3
  /-- PAD_OUT (R50). -/
  padOut : BitVec 3
  /-- TOTAL_BITS (R51). -/
  totalBits : BitVec 64
  /-- ROOT (R52). -/
  root : BitVec 9
  /-- CT_SEL (R53). -/
  ctSel : BitVec 8
  /-- NODE_SEL (R54). -/
  nodeSel : BitVec 9
  /-- FREQ (R57). -/
  freq : Vector Word 256
  /-- CT (R58). -/
  ct : Vector CtEntry 256
  /-- NODE (R60). -/
  nodes : Vector Node 511
  /-- IBUF (R61). -/
  ibuf : Memory
  /-- OBUF (R62). -/
  obuf : Memory
  /-- The model's own: PAD_OUT is unspecified since an execution error (R503), so each read of it is a fresh draw. DEDUCED
  (log 6); false at reset, DESIGN CHOICE (log 15). -/
  padOutUnspec : Bool
  /-- The model's own: TOTAL_BITS is unspecified since an execution error (R503). DEDUCED (log 6); false at reset, DESIGN
  CHOICE (log 15). -/
  totalBitsUnspec : Bool
  /-- The model's own: reset is asserted (R600). DESIGN CHOICE (logs 11 and 15). -/
  inReset : Bool
  /-- The model's own: how many more steps pass before the running command completes (R34, R611). DESIGN CHOICE (logs 10
  and 15). -/
  delay : Nat
  /-- The model's own: what the host and the platform will do, first first (R112). DESIGN CHOICE (logs 11 and 15). -/
  inputs : List Input
  /-- The model's own: what the host's reads have returned, last first. DESIGN CHOICE (logs 11 and 15). -/
  responses : List Word
  /-- The model's own: the number of steps taken, to which the free values of `Config` are applied. DESIGN CHOICE (log
  4). -/
  draws : Nat
  deriving DecidableEq, Repr

/-- ROOT's EMPTY marker (R52). -/
def emptyRoot : BitVec 9 := 0x1FF

/-- The state of R70 for an instance `p`, with FREQ, CT, NODE and PENDING, which R70 leaves unspecified, as given; IBUF
and OBUF are unspecified, so nothing is listed. The last three arguments are the platform's side. -/
def State.afterReset (p : Params) (freq : Vector Word 256) (ct : Vector CtEntry 256) (nodes : Vector Node 511)
    (pending : Word) (inputs : List Input) (responses : List Word) (draws : Nat) : State where
  params := p
  phase := .idle
  pending := pending
  done := false
  drop := false
  err := .noError
  ftValid := false
  treeValid := false
  ctValid := false
  inLen := 0
  outLen := 0
  symcount := 0
  padIn := 0
  padOut := 0
  totalBits := 0
  root := emptyRoot
  ctSel := 0
  nodeSel := 0
  freq := freq
  ct := ct
  nodes := nodes
  ibuf := []
  obuf := []
  padOutUnspec := false
  totalBitsUnspec := false
  inReset := false
  delay := 0
  inputs := inputs
  responses := responses
  draws := draws

/-- The machine right after reset (R70), with no host program placed. FREQ, CT, NODE and PENDING are 0: DESIGN CHOICE
(log 2), never visible, since the flags are 0 (R69). -/
def State.reset : State :=
  State.afterReset Params.vectors (Vector.replicate 256 0) (Vector.replicate 256 CtEntry.invalid)
    (Vector.replicate 511 Node.unused) 0 [] [] 0

end Sys2Proof.Machine
end

