-- ==== Sys2Proof/Machine/Bits.lean ====
section
/-! DEFINITION. Bit strings and byte strings: the notation of R9 and R10, the stream bit order of R106, the padding
arithmetic of R149, and `tabulate`, which writes all entries of an internal memory. A bit string is a list of `Bool`,
first bit first. -/

namespace Sys2Proof.Machine

/-- `bits_k(v)`, the `k`-bit string of `v`, most significant bit first (R9). -/
def bitsOf : Nat → Nat → List Bool
  | 0, _ => []
  | k + 1, v => v.testBit k :: bitsOf k v

/-- `num(s)`, the number whose bit string is `s`; `num("") = 0` (R9). -/
def num (bits : List Bool) : Nat := bits.foldl (fun v b => 2 * v + b.toNat) 0

/-- `ceil8(k)`, the number of bytes that hold `k` bits (R10). -/
def ceil8 (k : Nat) : Nat := (k + 7) / 8

/-- `pad = (8 - T mod 8) mod 8` (R149, R271). -/
def padCount (t : Nat) : Nat := (8 - t % 8) % 8

/-- The bit string of a byte buffer: stream bit `j` is bit `7 - (j mod 8)` of byte `j div 8` (R106). -/
def streamBits (bytes : List Byte) : List Bool := bytes.flatMap fun b => bitsOf 8 b.toNat

/-- `k` zero bits (R107). -/
def zeros (k : Nat) : List Bool := List.replicate k false

/-- The BitWriter's `align()`: 0 bits up to the next byte boundary (R107, R151). -/
def align (bits : List Bool) : List Bool := bits ++ zeros (padCount bits.length)

/-- The bytes of a bit string by R106. Every caller has aligned it; bits short of a whole byte would be left out. -/
def packBytes : List Bool → List Byte
  | b7 :: b6 :: b5 :: b4 :: b3 :: b2 :: b1 :: b0 :: rest =>
    BitVec.ofNat 8 (num [b7, b6, b5, b4, b3, b2, b1, b0]) :: packBytes rest
  | _ => []

/-- The memory of `n` entries whose entry `i` is `f i`. -/
def tabulate {α : Type} (n : Nat) (f : Nat → α) : Vector α n :=
  ⟨⟨(List.range n).map f⟩, by simp⟩

end Sys2Proof.Machine
end

