-- ==== Sys2Proof/Machine/Memory.lean ====
section
/-! DEFINITION. The two buffers' memory operations (R10, R61, R62, R102): one byte, and a run of bytes. A byte that is
not listed has no specified value: `read?` answers `none`, and the reader draws a free byte (`Operands.lean`,
`Bus.lean`). -/

namespace Sys2Proof.Machine

/-- The canonical form: the indices strictly rise. An unlisted byte has no value, so no entry can repeat it. -/
abbrev Memory.wf (m : Memory) : Prop := (m.map Prod.fst).Pairwise (· < ·)

/-- The specified value of byte `i`, if it has one. -/
def Memory.read? : Memory → Nat → Option Byte
  | [], _ => none
  | (a, b) :: rest, i => if a = i then some b else Memory.read? rest i

/-- Byte `i` takes the value `b`; the form stays canonical. -/
def Memory.write : Memory → Nat → Byte → Memory
  | [], i, b => [(i, b)]
  | (a, c) :: rest, i, b =>
    if i < a then (i, b) :: (a, c) :: rest
    else if i = a then (i, b) :: rest
    else (a, c) :: Memory.write rest i b

/-- The memory in which `bytes` stand from index `i` on and no other byte is specified. -/
def Memory.ofBytes : Nat → List Byte → Memory
  | _, [] => []
  | i, b :: bs => (i, b) :: Memory.ofBytes (i + 1) bs

/-- Byte lane `j` of a bus word, bits [8j+7:8j] (R102). -/
def lane (w : Word) (j : Nat) : Byte := w.extractLsb' (8 * j) 8

/-- The word whose lanes 0 to 3 are the four bytes: little-endian (R102). -/
def wordOfLanes (b0 b1 b2 b3 : Byte) : Word := b3 ++ b2 ++ b1 ++ b0

/-- A host write of `w` to the word at window offset `i`: all four bytes (R101, R102). -/
def Memory.writeWord (m : Memory) (i : Nat) (w : Word) : Memory :=
  (((m.write i (lane w 0)).write (i + 1) (lane w 1)).write (i + 2) (lane w 2)).write (i + 3) (lane w 3)

end Sys2Proof.Machine
end

