-- ==== Sys2Proof/Machine/Operands.lean ====
section
/-! DEFINITION. Where a command finds its operands (R143): IBUF bytes below IN_LEN, the bit reader over them (R108), and
entries of CT and NODE. -/

namespace Sys2Proof.Machine

/-- IBUF byte `i` as read number `pass` of it in this step returns it: a byte the host has not written since reset is a
fresh draw on every read (R11, R61). -/
def State.ibufRead (s : State) (pass i : Nat) : Byte :=
  (s.ibuf.read? i).getD (Config.ibufByte s.draws pass i)

/-- IBUF byte `i` as the only, or the first, read of it in this step returns it. -/
def State.ibufByte (s : State) (i : Nat) : Byte := s.ibufRead 0 i

/-- IBUF bytes 0 to IN_LEN - 1, the only ones a command reads (R61, R110), as loop number `pass` over them reads them.
PACK has three such loops (R270) and COMPRESS two (R370). The other commands read no bit of a byte twice, so their one
loop may draw whole bytes. -/
def State.inputPass (s : State) (pass : Nat) : List Byte :=
  (List.range s.inLen.toNat).map (s.ibufRead pass)

/-- The input as a command's only, or first, loop over it reads it. -/
def State.inputBytes (s : State) : List Byte := s.inputPass 0

/-- The BitReader's `get(k)` as a bit string: the next `k` bits and the bits after them, or `none` when the data end
first (R108). -/
def takeBits : Nat → List Bool → Option (List Bool × List Bool)
  | 0, bits => some ([], bits)
  | _ + 1, [] => none
  | k + 1, b :: bits => (takeBits k bits).map fun p => (b :: p.1, p.2)

/-- The BitReader's `get(k)`: `num` of the next `k` bits, and the bits after them (R108, R109). -/
def getBits (k : Nat) (bits : List Bool) : Option (Nat × List Bool) :=
  (takeBits k bits).map fun p => (num p.1, p.2)

/-- The CT entry of a symbol (R58). -/
def ctOf (ct : Vector CtEntry 256) (b : Byte) : CtEntry := ct.get b.toFin

/-- A CT entry's code, first bit first: `CODE[LEN-1]` down to `CODE[0]` (R59, R109). -/
def CtEntry.bits (e : CtEntry) : List Bool := bitsOf e.len.toNat e.code.toNat

/-- The NODE entry an index names; index 511 names none (R60). -/
def nodeAt? (nodes : Vector Node 511) (i : BitVec 9) : Option Node := nodes[i.toNat]?

end Sys2Proof.Machine
end

