-- ==== Sys2Proof/Machine/Flags.lean ====
section
/-! DEFINITION. STATUS (R38 to R43): its word, the error codes, and the validity flags. -/

namespace Sys2Proof.Machine

/-- The 4-bit code of R500. -/
def ErrCode.code : ErrCode → BitVec 4
  | .noError => 0
  | .corruptStream => 1
  | .invalidHeader => 2
  | .badCommand => 3
  | .notReady => 4
  | .badLength => 5
  | .outOverflow => 6
  | .noCode => 7

/-- The kind R500 gives a code: an execution error is raised by a command's pseudocode after its pre-checks (R502). -/
def ErrCode.isExecution : ErrCode → Bool
  | .corruptStream | .invalidHeader | .outOverflow | .noCode => true
  | .noError | .badCommand | .notReady | .badLength => false

/-- The validity flags of R43. -/
inductive ValidFlag where
  | ft
  | tree
  | ct
  deriving DecidableEq, Repr

/-- A validity flag's value. -/
def State.flag (s : State) : ValidFlag → Bool
  | .ft => s.ftValid
  | .tree => s.treeValid
  | .ct => s.ctValid

/-- STATUS.BUSY (R39): the phase. -/
def State.busy (s : State) : Bool := s.phase == .busy

/-- STATUS bits [10:8]: CT_VALID, TREE_VALID, FT_VALID (R38). -/
def State.flagBits (s : State) : BitVec 3 :=
  BitVec.ofBool s.ctValid ++ BitVec.ofBool s.treeValid ++ BitVec.ofBool s.ftValid

/-- The word a host read of STATUS returns, with bits [10:8] as given (R38): they are unspecified while BUSY. -/
def State.statusWith (s : State) (flags : BitVec 3) : Word :=
  0#21 ++ flags ++ s.err.code ++ 0#1 ++ BitVec.ofBool s.drop ++ BitVec.ofBool s.done ++ BitVec.ofBool s.busy

/-- STATUS as a host reads it: while BUSY the validity flags are a free value (R38, R607). -/
def State.status (s : State) : Word :=
  s.statusWith (if s.busy then (Config.readWord s.draws).extractLsb' 8 3 else s.flagBits)

end Sys2Proof.Machine
end

