-- ==== Sys2Proof/Machine/Ops.lean ====
section
/-! DEFINITION. The shared operations of the command cycle: acceptance (R33), the pre-checks (R501), completion (R34),
the abort rule (R503) and the result of a command that writes OBUF (R62). -/

namespace Sys2Proof.Machine

/-- Acceptance of the command word `w` (R33). The delay to its completion is a free value (R611). -/
def State.accept (w : Word) (s : State) : State :=
  { s with pending := w, phase := .busy, done := false, err := .noError, delay := Config.latency s.draws }

/-- A CMD write that is not accepted (R33, R41). -/
def State.dropCommand (s : State) : State := { s with drop := true }

/-- The STATUS update of every completion: ERR, DONE, and BUSY with the phase (R34). -/
def State.complete (e : ErrCode) (s : State) : State :=
  { s with err := e, done := true, phase := .idle }

/-- The pre-checks of a legal command, in order (R501): BAD_LENGTH for a command that reads IBUF, then NOT_READY for a
command that needs a validity flag. -/
def precheck (readsIbuf : Bool) (need : Option ValidFlag) (s : State) : Option ErrCode :=
  if readsIbuf && decide (s.params.ibufBytes < s.inLen.toNat) then some .badLength
  else match need with
    | some f => if s.flag f then none else some .notReady
    | none => none

/-- The state a command's "Writes" and "Flags" lines list, other than OBUF and OUT_LEN. -/
structure Writes where
  freq : Bool
  symcount : Bool
  nodes : Bool
  root : Bool
  ct : Bool
  padOut : Bool
  totalBits : Bool
  /-- The "Flags" line lists the three validity flags. -/
  flags : Bool
  deriving DecidableEq, Repr

/-- A CT entry from its 265 bits: VALID, LEN, CODE. -/
def CtEntry.ofBits (b : BitVec 265) : CtEntry :=
  { valid := b.getLsbD 264, len := b.extractLsb' 256 8, code := b.extractLsb' 0 256 }

/-- A NODE entry from its 60 bits: USED, LEAF, SYM, LEFT, RIGHT, FREQ. -/
def Node.ofBits (b : BitVec 60) : Node :=
  { used := b.getLsbD 59, leaf := b.getLsbD 58, sym := b.extractLsb' 50 8, left := b.extractLsb' 41 9,
    right := b.extractLsb' 32 9, freq := b.extractLsb' 0 32 }

/-- FREQ where it is unspecified: 256 free words. -/
def freeFreq (draw : Nat) : Vector Word 256 := tabulate 256 (Config.freqEntry draw)

/-- CT where it is unspecified: 256 free entries. -/
def freeCt (draw : Nat) : Vector CtEntry 256 := tabulate 256 fun i => CtEntry.ofBits (Config.ctEntry draw i)

/-- NODE where it is unspecified: 511 free entries. -/
def freeNodes (draw : Nat) : Vector Node 511 := tabulate 511 fun i => Node.ofBits (Config.nodeEntry draw i)

/-- The abort rule (R503), the one operation that takes an execution error: ERR holds the code, OUT_LEN is 0, every
byte of OBUF is unspecified (R62), every other piece of state in the "Writes" line is a free value, the flags of the
"Flags" line are 0, and the rest is unchanged. No state is saved and control goes nowhere (R506). DEDUCED: that OBUF is
unspecified after a failed TDEC too (log 7). -/
def State.abort (w : Writes) (e : ErrCode) (s : State) : State :=
  { s with
    err := e, done := true, phase := .idle
    outLen := 0
    obuf := []
    freq := if w.freq then freeFreq s.draws else s.freq
    symcount := if w.symcount then Config.symcount s.draws else s.symcount
    nodes := if w.nodes then freeNodes s.draws else s.nodes
    root := if w.root then Config.root s.draws else s.root
    ct := if w.ct then freeCt s.draws else s.ct
    padOut := if w.padOut then Config.padOut s.draws else s.padOut
    padOutUnspec := w.padOut || s.padOutUnspec
    totalBits := if w.totalBits then Config.totalBits s.draws else s.totalBits
    totalBitsUnspec := w.totalBits || s.totalBitsUnspec
    ftValid := !w.flags && s.ftValid
    treeValid := !w.flags && s.treeValid
    ctValid := !w.flags && s.ctValid }

/-- How a command's pseudocode ends other than by its end. -/
inductive Stop where
  /-- `raise E` (R10). -/
  | raised (e : ErrCode)
  /-- The arena breaks R44 and the pseudocode has no result. -/
  | broken
  deriving DecidableEq, Repr

/-- The end of a completion whose pre-checks passed: success (R34), an execution error (R503), or no result. -/
def finish (w : Writes) (s : State) : Except Stop State → Host.Outcome State Fault Refusal
  | .ok t => .next (t.complete .noError)
  | .error (.raised e) => .next (s.abort w e)
  | .error .broken => .fault .brokenArena

/-- A completion: the pre-checks, a failure of which changes STATUS only (R501), then the command's body. -/
def completion (readsIbuf : Bool) (need : Option ValidFlag) (w : Writes) (body : State → Except Stop State)
    (s : State) : Host.Outcome State Fault Refusal :=
  match precheck readsIbuf need s with
  | some e => .next (s.complete e)
  | none => finish w s (body s)

/-- A command has written `bytes` as its result: OBUF bytes 0 up and OUT_LEN; the bytes from OUT_LEN up are
unspecified (R47, R62). -/
def State.setOutput (bytes : List Byte) (s : State) : State :=
  { s with obuf := Memory.ofBytes 0 bytes, outLen := BitVec.ofNat 32 bytes.length }

/-- A command has written PAD_OUT (R50). -/
def State.setPadOut (pad : Nat) (s : State) : State :=
  { s with padOut := BitVec.ofNat 3 pad, padOutUnspec := false }

/-- A command has written TOTAL_BITS (R51). -/
def State.setTotalBits (t : Nat) (s : State) : State :=
  { s with totalBits := BitVec.ofNat 64 t, totalBitsUnspec := false }

/-- The "Writes" line of a command that raises no execution error (R502): the abort rule never applies to it. -/
def Writes.none : Writes :=
  { freq := false, symcount := false, nodes := false, root := false, ct := false, padOut := false,
    totalBits := false, flags := false }

end Sys2Proof.Machine
end

