-- ==== Sys2Proof/Machine/Frequency.lean ====
section
/-! DEFINITION. The frequency counter: COUNT (R200 to R202). -/

namespace Sys2Proof.Machine

/-- FREQ after the counting loop: entry `s` is the number of input bytes of value `s`, a 32-bit counter (R57, R200,
R201). -/
def tally (input : List Byte) : Vector Word 256 :=
  tabulate 256 fun s => BitVec.ofNat 32 (input.countP fun b => b.toNat == s)

/-- The number of symbols with a non-zero counter, 0 to 256 (R200, R202). -/
def distinct (freq : Vector Word 256) : Nat := freq.toList.countP fun f => f.toNat != 0

/-- The pseudocode of R200. -/
def countInput (s : State) : State :=
  { s with
    freq := tally s.inputBytes
    symcount := BitVec.ofNat 9 (distinct (tally s.inputBytes))
    ftValid := true
    treeValid := false
    ctValid := false }

/-- COUNT (R200): reads IBUF, needs no flag, has no execution error. -/
def execCount (s : State) : Host.Outcome State Fault Refusal :=
  completion true none Writes.none (fun s => .ok (countInput s)) s

end Sys2Proof.Machine
end

