-- ==== Sys2Proof/Machine/TreeBuilder.lean ====
section
/-! DEFINITION. The tree builder: BUILD (R220 to R232). The arena is built as the list of the entries in use, so that
SEQ (R65) is its length and a node's seq is its index (R222). -/

namespace Sys2Proof.Machine

/-- An entry of the priority queue PQ (R64); `seq` is also its arena index (R222). -/
structure QueueEntry where
  freq : Word
  seq : Nat
  deriving DecidableEq, Repr

/-- The key order: frequency first, then seq (R221). -/
def keyLt (a b : QueueEntry) : Bool :=
  decide (a.freq.toNat < b.freq.toNat) || (a.freq.toNat == b.freq.toNat && decide (a.seq < b.seq))

/-- Sorted insertion: immediately before the first entry whose key is greater, or at the end (R222). -/
def insertEntry (k : QueueEntry) : List QueueEntry → List QueueEntry
  | [] => [k]
  | x :: xs => if keyLt k x then k :: x :: xs else x :: insertEntry k xs

/-- A leaf entry of the arena (R60). -/
def leafNode (sym : Byte) (freq : Word) : Node :=
  { used := true, leaf := true, sym := sym, left := 0, right := 0, freq := freq }

/-- An internal entry of the arena (R60). -/
def internalNode (left right : Nat) (freq : Word) : Node :=
  { used := true, leaf := false, sym := 0, left := BitVec.ofNat 9 left, right := BitVec.ofNat 9 right, freq := freq }

/-- The leaves, in ascending order of their symbol, skipping symbols that did not occur (R223). -/
def leaves (freq : Vector Word 256) : List Node :=
  (freq.toList.zipIdx.filter fun p => p.1.toNat != 0).map fun p => leafNode (BitVec.ofNat 8 p.2) p.1

/-- PQ when every leaf has been inserted, each with its index as seq (R220, R222). -/
def leafQueue (ls : List Node) : List QueueEntry :=
  ls.zipIdx.foldl (fun pq p => insertEntry ⟨p.1.freq, p.2⟩ pq) []

/-- The merge loop (R224, R225): while two entries are left, pop the two lowest, make them the LEFT and RIGHT children
of a new node whose frequency is their sum, and insert it. Each merge leaves one entry fewer, so the queue's length is
fuel enough. -/
def mergeLoop : Nat → List Node → List QueueEntry → List Node × List QueueEntry
  | fuel + 1, arena, a :: b :: pq =>
    mergeLoop fuel (arena ++ [internalNode a.seq b.seq (a.freq + b.freq)])
      (insertEntry ⟨a.freq + b.freq, arena.length⟩ pq)
  | _, arena, pq => (arena, pq)

/-- The arena entries in use and the root's index; no root for the empty table (R225 to R227). -/
def huffman (freq : Vector Word 256) : List Node × Option Nat :=
  let pq := leafQueue (leaves freq)
  let built := mergeLoop pq.length (leaves freq) pq
  (built.1, built.2.head?.map QueueEntry.seq)

/-- NODE with the given entries in use from index 0 and every other entry all zero (R60). -/
def arenaOf (entries : List Node) : Vector Node 511 := tabulate 511 fun i => entries.getD i Node.unused

/-- A root index as ROOT holds it; EMPTY when there is none (R52, R226). -/
def rootOf (r : Option Nat) : BitVec 9 := (r.map (BitVec.ofNat 9)).getD emptyRoot

/-- The pseudocode of R220. -/
def buildTree (s : State) : State :=
  { s with
    nodes := arenaOf (huffman s.freq).1
    root := rootOf (huffman s.freq).2
    treeValid := true
    ctValid := false }

/-- BUILD (R220): reads no buffer, needs FT_VALID, has no execution error. -/
def execBuild (s : State) : Host.Outcome State Fault Refusal :=
  completion false (some .ft) Writes.none (fun s => .ok (buildTree s)) s

end Sys2Proof.Machine
end

