-- ==== Sys2Proof/Machine/CodeTable.lean ====
section
/-! DEFINITION. The code-table generator: GENCODES (R250 to R253). The walk is by recursion on the tree, which R66 and
R250 say gives the explicit stack's result. -/

namespace Sys2Proof.Machine

/-- The longest path an arena of 511 entries can hold without passing an entry twice, so that the walks below run out
of this fuel exactly when the pseudocode would not end. -/
def walkFuel : Nat := 512

/-- The codes of the leaves under arena entry `i`, reached by `path`: 0 to the left, 1 to the right (R250). `none` when
the walk does not end or leaves the arena. -/
def codesUnder (nodes : Vector Node 511) : Nat → BitVec 9 → List Bool → Option (List (Byte × List Bool))
  | 0, _, _ => none
  | fuel + 1, i, path =>
    match nodeAt? nodes i with
    | none => none
    | some nd =>
      if nd.leaf then some [(nd.sym, path)]
      else
        match codesUnder nodes fuel nd.left (path ++ [false]) with
        | none => none
        | some l =>
          match codesUnder nodes fuel nd.right (path ++ [true]) with
          | none => none
          | some r => some (l ++ r)

/-- `Codes(ROOT)` (R250), in the order the leaves are visited. -/
def codesOf (nodes : Vector Node 511) (root : BitVec 9) : Option (List (Byte × List Bool)) :=
  if root = emptyRoot then some []
  else
    match nodeAt? nodes root with
    | none => none
    | some nd => if nd.leaf then some [(nd.sym, [false])] else codesUnder nodes walkFuel root []

/-- A code as CT holds it: right-aligned, first bit most significant (R59, R251). -/
def CtEntry.ofCode (c : List Bool) : CtEntry :=
  { valid := true, len := BitVec.ofNat 8 c.length, code := BitVec.ofNat 256 (num c) }

/-- The code the mapping gives a symbol: the last one assigned (R250). -/
def codeFor (codes : List (Byte × List Bool)) (s : Nat) : Option (List Bool) :=
  (codes.reverse.find? fun c => c.1.toNat == s).map Prod.snd

/-- CT for a mapping: every symbol's entry is written (R251). -/
def tableOf (codes : List (Byte × List Bool)) : Vector CtEntry 256 :=
  tabulate 256 fun s => ((codeFor codes s).map CtEntry.ofCode).getD CtEntry.invalid

/-- The pseudocode of R251. -/
def genCodes (s : State) : Except Stop State :=
  match codesOf s.nodes s.root with
  | none => .error .broken
  | some codes => .ok { s with ct := tableOf codes, ctValid := true }

/-- GENCODES (R251): reads no buffer, needs TREE_VALID, has no execution error. -/
def execGencodes (s : State) : Host.Outcome State Fault Refusal :=
  completion false (some .tree) Writes.none genCodes s

end Sys2Proof.Machine
end

