-- ==== Sys2Proof/Machine/TreeCodec.lean ====
section
/-! DEFINITION. The tree-shape codec: TENC (R300, R301) and TDEC (R310 to R319). -/

namespace Sys2Proof.Machine

/-- `Desc(i)` (R147, R301): preorder, 1 and the symbol for a leaf, 0 and the two subtrees for an internal node. `none`
when the walk does not end or leaves the arena. -/
def descUnder (nodes : Vector Node 511) : Nat → BitVec 9 → Option (List Bool)
  | 0, _ => none
  | fuel + 1, i =>
    match nodeAt? nodes i with
    | none => none
    | some nd =>
      if nd.leaf then some (true :: bitsOf 8 nd.sym.toNat)
      else
        match descUnder nodes fuel nd.left with
        | none => none
        | some l =>
          match descUnder nodes fuel nd.right with
          | none => none
          | some r => some (false :: (l ++ r))

/-- `Desc(ROOT)`, empty for the EMPTY root (R147). -/
def descOf (nodes : Vector Node 511) (root : BitVec 9) : Option (List Bool) :=
  if root = emptyRoot then some [] else descUnder nodes walkFuel root

/-- The bytes of the tree-shape stream: `bits_9(n) ++ Desc(ROOT)`, aligned (R148, R152). -/
def treeStream (symcount : BitVec 9) (desc : List Bool) : List Byte :=
  packBytes (align (bitsOf 9 symcount.toNat ++ desc))

/-- The pseudocode of R300. On a tree of R44 the stream has at most 321 bytes and always fits (R300). -/
def encodeTree (s : State) : Except Stop State :=
  match descOf s.nodes s.root with
  | none => .error .broken
  | some desc =>
    if s.params.obufBytes < (treeStream s.symcount desc).length then .error .broken
    else .ok (s.setOutput (treeStream s.symcount desc))

/-- TENC (R300): reads no buffer, needs TREE_VALID, has no execution error. -/
def execTenc (s : State) : Host.Outcome State Fault Refusal :=
  completion false (some .tree) Writes.none encodeTree s

/-- Which child field an open slot of the parser fills (R311). -/
inductive Side where
  | left
  | right
  deriving DecidableEq, Repr

/-- The parser's state (R311): `nodes` are the entries numbered so far, so `next` is its length; `slots` is the stack
of open slots, top first, `none` for the root's. -/
structure Parse where
  nodes : List Node
  leaves : Nat
  internals : Nat
  seen : List Byte
  slots : List (Option (Nat × Side))
  deriving DecidableEq, Repr

/-- `NODE[par].side <- i` (R311). -/
def linkChild (nodes : List Node) (i : Nat) : Option (Nat × Side) → List Node
  | none => nodes
  | some (par, .left) => nodes.modify par fun nd => { nd with left := BitVec.ofNat 9 i }
  | some (par, .right) => nodes.modify par fun nd => { nd with right := BitVec.ofNat 9 i }

/-- The parser after a leaf flag and its symbol filled the slot (R311). -/
def Parse.addLeaf (p : Parse) (slot : Option (Nat × Side)) (rest : List (Option (Nat × Side))) (sym : Byte) : Parse :=
  { nodes := linkChild (p.nodes ++ [leafNode sym 0]) p.nodes.length slot
    leaves := p.leaves + 1
    internals := p.internals
    seen := sym :: p.seen
    slots := rest }

/-- The parser after an internal flag filled the slot: its own two slots are opened, LEFT on top (R311). -/
def Parse.addInternal (p : Parse) (slot : Option (Nat × Side)) (rest : List (Option (Nat × Side))) : Parse :=
  { nodes := linkChild (p.nodes ++ [internalNode 0 0 0]) p.nodes.length slot
    leaves := p.leaves
    internals := p.internals + 1
    seen := p.seen
    slots := some (p.nodes.length, .left) :: some (p.nodes.length, .right) :: rest }

/-- The parser's loop over the bits that are left, for `n` symbols (R311): the checks R314 to R317 in the order the
stream meets them. It ends when no slot is open and returns the bits it did not read. -/
def parseNodes (n : Nat) : List Bool → Parse → Except ErrCode (Parse × List Bool)
  | bits, p =>
    match p.slots with
    | [] => .ok (p, bits)
    | slot :: rest =>
      match bits with
      | [] => .error .invalidHeader
      | true :: bits' =>
        if p.leaves = n then .error .corruptStream
        else
          match bits' with
          | b7 :: b6 :: b5 :: b4 :: b3 :: b2 :: b1 :: b0 :: bits'' =>
            let sym : Byte := BitVec.ofNat 8 (num [b7, b6, b5, b4, b3, b2, b1, b0])
            if sym ∈ p.seen then .error .corruptStream
            else parseNodes n bits'' (p.addLeaf slot rest sym)
          | _ => .error .invalidHeader
      | false :: bits' =>
        if p.internals = n - 1 then .error .corruptStream
        else parseNodes n bits' (p.addInternal slot rest)

/-- What ParseTree returns: the root index and the count (R311), with the arena entries it has numbered and the bits it
did not read. -/
structure ParsedTree where
  root : Option Nat
  count : Nat
  nodes : List Node
  rest : List Bool
  deriving DecidableEq, Repr

/-- `ParseTree(rd)` (R311): the count and its check (R313), the descriptor, and the check for too few leaves (R318). A
`get` that ends the data is INVALID_HEADER (R317). -/
def parseTree (bits : List Bool) : Except ErrCode ParsedTree :=
  match getBits 9 bits with
  | none => .error .invalidHeader
  | some (n, bits') =>
    if 256 < n then .error .corruptStream
    else if n = 0 then .ok { root := none, count := 0, nodes := [], rest := bits' }
    else
      match parseNodes n bits' { nodes := [], leaves := 0, internals := 0, seen := [], slots := [none] } with
      | .error e => .error e
      | .ok (p, rest) =>
        if p.leaves = n then .ok { root := some 0, count := n, nodes := p.nodes, rest := rest }
        else .error .corruptStream

/-- NODE, ROOT and SYMCOUNT take the parsed tree (R310, R312). -/
def State.setTree (t : ParsedTree) (s : State) : State :=
  { s with nodes := arenaOf t.nodes, root := rootOf t.root, symcount := BitVec.ofNat 9 t.count }

/-- The pseudocode of R310. -/
def decodeTree (s : State) : Except Stop State :=
  match parseTree (streamBits s.inputBytes) with
  | .error e => .error (.raised e)
  | .ok t => .ok { s.setTree t with ftValid := false, ctValid := false, treeValid := true }

/-- TDEC's "Writes" and "Flags" lines (R310). -/
def Writes.tdec : Writes :=
  { freq := false, symcount := true, nodes := true, root := true, ct := false, padOut := false,
    totalBits := false, flags := true }

/-- TDEC (R310): reads IBUF, needs no flag. -/
def execTdec (s : State) : Host.Outcome State Fault Refusal :=
  completion true none Writes.tdec decodeTree s

end Sys2Proof.Machine
end

