-- ==== Sys2Proof/Machine/BitPack.lean ====
section
/-! DEFINITION. The bit-packer, PACK (R270 to R273), and the bit-unpacker, UNPACK (R280 to R285). -/

namespace Sys2Proof.Machine

/-- The code bits of the input, in order (R150, R270). -/
def codeBits (ct : Vector CtEntry 256) (input : List Byte) : List Bool :=
  input.flatMap fun b => (ctOf ct b).bits

/-- The payload: the code bits and `pad` zero bits (R150, R270). -/
def payloadBits (ct : Vector CtEntry 256) (input : List Byte) (pad : Nat) : List Bool :=
  codeBits ct input ++ zeros pad

/-- OBUF bytes 0 to `n - 1` after the writer has put `bits` from byte 0 on (R107). Bits that were never put are free
values (log 5); there are none when the writer has put `8 * n` bits. -/
def writtenBytes (draw n : Nat) (bits : List Bool) : List Byte :=
  packBytes ((bits ++ (List.range (8 * n - bits.length)).map fun j => Config.unputBit draw (bits.length + j)).take
    (8 * n))

/-- The writer puts `bits` into OBUF from byte 0 on, and OUT_LEN is `n`. A bit for byte OBUF_BYTES or beyond is
OUT_OVERFLOW (R110): no bit is, when the command's own size check has counted the bits it then puts. -/
def State.putOutput (n : Nat) (bits : List Bool) (s : State) : Except Stop State :=
  if s.params.obufBytes < ceil8 bits.length then .error (.raised .outOverflow)
  else .ok (s.setOutput (writtenBytes s.draws n bits))

/-- `T`, the sum of the input's code lengths (R270). -/
def codeLength (ct : Vector CtEntry 256) (input : List Byte) : Nat :=
  (input.map fun b => (ctOf ct b).len.toNat).sum

/-- The pseudocode of R270, each of its three loops reading the input again: NO_CODE, then OUT_OVERFLOW, both before
anything is written (R272, R273), then the payload. -/
def packInput (s : State) : Except Stop State :=
  if (s.inputPass 0).any fun b => !(ctOf s.ct b).valid then .error (.raised .noCode)
  else
    let t := codeLength s.ct (s.inputPass 1)
    if s.params.obufBytes < ceil8 t then .error (.raised .outOverflow)
    else
      match s.putOutput (ceil8 t) (payloadBits s.ct (s.inputPass 2) (padCount t)) with
      | .error e => .error e
      | .ok u => .ok ((u.setPadOut (padCount t)).setTotalBits t)

/-- PACK's "Writes" and "Flags" lines (R270). -/
def Writes.pack : Writes :=
  { freq := false, symcount := false, nodes := false, root := false, ct := false, padOut := true,
    totalBits := true, flags := false }

/-- PACK (R270): reads IBUF, needs CT_VALID. -/
def execPack (s : State) : Host.Outcome State Fault Refusal :=
  completion true (some .ct) Writes.pack packInput s

/-- The walk of a tree whose root is an internal node, from entry `cur` (R281): 0 goes left, 1 goes right, a leaf emits
its symbol and restarts from the root; the bits must end at the root (R284). -/
def walkBits (nodes : Vector Node 511) (root : BitVec 9) : List Bool → BitVec 9 → Except Stop (List Byte)
  | [], cur => if cur = root then .ok [] else .error (.raised .corruptStream)
  | b :: bits, cur =>
    match nodeAt? nodes cur with
    | none => .error .broken
    | some nd =>
      match nodeAt? nodes (if b then nd.right else nd.left) with
      | none => .error .broken
      | some child =>
        if child.leaf then
          match walkBits nodes root bits root with
          | .ok out => .ok (child.sym :: out)
          | .error e => .error e
        else walkBits nodes root bits (if b then nd.right else nd.left)

/-- The bytes the meaningful bits decode to (R281), with the empty tree (R283) and the single-symbol tree (R282). -/
def walkSymbols (nodes : Vector Node 511) (root : BitVec 9) (bits : List Bool) : Except Stop (List Byte) :=
  if root = emptyRoot then
    if bits = [] then .ok [] else .error (.raised .corruptStream)
  else
    match nodeAt? nodes root with
    | none => .error .broken
    | some nd =>
      if nd.leaf then
        if bits.any id then .error (.raised .corruptStream) else .ok (bits.map fun _ => nd.sym)
      else walkBits nodes root bits root

/-- `Walk` over the payload bytes (R281): the padding against the payload (R285), the decoded bytes, then the output's
size. It returns the bytes and `M`, the number of meaningful bits. -/
def walk (nodes : Vector Node 511) (root : BitVec 9) (obufBytes : Nat) (payload : List Byte) (pad : Nat) :
    Except Stop (List Byte × Nat) :=
  if 8 * payload.length < pad then .error (.raised .corruptStream)
  else
    let m := 8 * payload.length - pad
    match walkSymbols nodes root ((streamBits payload).take m) with
    | .error e => .error e
    | .ok out => if obufBytes < out.length then .error (.raised .outOverflow) else .ok (out, m)

/-- The pseudocode of R280. -/
def unpackInput (s : State) : Except Stop State :=
  match walk s.nodes s.root s.params.obufBytes s.inputBytes s.padIn.toNat with
  | .error e => .error e
  | .ok (out, m) => .ok ((s.setOutput out).setTotalBits m)

/-- UNPACK's "Writes" and "Flags" lines (R280). -/
def Writes.unpack : Writes :=
  { freq := false, symcount := false, nodes := false, root := false, ct := false, padOut := false,
    totalBits := true, flags := false }

/-- UNPACK (R280): reads IBUF, needs TREE_VALID. -/
def execUnpack (s : State) : Host.Outcome State Fault Refusal :=
  completion true (some .tree) Writes.unpack unpackInput s

end Sys2Proof.Machine
end

