-- ==== Sys2Proof/Machine/Container.lean ====
section
/-! DEFINITION. The container commands: COMPRESS (R370 to R373) and DECOMPRESS (R380 to R383). -/

namespace Sys2Proof.Machine

/-- The container's header, aligned: count, descriptor, padding count (R153). -/
def headerBits (symcount : BitVec 9) (desc : List Bool) (pad : Nat) : List Bool :=
  align (bitsOf 9 symcount.toNat ++ desc ++ bitsOf 3 pad)

/-- `T`, computed from the table before the payload is written (R370, R371). -/
def weightedLength (freq : Vector Word 256) (ct : Vector CtEntry 256) : Nat :=
  ((freq.toList.zip ct.toList).map fun p => p.1.toNat * p.2.len.toNat).sum

/-- The part of R370 after the three stages: the sizes, OUT_OVERFLOW (R372), the container. COUNT has read the input
once, and the payload's loop reads it again. -/
def writeContainer (s : State) : Except Stop State :=
  match descOf s.nodes s.root with
  | none => .error .broken
  | some desc =>
    let t := weightedLength s.freq s.ct
    let h := ceil8 (9 + desc.length + 3)
    if s.params.obufBytes < h + ceil8 t then .error (.raised .outOverflow)
    else
      match s.putOutput (h + ceil8 t)
          (headerBits s.symcount desc (padCount t) ++ payloadBits s.ct (s.inputPass 1) (padCount t)) with
      | .error e => .error e
      | .ok u => .ok ((u.setPadOut (padCount t)).setTotalBits t)

/-- The pseudocode of R370: COUNT's, BUILD's and GENCODES', then the container. -/
def compressInput (s : State) : Except Stop State :=
  match genCodes (buildTree (countInput s)) with
  | .error e => .error e
  | .ok coded => writeContainer coded

/-- COMPRESS' "Writes" and "Flags" lines (R370). -/
def Writes.compress : Writes :=
  { freq := true, symcount := true, nodes := true, root := true, ct := true, padOut := true,
    totalBits := true, flags := true }

/-- COMPRESS (R370): reads IBUF, needs no flag. -/
def execCompress (s : State) : Host.Outcome State Fault Refusal :=
  completion true none Writes.compress compressInput s

/-- `H`, the length of the header in bytes, from the number of header bits read, `rd.p` (R380, R381). -/
def headerLength (allBits rest : List Bool) : Nat := ceil8 (allBits.length - rest.length)

/-- The pseudocode of R380. -/
def decompressInput (s : State) : Except Stop State :=
  match parseTree (streamBits s.inputBytes) with
  | .error e => .error (.raised e)
  | .ok t =>
    match getBits 3 t.rest with
    | none => .error (.raised .invalidHeader)
    | some (pad, rest) =>
      let h := headerLength (streamBits s.inputBytes) rest
      match walk (arenaOf t.nodes) (rootOf t.root) s.params.obufBytes (s.inputBytes.drop h) pad with
      | .error e => .error e
      | .ok (out, m) =>
        .ok { ((((s.setTree t).setOutput out).setPadOut pad).setTotalBits m) with
          ftValid := false, ctValid := false, treeValid := true }

/-- DECOMPRESS' "Writes" and "Flags" lines (R380). -/
def Writes.decompress : Writes :=
  { freq := false, symcount := true, nodes := true, root := true, ct := false, padOut := true,
    totalBits := true, flags := true }

/-- DECOMPRESS (R380): reads IBUF, needs no flag. -/
def execDecompress (s : State) : Host.Outcome State Fault Refusal :=
  completion true none Writes.decompress decompressInput s

end Sys2Proof.Machine
end

