-- ==== Sys2Proof/Machine/Control.lean ====
section
/-! DEFINITION. The control commands: NOP (R400) and CLEAR (R402); neither can complete with an error (R401). -/

namespace Sys2Proof.Machine

/-- NOP (R400): nothing beyond the completion's STATUS update. -/
def execNop (s : State) : Host.Outcome State Fault Refusal :=
  completion false none Writes.none .ok s

/-- The pseudocode of R402. PAD_OUT and TOTAL_BITS hold the specified value 0 again. OBUF is not written (R402), and the
bytes an earlier command left in it stay readable, although OUT_LEN is 0. DEDUCED: R62 governs here, not the wider words
of U5 (log 17). -/
def clearDerived (s : State) : State :=
  { s with
    ftValid := false
    treeValid := false
    ctValid := false
    drop := false
    outLen := 0
    symcount := 0
    padOut := 0
    padOutUnspec := false
    totalBits := 0
    totalBitsUnspec := false
    root := emptyRoot }

/-- CLEAR (R402). -/
def execClear (s : State) : Host.Outcome State Fault Refusal :=
  completion false none Writes.none (fun s => .ok (clearDerived s)) s

end Sys2Proof.Machine
end

