-- ==== Sys2Proof/Machine/Bus.lean ====
section
/-! DEFINITION. The host bus: the address map (R100, R103, R104), the register map (R35 to R56), and one 32-bit read or
write (R101, R102), with what a host sees and may do while BUSY (R68, R606, R607). -/

namespace Sys2Proof.Machine

/-- What a host address names (R100); a register or a buffer word by its offset, a multiple of 4. -/
inductive Region where
  | register (offset : Nat)
  | ibuf (offset : Nat)
  | obuf (offset : Nat)
  | reserved
  deriving DecidableEq, Repr

/-- The address map of R100. Address bits [1:0] are ignored (R101). -/
def regionOf (p : Params) (addr : Word) : Region :=
  let a := addr.toNat / 4 * 4
  if a < 0x1000 then .register a
  else if 0x40000000 ≤ a ∧ a < 0x40000000 + p.ibufBytes then .ibuf (a - 0x40000000)
  else if 0x80000000 ≤ a ∧ a < 0x80000000 + p.obufBytes then .obuf (a - 0x80000000)
  else .reserved

/-- The register offsets of R35. -/
abbrev offID : Nat := 0x000
abbrev offCMD : Nat := 0x004
abbrev offSTATUS : Nat := 0x008
abbrev offIN_LEN : Nat := 0x00C
abbrev offOUT_LEN : Nat := 0x010
abbrev offSYMCOUNT : Nat := 0x014
abbrev offPAD_IN : Nat := 0x018
abbrev offPAD_OUT : Nat := 0x01C
abbrev offTOTAL_BITS_LO : Nat := 0x020
abbrev offTOTAL_BITS_HI : Nat := 0x024
abbrev offROOT : Nat := 0x028
abbrev offCT_SEL : Nat := 0x02C
abbrev offCT_LEN : Nat := 0x030
abbrev offNODE_SEL : Nat := 0x034
abbrev offNODE_INFO : Nat := 0x038
abbrev offNODE_FREQ : Nat := 0x03C
abbrev offCT_CODE0 : Nat := 0x040
abbrev offIBUF_SIZE : Nat := 0x060
abbrev offOBUF_SIZE : Nat := 0x064
abbrev offFREQ0 : Nat := 0x400

/-- ID's constant, "HUFF" (R36). -/
def idWord : Word := 0x48554646

/-- What a read of a register with implemented bits `mask` returns: `value` when the block is not BUSY and the register
is meaningful, else a free value in those bits (R35, R68, R69). DEDUCED: which registers are (logs 8 and 9). -/
def State.shown (s : State) (meaningful : Bool) (mask value : Word) : Word :=
  if meaningful && !s.busy then value else Config.readWord s.draws &&& mask

/-- CT_LEN's word: LEN in bits [7:0], VALID in bit [8] (R53). -/
def CtEntry.lenWord (e : CtEntry) : Word := 0#23 ++ BitVec.ofBool e.valid ++ e.len

/-- NODE_INFO's word (R54). -/
def Node.infoWord (n : Node) : Word :=
  BitVec.ofBool n.used ++ BitVec.ofBool n.leaf ++ 0#4 ++ n.right ++ n.left ++ n.sym

/-- The NODE entry that NODE_SEL selects, an entry whose words are 0 when NODE_SEL is 511 (R54). -/
def State.selectedNode (s : State) : Node := (nodeAt? s.nodes s.nodeSel).getD Node.unused

/-- A host read of a register below offset 0x040 (R36 to R54). CMD reads 0 in every phase (R37; log 9). -/
def State.readLow (s : State) (offset : Nat) : Word :=
  if offset = offID then idWord
  else if offset = offCMD then 0
  else if offset = offSTATUS then s.status
  else if offset = offIN_LEN then s.inLen
  else if offset = offOUT_LEN then s.shown true (BitVec.allOnes 32) s.outLen
  else if offset = offSYMCOUNT then s.shown (s.ftValid || s.treeValid) 0x1FF (s.symcount.zeroExtend 32)
  else if offset = offPAD_IN then s.padIn.zeroExtend 32
  else if offset = offPAD_OUT then s.shown (!s.padOutUnspec) 0x7 (s.padOut.zeroExtend 32)
  else if offset = offTOTAL_BITS_LO then
    s.shown (!s.totalBitsUnspec) (BitVec.allOnes 32) (s.totalBits.extractLsb' 0 32)
  else if offset = offTOTAL_BITS_HI then
    s.shown (!s.totalBitsUnspec) (BitVec.allOnes 32) (s.totalBits.extractLsb' 32 32)
  else if offset = offROOT then s.shown s.treeValid 0x1FF (s.root.zeroExtend 32)
  else if offset = offCT_SEL then s.ctSel.zeroExtend 32
  else if offset = offCT_LEN then s.shown s.ctValid 0x1FF (ctOf s.ct s.ctSel).lenWord
  else if offset = offNODE_SEL then s.nodeSel.zeroExtend 32
  else if offset = offNODE_INFO then s.shown s.treeValid 0xC3FFFFFF s.selectedNode.infoWord
  else if offset = offNODE_FREQ then s.shown s.treeValid (BitVec.allOnes 32) s.selectedNode.freq
  else 0

/-- A host read of a register from offset 0x040 up (R53, R55, R56); an unlisted offset reads 0 (R104). -/
def State.readHigh (s : State) (offset : Nat) : Word :=
  if offCT_CODE0 ≤ offset ∧ offset < offCT_CODE0 + 32 then
    s.shown s.ctValid (BitVec.allOnes 32) ((ctOf s.ct s.ctSel).code.extractLsb' (8 * (offset - offCT_CODE0)) 32)
  else if offset = offIBUF_SIZE then BitVec.ofNat 32 s.params.ibufBytes
  else if offset = offOBUF_SIZE then BitVec.ofNat 32 s.params.obufBytes
  else if offFREQ0 ≤ offset ∧ offset < offFREQ0 + 1024 then
    s.shown s.ftValid (BitVec.allOnes 32) (s.freq.get (BitVec.ofNat 8 ((offset - offFREQ0) / 4)).toFin)
  else 0

/-- A host read of the register at `offset` (R35). -/
def State.readRegister (s : State) (offset : Nat) : Word :=
  if offset < offCT_CODE0 then s.readLow offset else s.readHigh offset

/-- OBUF byte `i` as a host read in this step sees it: an unspecified byte is a free value (R11, R62). -/
def State.obufByte (s : State) (i : Nat) : Byte :=
  (s.obuf.read? i).getD (Config.obufByte s.draws i)

/-- OBUF bytes 0 to OUT_LEN - 1, the result a host reads after a command (R47, R62, R603). -/
def State.outputBytes (s : State) : List Byte :=
  (List.range s.outLen.toNat).map s.obufByte

/-- A host read of the word at `addr` (R101, R102). While BUSY the OBUF window is a free value (R68, R607). -/
def State.hostRead (s : State) (addr : Word) : Word :=
  match regionOf s.params addr with
  | .register offset => s.readRegister offset
  | .ibuf i => wordOfLanes (s.ibufByte i) (s.ibufByte (i + 1)) (s.ibufByte (i + 2)) (s.ibufByte (i + 3))
  | .obuf i =>
    s.shown true (BitVec.allOnes 32)
      (wordOfLanes (s.obufByte i) (s.obufByte (i + 1)) (s.obufByte (i + 2)) (s.obufByte (i + 3)))
  | .reserved => 0

/-- A write that is a hazard while BUSY: the spec refuses the host program that makes it (R606, U8). -/
def State.unlessBusy (s : State) (addr : Word) (t : State) : Host.Outcome State Fault Refusal :=
  if s.busy then .refused (.hostWriteWhileBusy addr) else .next t

/-- A host write of `w` to the register at `offset`: CMD (R33, R37), the four RW registers cut to their implemented
bits (R46, R49, R53, R54), and no other register (R35, R104). -/
def State.writeRegister (s : State) (addr : Word) (offset : Nat) (w : Word) : Host.Outcome State Fault Refusal :=
  if offset = offCMD then .next (if s.busy then s.dropCommand else s.accept w)
  else if offset = offIN_LEN then s.unlessBusy addr { s with inLen := w }
  else if offset = offPAD_IN then s.unlessBusy addr { s with padIn := w.extractLsb' 0 3 }
  else if offset = offCT_SEL then s.unlessBusy addr { s with ctSel := w.extractLsb' 0 8 }
  else if offset = offNODE_SEL then s.unlessBusy addr { s with nodeSel := w.extractLsb' 0 9 }
  else .next s

/-- A host write of `w` to the word at `addr` (R100 to R105): all four bytes of an IBUF word; OBUF and reserved
addresses ignore it. -/
def State.hostWrite (s : State) (addr w : Word) : Host.Outcome State Fault Refusal :=
  match regionOf s.params addr with
  | .register offset => s.writeRegister addr offset w
  | .ibuf i => s.unlessBusy addr { s with ibuf := s.ibuf.writeWord i w }
  | .obuf _ => .next s
  | .reserved => .next s

end Sys2Proof.Machine
end

