-- ==== Sys2Proof/Machine/HostProgram.lean ====
section
/-! DEFINITION. The pseudo-operations of host programs (R146) as lists of bus transactions (R145). -/

namespace Sys2Proof.Machine

/-- A register's address: the register window starts at address 0 (R100). -/
def registerAddr (offset : Nat) : Word := BitVec.ofNat 32 offset

/-- `W <register>, <value>` (R145). -/
def writeReg (offset : Nat) (value : Word) : Input := .write (registerAddr offset) value

/-- `CMD <mnemonic>` (R146). -/
def cmd (i : Instr) : Input := writeReg offCMD (encode i)

/-- The word writes of `LOAD`, from window offset `4k` on; bytes beyond the list's end are 0 (R146). -/
def loadWords : Nat → List Byte → List Input
  | k, b0 :: b1 :: b2 :: b3 :: rest =>
    .write (BitVec.ofNat 32 (0x40000000 + 4 * k)) (wordOfLanes b0 b1 b2 b3) :: loadWords (k + 1) rest
  | k, [b0, b1, b2] => [.write (BitVec.ofNat 32 (0x40000000 + 4 * k)) (wordOfLanes b0 b1 b2 0)]
  | k, [b0, b1] => [.write (BitVec.ofNat 32 (0x40000000 + 4 * k)) (wordOfLanes b0 b1 0 0)]
  | k, [b0] => [.write (BitVec.ofNat 32 (0x40000000 + 4 * k)) (wordOfLanes b0 0 0 0)]
  | _, [] => []

/-- `LOAD <byte list>` (R146): the words, then IN_LEN. -/
def load (bytes : List Byte) : List Input :=
  loadWords 0 bytes ++ [writeReg offIN_LEN (BitVec.ofNat 32 bytes.length)]

/-- `READ <n>` (R146): the OBUF words that hold bytes 0 to n - 1. -/
def readOutput (n : Nat) : List Input :=
  (List.range ((n + 3) / 4)).map fun k => .read (BitVec.ofNat 32 (0x80000000 + 4 * k))

end Sys2Proof.Machine
end

