-- ==== Sys2Proof/Machine/Schedule.lean ====
section
/-! DEFINITION. Whose step it is (R30, R34, R112, R600, R611): the engine's, which is one completion, or the boundary's,
which is one host transaction or one edge of reset. -/

namespace Sys2Proof.Machine

/-- The completion of the command in PENDING (R34); an illegal word completes with BAD_COMMAND and changes nothing else
(R142, R501). -/
def runPending (s : State) : Host.Outcome State Fault Refusal :=
  match decode s.pending with
  | .ok i => exec i s
  | .error _ => .next (s.complete .badCommand)

/-- A host read has returned `w`. -/
def State.respond (w : Word) (s : State) : State := { s with responses := w :: s.responses }

/-- WAIT has read STATUS as `w`: it ends with that value when BUSY = 0, else it reads again (R146). -/
def State.polled (w : Word) (s : State) : State :=
  if w.getLsbD 0 then { s with inputs := .wait :: s.inputs } else s.respond w

/-- One event at the boundary while reset is not asserted (R101, R105). Releasing a reset that is not asserted is no
event. -/
def State.serve (s : State) : Input → Host.Outcome State Fault Refusal
  | .write addr w => s.hostWrite addr w
  | .read addr => .next (s.respond (s.hostRead addr))
  | .wait => .next (s.polled s.status)
  | .assertReset => .next { s with inReset := true }
  | .releaseReset => .next s

/-- The state when reset is released (R70, R600): FREQ, CT, NODE and PENDING are free values. The parameters are the
instance's own (R6), and the platform's side goes on. -/
def State.released (s : State) : State :=
  State.afterReset s.params (freeFreq s.draws) (freeCt s.draws) (freeNodes s.draws) (Config.pending s.draws)
    s.inputs s.responses s.draws

/-- One event at the boundary while reset is asserted (R600): a read returns an unspecified value, a write has no
effect. -/
def State.serveInReset (s : State) : Input → State
  | .write _ _ => s
  | .read _ => s.respond (Config.readWord s.draws)
  | .wait => s.polled (Config.readWord s.draws)
  | .assertReset => s
  | .releaseReset => s.released

/-- The boundary's turn: the first waiting event, or nothing when none waits (R515). -/
def serveNext (s : State) : Host.Outcome State Fault Refusal :=
  match s.inputs with
  | [] => .next s
  | i :: rest => State.serve { s with inputs := rest } i

/-- The boundary's turn while reset is asserted; the engine takes no step, so a running command never completes
(R602). -/
def serveNextInReset (s : State) : State :=
  match s.inputs with
  | [] => s
  | i :: rest => State.serveInReset { s with inputs := rest } i

/-- One step before it is counted: a completion is due when the delay has run out, and it is one indivisible step
(R34); otherwise the boundary moves, and while BUSY the delay shrinks (R611). -/
def turn (s : State) : Host.Outcome State Fault Refusal :=
  if s.inReset then .next (serveNextInReset s)
  else
    match s.phase with
    | .idle => serveNext s
    | .busy =>
      match s.delay with
      | 0 => runPending s
      | d + 1 => serveNext { s with delay := d }

/-- A step counts itself, so that the next step's free values are fresh draws (R11). -/
def counted : Host.Outcome State Fault Refusal → Host.Outcome State Fault Refusal
  | .next t => .next { t with draws := t.draws + 1 }
  | .fault f => .fault f
  | .refused r => .refused r

/-- `s` with the command word `w` accepted and its completion due at once. -/
def State.placeCommand (w : Word) (s : State) : State :=
  { s with pending := w, phase := .busy, done := false, err := .noError, delay := 0, inReset := false }

end Sys2Proof.Machine
end

