-- ==== Sys2Proof/Machine/Step.lean ====
section
/-! DEFINITION. One step of the machine, and how the host places a command for the next step. -/

namespace Sys2Proof.Machine

/-- One step: the engine's completion when it is due, else one event at the block's boundary. -/
def step (s : State) : Host.Outcome State Fault Refusal := counted (turn s)

/-- The block fetches nothing (R32, R115): its next command is the word in PENDING while BUSY. DESIGN CHOICE (log
12). -/
def State.withFetchWord (s : State) (_nbits w : Nat) : State := s.placeCommand (BitVec.ofNat 32 w)

end Sys2Proof.Machine
end

