-- ==== Sys2Proof/Safety.lean ====
section
/-! DEFINITION. What counts as a good state and a safe run, in the spec's own terms: the tree invariant (R44), the codes of
a tree (R250) and the code-table invariant (R45), what FT_VALID vouches for (R43, R202), the invariant of the whole
state, and the host writes that are hazards (R606). Trees are described here by their shape, not by the walks the
commands perform. -/

namespace Sys2Proof.Machine

/-- A full binary tree with the arena index of each node and the symbol of each leaf (R44). -/
inductive Shape where
  | leaf (idx : Nat) (sym : Byte)
  | node (idx : Nat) (left right : Shape)
  deriving DecidableEq, Repr

/-- The index of the topmost node. -/
def Shape.idx : Shape → Nat
  | .leaf i _ => i
  | .node i _ _ => i

/-- The indices of all nodes, in preorder. -/
def Shape.indices : Shape → List Nat
  | .leaf i _ => [i]
  | .node i l r => i :: (l.indices ++ r.indices)

/-- The leaves' symbols, from left to right. -/
def Shape.symbols : Shape → List Byte
  | .leaf _ s => [s]
  | .node _ l r => l.symbols ++ r.symbols

/-- The leaves with the branch bits that lead to them: 0 to the left, 1 to the right (R250). -/
def Shape.paths : Shape → List (Byte × List Bool)
  | .leaf _ s => [(s, [])]
  | .node _ l r =>
    (l.paths.map fun c => (c.1, false :: c.2)) ++ (r.paths.map fun c => (c.1, true :: c.2))

/-- The codes of a whole tree: its paths, but the fixed code "0" when it is a single leaf (R250). -/
def Shape.codes : Shape → List (Byte × List Bool)
  | .leaf _ s => [(s, [false])]
  | .node i l r => (Shape.node i l r).paths

/-- `Desc` of the tree (R147). -/
def Shape.desc : Shape → List Bool
  | .leaf _ s => true :: bitsOf 8 s.toNat
  | .node _ l r => false :: (l.desc ++ r.desc)

/-- NODE holds the tree: each leaf entry and each internal entry has exactly the fields R60 gives it, an internal
entry's FREQ being the sum of its children's. -/
def Shape.heldIn (nodes : Vector Node 511) : Shape → Prop
  | .leaf i s => ∃ nd, nodes[i]? = some nd ∧ nd = leafNode s nd.freq
  | .node i l r => ∃ nd nl nr, nodes[i]? = some nd ∧ nodes[l.idx]? = some nl ∧ nodes[r.idx]? = some nr ∧
      nd = internalNode l.idx r.idx (nl.freq + nr.freq) ∧ l.heldIn nodes ∧ r.heldIn nodes

/-- `t` is the tree of NODE and ROOT for `n` symbols, `n ≥ 1` (R44): the entries in use are exactly 0 to 2n - 2, each is
reached from ROOT by exactly one path, and no two leaves hold the same symbol. -/
structure IsTree (n : Nat) (nodes : Vector Node 511) (root : BitVec 9) (t : Shape) : Prop where
  held : t.heldIn nodes
  root : root.toNat = t.idx
  indices : t.indices.Perm (List.range (2 * n - 1))
  count : t.symbols.length = n
  distinct : t.symbols.Nodup
  unused : ∀ (i : Nat) (nd : Node), 2 * n - 1 ≤ i → nodes[i]? = some nd → nd = Node.unused

/-- The tree invariant (R44) for `n` = SYMCOUNT. -/
def TreeOk (n : Nat) (nodes : Vector Node 511) (root : BitVec 9) : Prop :=
  (n = 0 ∧ root = emptyRoot ∧ ∀ (i : Nat) (nd : Node), nodes[i]? = some nd → nd = Node.unused) ∨
  (1 ≤ n ∧ ∃ t, IsTree n nodes root t)

/-- `codes` are the codes of the tree in NODE and ROOT (R250): none for the EMPTY root. -/
def TreeCodes (n : Nat) (nodes : Vector Node 511) (root : BitVec 9) (codes : List (Byte × List Bool)) : Prop :=
  (n = 0 ∧ root = emptyRoot ∧ codes = []) ∨ (1 ≤ n ∧ ∃ t, IsTree n nodes root t ∧ codes = t.codes)

/-- `desc` is `Desc(ROOT)` of the tree in NODE and ROOT (R147): empty for the EMPTY root. -/
def TreeDesc (n : Nat) (nodes : Vector Node 511) (root : BitVec 9) (desc : List Bool) : Prop :=
  (n = 0 ∧ root = emptyRoot ∧ desc = []) ∨ (1 ≤ n ∧ ∃ t, IsTree n nodes root t ∧ desc = t.desc)

/-- What a stream can describe (R147, R148): a tree of `n` distinct symbols by its descriptor, with the codes it has
(R250); for `n = 0` no tree. -/
def Described (n : Nat) (desc : List Bool) (codes : List (Byte × List Bool)) : Prop :=
  (n = 0 ∧ desc = [] ∧ codes = []) ∨
  ∃ t : Shape, t.symbols.length = n ∧ t.symbols.Nodup ∧ desc = t.desc ∧ codes = t.codes

/-- The frequency of arena entry `i` (R60). -/
def nodeFreq (nodes : Vector Node 511) (i : Nat) : Nat := (nodes.toList.getD i Node.unused).freq.toNat

/-- The key of entry `i` is below that of entry `j` (R221); a node's seq is its index (R222). -/
def keyBefore (nodes : Vector Node 511) (i j : Nat) : Prop :=
  nodeFreq nodes i < nodeFreq nodes j ∨ (nodeFreq nodes i = nodeFreq nodes j ∧ i < j)

/-- When entry `k` is made, entry `c` is in PQ: it is older and no node older than `k` has it as a child (R224). -/
def waitingAt (nodes : Vector Node 511) (k c : Nat) : Prop :=
  c < k ∧ ∀ (j : Nat) (nd : Node), j < k → nodes[j]? = some nd → nd.leaf = false →
    nd.left.toNat ≠ c ∧ nd.right.toNat ≠ c

/-- CT holds exactly these codes (R45, R59): the entry of a symbol with a code is VALID with the code's length and
number, and every other entry is all zero. -/
def TableHolds (ct : Vector CtEntry 256) (codes : List (Byte × List Bool)) : Prop :=
  ∀ b, (∀ c, (b, c) ∈ codes →
          (ctOf ct b).valid = true ∧ (ctOf ct b).len.toNat = c.length ∧ (ctOf ct b).code.toNat = num c) ∧
       (b ∉ codes.map Prod.fst → ctOf ct b = CtEntry.invalid)

/-- The bit string of `input` under `codes`: its bytes' codes in order (R150); `none` when a byte has no code. -/
def encodeWith (codes : List (Byte × List Bool)) : List Byte → Option (List Bool)
  | [] => some []
  | b :: bs =>
    match codes.lookup b with
    | none => none
    | some c => (encodeWith codes bs).map (c ++ ·)

/-- FREQ holds a frequency table of at most `limit` occurrences, and SYMCOUNT its size (R43, R201, R202). -/
structure FreqOk (limit : Nat) (freq : Vector Word 256) (symcount : BitVec 9) : Prop where
  size : symcount.toNat = distinct freq
  total : (freq.toList.map BitVec.toNat).sum ≤ limit

/-- The invariant of the whole state. -/
structure State.Inv (s : State) : Prop where
  /-- The parameters are legal (R6). -/
  params : s.params.wf = true
  /-- IBUF is canonical and inside its bounds (R61). -/
  ibufWf : s.ibuf.wf
  ibufBound : ∀ c ∈ s.ibuf, c.1 < s.params.ibufBytes
  /-- OBUF is canonical and inside its bounds (R62, R110). -/
  obufWf : s.obuf.wf
  obufBound : ∀ c ∈ s.obuf, c.1 < s.params.obufBytes
  /-- OUT_LEN counts bytes that OBUF holds (R47, R62). -/
  outLen : ∀ i, i < s.outLen.toNat → (s.obuf.read? i).isSome
  /-- TOTAL_BITS is below 2^38 (R51). -/
  totalBits : s.totalBitsUnspec = false → s.totalBits.toNat < 2 ^ 38
  /-- While BUSY, DONE and ERR are 0 (R33). -/
  busy : s.phase = .busy → s.done = false ∧ s.err = .noError
  /-- FT_VALID (R43). -/
  freqOk : s.ftValid = true → FreqOk s.params.ibufBytes s.freq s.symcount
  /-- TREE_VALID (R43, R44). -/
  treeOk : s.treeValid = true → TreeOk s.symcount.toNat s.nodes s.root
  /-- CT_VALID (R43, R45). -/
  ctOk : s.ctValid = true → s.treeValid = true ∧
    ∃ codes, TreeCodes s.symcount.toNat s.nodes s.root codes ∧ TableHolds s.ct codes

/-- The host has written every byte of the input since reset, as R609 asks of it. -/
def State.inputWritten (s : State) : Prop := ∀ i, i < s.inLen.toNat → (s.ibuf.read? i).isSome

/-- The commands that read IBUF (R501). -/
def readsIbuf : Instr → Bool
  | .count | .pack | .tdec | .unpack | .compress | .decompress => true
  | .nop | .clear | .build | .gencodes | .tenc => false

/-- The validity flag a command needs (R501). -/
def neededFlag : Instr → Option ValidFlag
  | .build => some .ft
  | .gencodes | .tenc | .unpack => some .tree
  | .pack => some .ct
  | .nop | .clear | .count | .tdec | .compress | .decompress => none

/-- The execution errors a command can raise (R502). -/
def canRaise : Instr → ErrCode → Bool
  | .pack, .noCode | .pack, .outOverflow => true
  | .unpack, .corruptStream | .unpack, .outOverflow => true
  | .tdec, .invalidHeader | .tdec, .corruptStream => true
  | .compress, .outOverflow => true
  | .decompress, .invalidHeader | .decompress, .corruptStream | .decompress, .outOverflow => true
  | _, _ => false

/-- The word a host access to `addr` acts on: address bits [1:0] are ignored (R101). -/
def aligned (addr : Word) : Nat := addr.toNat / 4 * 4

/-- The offsets of R35's table. -/
def listedOffset (o : Nat) : Bool :=
  decide (o ≤ 0x03C) || (decide (0x040 ≤ o) && decide (o < 0x060)) || o == 0x060 || o == 0x064 ||
    (decide (0x400 ≤ o) && decide (o < 0x800))

/-- A reserved address or an unlisted offset of the register window (R100, R103, R104). -/
def reservedAddr (p : Params) (addr : Word) : Bool :=
  let a := aligned addr
  (decide (a < 0x1000) && !listedOffset a) ||
  (decide (0x1000 ≤ a) && decide (a < 0x40000000)) ||
  (decide (0x40000000 + p.ibufBytes ≤ a) && decide (a < 0x80000000)) ||
  decide (0x80000000 + p.obufBytes ≤ a)

/-- A register the host cannot write (R35), or a word of the OBUF window (R100). -/
def readOnlyAddr (p : Params) (addr : Word) : Bool :=
  let a := aligned addr
  (decide (a < 0x1000) && listedOffset a &&
    !(a == 0x004 || a == 0x00C || a == 0x018 || a == 0x02C || a == 0x034)) ||
  (decide (0x80000000 ≤ a) && decide (a < 0x80000000 + p.obufBytes))

/-- The addresses whose write while BUSY is a hazard (R606): IN_LEN, PAD_IN, CT_SEL, NODE_SEL and the IBUF window. -/
def hazardAddr (p : Params) (addr : Word) : Bool :=
  let a := aligned addr
  a == 0x00C || a == 0x018 || a == 0x02C || a == 0x034 ||
    (decide (0x40000000 ≤ a) && decide (a < 0x40000000 + p.ibufBytes))

/-- An event that is neither an edge of reset nor a write that is a hazard while BUSY. -/
def Input.harmless (p : Params) : Input → Bool
  | .write addr _ => !hazardAddr p addr
  | .read _ => true
  | .wait => true
  | .assertReset => false
  | .releaseReset => false

/-- A command completes when the step is the engine's (R34): BUSY, outside reset, with the delay run out. -/
def State.completionDue (s : State) : Prop := s.inReset = false ∧ s.phase = .busy ∧ s.delay = 0

end Sys2Proof.Machine
end

