-- ==== Sys2Proof/Certificates/Slice0/Obligations.lean ====
section
/-! DEFINITION. The statements for the provers. `responses`, `inputs`, `delay` and `draws` are the model's own fields (log
4, 10, 11): a statement that lists them says how the model's bookkeeping moves, and claims nothing of the spec there. -/

open Sys2Proof Sys2Proof.Machine

/-! ### Encoding -/

/-- R141: each command is selected by its own word, and by no other. -/
def Obligations.OpcodeMapIsExact : Prop :=
  ∀ w : Word,
    (decode w = .ok .nop ↔ w = 0x00000000) ∧
    (decode w = .ok .clear ↔ w = 0x00000001) ∧
    (decode w = .ok .count ↔ w = 0x00000010) ∧
    (decode w = .ok .build ↔ w = 0x00000011) ∧
    (decode w = .ok .gencodes ↔ w = 0x00000012) ∧
    (decode w = .ok .tenc ↔ w = 0x00000013) ∧
    (decode w = .ok .pack ↔ w = 0x00000014) ∧
    (decode w = .ok .tdec ↔ w = 0x00000020) ∧
    (decode w = .ok .unpack ↔ w = 0x00000021) ∧
    (decode w = .ok .compress ↔ w = 0x00000030) ∧
    (decode w = .ok .decompress ↔ w = 0x00000031)

/-- Decoding inverts encoding, RSVD is 0 in every encoded word (R140), and every word that decodes to a command is that
command's encoding. -/
def Obligations.DecodeInvertsEncode : Prop :=
  ∀ i : Instr, i.wf = true →
    decode (encode i) = .ok i ∧ (encode i).extractLsb' 8 24 = 0 ∧
    decodeTableWord 32 (encode i).toNat = some i ∧ ∀ w, decode w = .ok i → w = encode i

/-- R142: the legal words by field, and what an accepted illegal word does. -/
def Obligations.IllegalWordIsBadCommand : Prop :=
  ∀ w : Word,
    ((∃ i, decode w = .ok i) ↔
      w.extractLsb' 8 24 = 0 ∧
      w.extractLsb' 0 8 ∈ [0x00#8, 0x01#8, 0x10#8, 0x11#8, 0x12#8, 0x13#8, 0x14#8, 0x20#8, 0x21#8, 0x30#8, 0x31#8]) ∧
    ∀ s : State, s.completionDue → s.pending = w → (∀ i, decode w ≠ .ok i) →
      step s = .next { s with err := .badCommand, done := true, phase := .idle, draws := s.draws + 1 }

/-- A step with a completion due performs the command PENDING holds (R34): it is `exec` of the decoded command, and one
more draw. The last clause is the model's DESIGN CHOICE and no rule of the spec: `withFetchWord` stands for an acceptance
whose completion is due at once (log 12). -/
def Obligations.StepRunsThePendingCommand : Prop :=
  ∀ (s : State) (i : Instr),
    (s.completionDue → decode s.pending = .ok i →
      step s = match exec i s with
        | .next t => .next { t with draws := t.draws + 1 }
        | .fault f => .fault f
        | .refused r => .refused r) ∧
    ∀ nbits, (s.withFetchWord nbits (encode i).toNat).completionDue ∧
      (s.withFetchWord nbits (encode i).toNat).pending = encode i

/-- A few words written out from R141 and R142. -/
def Obligations.WordsDecode : Prop :=
  decode 0x00000010 = .ok .count ∧ decode 0x00000021 = .ok .unpack ∧ decode 0x00000031 = .ok .decompress ∧
  decode 0x00000002 = .error .reservedOpcode ∧ decode 0x00000110 = .error .reservedBits

/-! ### The host's side -/

/-- R33: a CMD write while IDLE is accepted, one while BUSY is dropped. A completion that is due comes before the write
(log 10), which then meets an IDLE block. -/
def Obligations.CmdWriteIsAcceptedOrDropped : Prop :=
  ∀ (s : State) (addr w : Word) (rest : List Input),
    s.inReset = false → ¬ s.completionDue → aligned addr = 0x004 → s.inputs = .write addr w :: rest →
    (s.phase = .idle → ∃ d, step s = .next { s with
      pending := w, phase := .busy, done := false, err := .noError,
      delay := d, inputs := rest, draws := s.draws + 1 }) ∧
    (s.phase = .busy → ∃ d, step s = .next { s with
      drop := true,
      delay := d, inputs := rest, draws := s.draws + 1 })

/-- A completion that is due takes one step, which ends BUSY, sets DONE, and orders no host transaction inside it
(R34). -/
def Obligations.CompletionEndsBusy : Prop :=
  ∀ s : State, s.Inv → s.completionDue →
    ∃ t, step s = .next t ∧ t.phase = .idle ∧ t.done = true ∧ t.inputs = s.inputs ∧ t.responses = s.responses ∧
      t.inReset = false ∧ t.ibuf = s.ibuf ∧
      ∀ i, decode s.pending = .ok i → ∃ u, exec i s = .next u ∧ t = { u with draws := s.draws + 1 }

/-- A CMD write and a completion and reset are all that changes DONE and ERR (R40, R42, R507). That reset changes them at
its release, not before, is the model's choice (log 11). -/
def Obligations.DoneAndErrChangeOnlySo : Prop :=
  ∀ s t : State, step s = .next t →
    (s.completionDue → t.done = true) ∧
    (¬ s.completionDue →
      (t.done = s.done ∧ t.err = s.err) ∨
      (t.done = false ∧ t.err = .noError ∧
        ((s.inReset = false ∧ s.phase = .idle ∧ t.phase = .busy ∧
            ∃ addr w, aligned addr = 0x004 ∧ s.inputs.head? = some (.write addr w)) ∨
         (s.inReset = true ∧ s.inputs.head? = some .releaseReset))))

/-- What sets DROP, and what clears it (R41). That reset clears it at its release, not before, is the model's choice
(log 11). -/
def Obligations.DropIsSticky : Prop :=
  ∀ s t : State, step s = .next t →
    (s.drop = false → t.drop = true →
      s.inReset = false ∧ s.phase = .busy ∧
        ∃ addr w, aligned addr = 0x004 ∧ s.inputs.head? = some (.write addr w)) ∧
    (s.inReset = false → s.phase = .busy → ¬ s.completionDue →
      ∀ addr w, aligned addr = 0x004 → s.inputs.head? = some (.write addr w) → t.drop = true) ∧
    (s.drop = true → t.drop = false →
      (s.completionDue ∧ decode s.pending = .ok .clear) ∨
      (s.inReset = true ∧ s.inputs.head? = some .releaseReset)) ∧
    (s.completionDue → decode s.pending = .ok .clear → t.drop = false) ∧
    (s.inReset = true → s.inputs.head? = some .releaseReset → t.drop = false)

/-- A host read answers what `hostRead` says and each read of WAIT reads STATUS, and neither changes anything but the
host's own record of it (R105, R146, R607): STATUS, DROP, DONE and ERR stay, among the rest. -/
def Obligations.ReadsHaveNoSideEffect : Prop :=
  ∀ (s : State) (rest : List Input), s.inReset = false → ¬ s.completionDue →
    (∀ addr, s.inputs = .read addr :: rest → ∃ d, step s = .next { s with
      responses := s.hostRead addr :: s.responses, inputs := rest, delay := d, draws := s.draws + 1 }) ∧
    (s.inputs = .wait :: rest →
      (s.phase = .idle → step s = .next { s with
        responses := s.hostRead 0x008 :: s.responses, inputs := rest, draws := s.draws + 1 }) ∧
      (s.phase = .busy → ∃ d, step s = .next { s with
        delay := d, draws := s.draws + 1 }))

/-- R36 and R55: the three constant registers, whatever the phase, and that no step changes the parameters they read. -/
def Obligations.ConstantRegisters : Prop :=
  (∀ (s : State) (addr : Word),
    (aligned addr = 0x000 → s.hostRead addr = 0x48554646) ∧
    (aligned addr = 0x060 → s.hostRead addr = BitVec.ofNat 32 s.params.ibufBytes) ∧
    (aligned addr = 0x064 → s.hostRead addr = BitVec.ofNat 32 s.params.obufBytes)) ∧
  ∀ s t : State, step s = .next t → t.params = s.params

/-- R38: every bit of STATUS. Bits [10:8] are stated for a block that is not BUSY. -/
def Obligations.StatusFields : Prop :=
  State.reset.hostRead 0x008 = 0 ∧
  ∀ (s : State) (addr : Word), aligned addr = 0x008 →
    (s.hostRead addr).getLsbD 0 = decide (s.phase = .busy) ∧
    (s.hostRead addr).getLsbD 1 = s.done ∧
    (s.hostRead addr).getLsbD 2 = s.drop ∧
    (s.hostRead addr).getLsbD 3 = false ∧
    (s.hostRead addr).extractLsb' 4 4 = s.err.code ∧
    (s.hostRead addr).extractLsb' 11 21 = 0 ∧
    (s.phase = .idle →
      (s.hostRead addr).getLsbD 8 = s.ftValid ∧
      (s.hostRead addr).getLsbD 9 = s.treeValid ∧
      (s.hostRead addr).getLsbD 10 = s.ctValid)

/-- What the other registers read: four and CMD whatever the phase, the rest when the block is not BUSY and the register
is meaningful (R37, R46 to R52). That R37 governs CMD while BUSY is the model's reading (log 9). -/
def Obligations.RegisterReads : Prop :=
  ∀ (s : State) (addr : Word),
    (aligned addr = 0x00C → s.hostRead addr = s.inLen) ∧
    (aligned addr = 0x018 → s.hostRead addr = s.padIn.setWidth 32) ∧
    (aligned addr = 0x02C → s.hostRead addr = s.ctSel.setWidth 32) ∧
    (aligned addr = 0x034 → s.hostRead addr = s.nodeSel.setWidth 32) ∧
    (aligned addr = 0x004 → s.hostRead addr = 0) ∧
    (s.phase = .idle →
      (aligned addr = 0x010 → s.hostRead addr = s.outLen) ∧
      (aligned addr = 0x014 → (s.ftValid = true ∨ s.treeValid = true) → s.hostRead addr = s.symcount.setWidth 32) ∧
      (aligned addr = 0x01C → s.padOutUnspec = false → s.hostRead addr = s.padOut.setWidth 32) ∧
      (aligned addr = 0x020 → s.totalBitsUnspec = false → s.hostRead addr = s.totalBits.extractLsb' 0 32) ∧
      (aligned addr = 0x024 → s.totalBitsUnspec = false → s.hostRead addr = s.totalBits.extractLsb' 32 32) ∧
      (aligned addr = 0x028 → s.treeValid = true → s.hostRead addr = s.root.setWidth 32))

/-- The code-table window (R53), the node window (R54) and the frequency window (R56) of a block that is not BUSY, while
the flag that guards them is 1. -/
def Obligations.WindowReads : Prop :=
  ∀ (s : State) (addr : Word), s.phase = .idle →
    (s.ctValid = true →
      (aligned addr = 0x030 →
        (s.hostRead addr).extractLsb' 0 8 = (ctOf s.ct s.ctSel).len ∧
        (s.hostRead addr).getLsbD 8 = (ctOf s.ct s.ctSel).valid ∧
        (s.hostRead addr).extractLsb' 9 23 = 0) ∧
      ∀ k, k < 8 → aligned addr = 0x040 + 4 * k →
        s.hostRead addr = (ctOf s.ct s.ctSel).code.extractLsb' (32 * k) 32) ∧
    (s.treeValid = true →
      (∀ nd, nodeAt? s.nodes s.nodeSel = some nd →
        (aligned addr = 0x038 →
          (s.hostRead addr).extractLsb' 0 8 = nd.sym ∧
          (s.hostRead addr).extractLsb' 8 9 = nd.left ∧
          (s.hostRead addr).extractLsb' 17 9 = nd.right ∧
          (s.hostRead addr).extractLsb' 26 4 = 0 ∧
          (s.hostRead addr).getLsbD 30 = nd.leaf ∧
          (s.hostRead addr).getLsbD 31 = nd.used) ∧
        (aligned addr = 0x03C → s.hostRead addr = nd.freq)) ∧
      (s.nodeSel = 511 → (aligned addr = 0x038 ∨ aligned addr = 0x03C) → s.hostRead addr = 0)) ∧
    (s.ftValid = true → ∀ b : Byte, aligned addr = 0x400 + 4 * b.toNat → s.hostRead addr = s.freq[b.toNat])

/-- While BUSY a host read shows nothing of the state that R68 does not list: two blocks that agree on what R68 lists
read alike everywhere (R607). `draws` numbers the free value, and that this value depends on nothing else is the model's
DESIGN CHOICE (log 4): R11 allows any value, one that depends on hidden state among them. -/
def Obligations.BusyReadsRevealNothing : Prop :=
  ∀ (s s' : State) (addr : Word), s.phase = .busy → s'.phase = .busy →
    s.params = s'.params → s.draws = s'.draws → s.ibuf = s'.ibuf → s.inLen = s'.inLen → s.padIn = s'.padIn →
    s.ctSel = s'.ctSel → s.nodeSel = s'.nodeSel → s.done = s'.done → s.drop = s'.drop → s.err = s'.err →
    s.hostRead addr = s'.hostRead addr

/-- While a validity flag is 0 no host read shows anything of what it guards (R48, R69, R608). That an unspecified read
depends on no hidden state is the model's DESIGN CHOICE (log 4): R11 allows any value. -/
def Obligations.GatedReadsRevealNothing : Prop :=
  ∀ (s : State) (addr : Word),
    (s.ftValid = false → ∀ f, ({ s with freq := f } : State).hostRead addr = s.hostRead addr) ∧
    (s.ctValid = false → ∀ c, ({ s with ct := c } : State).hostRead addr = s.hostRead addr) ∧
    (s.treeValid = false → ∀ n r, ({ s with nodes := n, root := r } : State).hostRead addr = s.hostRead addr) ∧
    (s.ftValid = false → s.treeValid = false →
      ∀ n, ({ s with symcount := n } : State).hostRead addr = s.hostRead addr)

/-- A host write to IN_LEN, PAD_IN, CT_SEL or NODE_SEL stores the implemented bits and nothing else, and the next read of
the register returns them (R35, R46, R49, R53, R54). -/
def Obligations.RwRegistersReadBack : Prop :=
  ∀ (s : State) (a r w : Word) (rest : List Input), s.inReset = false → s.phase = .idle →
    aligned a = aligned r → s.inputs = .write a w :: .read r :: rest →
    (aligned a = 0x00C → core.run 2 s = .next { s with
      inLen := w,
      responses := w :: s.responses, inputs := rest, draws := s.draws + 2 }) ∧
    (aligned a = 0x018 → core.run 2 s = .next { s with
      padIn := w.extractLsb' 0 3,
      responses := (w &&& 0x7) :: s.responses, inputs := rest, draws := s.draws + 2 }) ∧
    (aligned a = 0x02C → core.run 2 s = .next { s with
      ctSel := w.extractLsb' 0 8,
      responses := (w &&& 0xFF) :: s.responses, inputs := rest, draws := s.draws + 2 }) ∧
    (aligned a = 0x034 → core.run 2 s = .next { s with
      nodeSel := w.extractLsb' 0 9,
      responses := (w &&& 0x1FF) :: s.responses, inputs := rest, draws := s.draws + 2 })

/-- R104: reserved addresses and unlisted offsets read 0 and ignore writes, whatever the phase. -/
def Obligations.ReservedAddresses : Prop :=
  ∀ (s : State) (addr : Word), s.params.wf = true → reservedAddr s.params addr = true →
    s.hostRead addr = 0 ∧ ∀ w, s.hostWrite addr w = .next s

/-- Writes to a read-only register and to the OBUF window are ignored, whatever the phase (R35, R100, R606). -/
def Obligations.ReadOnlyAddresses : Prop :=
  ∀ (s : State) (addr w : Word), s.params.wf = true → readOnlyAddr s.params addr = true → s.hostWrite addr w = .next s

/-- R102: the byte lanes of the two windows. A host write of an IBUF word changes that word's four bytes and nothing
else. -/
def Obligations.BufferWindowLanes : Prop :=
  ∀ (s : State) (addr : Word) (k : Nat), s.params.wf = true →
    (aligned addr = 0x40000000 + 4 * k → 4 * k < s.params.ibufBytes →
      (∀ j b, j < 4 → s.ibuf.read? (4 * k + j) = some b → (s.hostRead addr).extractLsb' (8 * j) 8 = b) ∧
      (s.phase = .idle → ∀ w, ∃ t, s.hostWrite addr w = .next t ∧ t = { s with ibuf := t.ibuf } ∧
        (∀ j, j < 4 → t.ibuf.read? (4 * k + j) = some (w.extractLsb' (8 * j) 8)) ∧
        ∀ i, i < 4 * k ∨ 4 * k + 4 ≤ i → t.ibuf.read? i = s.ibuf.read? i)) ∧
    (aligned addr = 0x80000000 + 4 * k → 4 * k < s.params.obufBytes → s.phase = .idle →
      ∀ j b, j < 4 → s.obuf.read? (4 * k + j) = some b → (s.hostRead addr).extractLsb' (8 * j) 8 = b)

/-- A step that serves a host write does what `hostWrite` answers (R101, R105, R606), and no more; what that is, the
statements about `hostWrite` and the registers say. -/
def Obligations.WriteStepDoesTheWrite : Prop :=
  ∀ (s : State) (addr w : Word) (rest : List Input), s.inReset = false → s.inputs = .write addr w :: rest →
    (s.phase = .idle → ∃ t, s.hostWrite addr w = .next t ∧
      step s = .next { t with inputs := rest, draws := s.draws + 1 }) ∧
    (s.phase = .busy → ¬ s.completionDue →
      (∀ t, s.hostWrite addr w = .next t →
        step s = .next { t with inputs := rest, delay := s.delay - 1, draws := s.draws + 1 }) ∧
      ∀ r, s.hostWrite addr w = .refused r → step s = .refused r)

/-- R606: a write while BUSY to IN_LEN, PAD_IN, CT_SEL, NODE_SEL or IBUF is refused; every other write while BUSY goes on
and changes at most DROP. -/
def Obligations.BusyWritesRefusedOrHarmless : Prop :=
  ∀ (s : State) (addr w : Word) (rest : List Input),
    s.inReset = false → s.phase = .busy → ¬ s.completionDue → s.inputs = .write addr w :: rest →
    (hazardAddr s.params addr = true → step s = .refused (.hostWriteWhileBusy addr)) ∧
    (hazardAddr s.params addr = false → ∃ d, step s = .next { s with
      drop := s.drop || decide (aligned addr = 0x004),
      delay := d, inputs := rest, draws := s.draws + 1 })

/-- R611: an accepted command completes after finitely many steps, whatever else the host does meanwhile, as long as it
makes no refused write and reset is not asserted. `delay` is the model's LATENCY (log 10). -/
def Obligations.EveryCommandCompletes : Prop :=
  ∀ s : State, s.Inv → s.inReset = false → s.phase = .busy → (∀ i ∈ s.inputs, i.harmless s.params = true) →
    (∃ t, core.run s.delay s = .next t ∧ t.completionDue ∧ t.pending = s.pending) ∧
    ∃ t, core.run (s.delay + 1) s = .next t ∧ t.phase = .idle ∧ t.done = true

/-- Only an accepted CMD write starts a command, and only its completion or reset ends it (R30, R33, R515, R602). That reset
ends it at the release, and that PENDING is kept until then, is the model's choice (log 11). -/
def Obligations.BusyStartsAndEndsOnlySo : Prop :=
  ∀ s t : State, step s = .next t →
    (s.phase = .idle → t.phase = .busy →
      s.inReset = false ∧ ∃ addr w, aligned addr = 0x004 ∧ s.inputs.head? = some (.write addr w) ∧ t.pending = w) ∧
    (s.phase = .busy → t.phase = .idle →
      s.completionDue ∨ (s.inReset = true ∧ s.inputs.head? = some .releaseReset)) ∧
    (s.phase = .busy → t.phase = .busy → t.pending = s.pending)

/-- R70: the state when reset is released. FREQ, CT, NODE and PENDING are not said; no byte of IBUF or OBUF has a
specified value. `State.reset` is such a state (with parameters of the model's choice, log 1). -/
def Obligations.ResetState : Prop :=
  ∀ s : State,
    (s = State.reset ∨
      ∃ b rest, b.inReset = true ∧ b.inputs = .releaseReset :: rest ∧ step b = .next s ∧ s.params = b.params) →
    s.phase = .idle ∧ s.inReset = false ∧ s.done = false ∧ s.drop = false ∧ s.err = .noError ∧
    s.ftValid = false ∧ s.treeValid = false ∧ s.ctValid = false ∧
    s.hostRead 0x000 = 0x48554646 ∧ s.hostRead 0x008 = 0x00000000 ∧
    s.inLen = 0 ∧ s.outLen = 0 ∧ s.symcount = 0 ∧ s.padIn = 0 ∧ s.padOut = 0 ∧ s.totalBits = 0 ∧
    s.padOutUnspec = false ∧ s.totalBitsUnspec = false ∧
    s.root = 0x1FF ∧ s.ctSel = 0 ∧ s.nodeSel = 0 ∧
    s.hostRead 0x060 = BitVec.ofNat 32 s.params.ibufBytes ∧ s.hostRead 0x064 = BitVec.ofNat 32 s.params.obufBytes ∧
    (∀ i, s.ibuf.read? i = none) ∧ ∀ i, s.obuf.read? i = none

/-- Reset is asserted IDLE or BUSY, and by its release the block is IDLE with the same parameters; meanwhile no host write
has an effect and a running command does not complete (R600, R602). The model's DESIGN CHOICE and no rule of the spec:
asserting reset changes nothing else of the block, whose state is kept until the release (log 11). A completion that is due
comes before the assertion (log 10), so such states are not said here. -/
def Obligations.ResetHoldsTheBlock : Prop :=
  (∀ (s : State) (rest : List Input), s.inReset = false → ¬ s.completionDue → s.inputs = .assertReset :: rest →
    ∃ d, step s = .next { s with inReset := true, inputs := rest, delay := d, draws := s.draws + 1 }) ∧
  ∀ s : State, s.inReset = true →
    (s.inputs.head? = some .releaseReset →
      ∃ t, step s = .next t ∧ t.phase = .idle ∧ t.inReset = false ∧ t.params = s.params ∧ t.done = false ∧
        t.inputs = s.inputs.tail ∧ t.responses = s.responses) ∧
    (s.inputs.head? ≠ some .releaseReset →
      ∃ inp res, step s = .next { s with inputs := inp, responses := res, draws := s.draws + 1 } ∧
        (∀ addr w, s.inputs.head? = some (.write addr w) → res = s.responses))

/-- An idle block with no host transaction does nothing (R515); only the model's step counter moves. -/
def Obligations.IdleDoesNothing : Prop :=
  ∀ s : State, s.inReset = false → s.phase = .idle → s.inputs = [] →
    step s = .next { s with draws := s.draws + 1 }

/-! ### The command cycle -/

/-- R501: the pre-checks, in order, and that a failure changes STATUS only. -/
def Obligations.PreChecksInOrder : Prop :=
  ∀ s : State,
    ((∀ i, decode s.pending ≠ .ok i) →
      runPending s = .next { s with err := .badCommand, done := true, phase := .idle }) ∧
    ∀ i, decode s.pending = .ok i →
      (i ∈ [.count, .pack, .tdec, .unpack, .compress, .decompress] → s.params.ibufBytes < s.inLen.toNat →
        runPending s = .next { s with err := .badLength, done := true, phase := .idle }) ∧
      ((i ∈ [.count, .pack, .tdec, .unpack, .compress, .decompress] → s.inLen.toNat ≤ s.params.ibufBytes) →
        ((i = .build ∧ s.ftValid = false) ∨ (i ∈ [.gencodes, .tenc, .unpack] ∧ s.treeValid = false) ∨
          (i = .pack ∧ s.ctValid = false)) →
        runPending s = .next { s with err := .notReady, done := true, phase := .idle })

/-- R502: which command can raise which execution error, and that no command ends in another pre-check error than its
own (R500). -/
def Obligations.ErrorsOfEachCommand : Prop :=
  ∀ (i : Instr) (s t : State), exec i s = .next t →
    (t.err = .corruptStream → i ∈ [.unpack, .tdec, .decompress]) ∧
    (t.err = .invalidHeader → i ∈ [.tdec, .decompress]) ∧
    (t.err = .outOverflow → i ∈ [.pack, .unpack, .compress, .decompress]) ∧
    (t.err = .noCode → i = .pack) ∧
    (t.err = .badLength → i ∈ [.count, .pack, .tdec, .unpack, .compress, .decompress]) ∧
    (t.err = .notReady → i ∈ [.build, .gencodes, .tenc, .pack, .unpack]) ∧
    t.err ≠ .badCommand

/-- The abort rule (R503), for every command that can raise an execution error. Where TDEC fails, OBUF is unspecified
too: R62 says so of every execution error, though TDEC's "Writes" line omits OBUF (log 7). -/
def Obligations.AbortRule : Prop :=
  ∀ (i : Instr) (s t : State), exec i s = .next t → t.err.isExecution = true →
    t.phase = .idle ∧ t.done = true ∧ t.outLen = 0 ∧ (∀ k, t.obuf.read? k = none) ∧
    (i ∈ [.pack, .unpack] → t = { s with
      err := t.err, done := true, phase := .idle, outLen := 0, obuf := t.obuf,
      padOut := t.padOut, padOutUnspec := t.padOutUnspec, totalBits := t.totalBits, totalBitsUnspec := true }) ∧
    (i = .pack → t.padOutUnspec = true) ∧
    (i = .unpack → t.padOut = s.padOut ∧ t.padOutUnspec = s.padOutUnspec) ∧
    (i = .tdec → t = { s with
      err := t.err, done := true, phase := .idle, outLen := 0, obuf := t.obuf,
      symcount := t.symcount, nodes := t.nodes, root := t.root,
      ftValid := false, treeValid := false, ctValid := false }) ∧
    (i = .compress → t = { s with
      err := t.err, done := true, phase := .idle, outLen := 0, obuf := t.obuf,
      freq := t.freq, symcount := t.symcount, nodes := t.nodes, root := t.root, ct := t.ct,
      padOut := t.padOut, padOutUnspec := true, totalBits := t.totalBits, totalBitsUnspec := true,
      ftValid := false, treeValid := false, ctValid := false }) ∧
    (i = .decompress → t = { s with
      err := t.err, done := true, phase := .idle, outLen := 0, obuf := t.obuf,
      symcount := t.symcount, nodes := t.nodes, root := t.root,
      padOut := t.padOut, padOutUnspec := true, totalBits := t.totalBits, totalBitsUnspec := true,
      ftValid := false, treeValid := false, ctValid := false })

/-- No command writes what only the host writes, nor PENDING, the parameters or the platform's side; and only CLEAR
changes DROP (R41, R46, R49, R53, R54, R61). -/
def Obligations.EngineLeavesTheHostsState : Prop :=
  ∀ (i : Instr) (s t : State), exec i s = .next t →
    t.ibuf = s.ibuf ∧ t.inLen = s.inLen ∧ t.padIn = s.padIn ∧ t.ctSel = s.ctSel ∧ t.nodeSel = s.nodeSel ∧
    t.params = s.params ∧ t.pending = s.pending ∧ t.inReset = s.inReset ∧ t.delay = s.delay ∧ t.inputs = s.inputs ∧
    t.responses = s.responses ∧ t.draws = s.draws ∧ (i ≠ .clear → t.drop = s.drop)

/-- Which commands write each result (R47, R48, R50 to R52, R57, R58, R60), every error included. TDEC sets OUT_LEN and
leaves OBUF unspecified only when it fails (R503, R62; log 7). CLEAR leaves OBUF as it was (R402; log 17). -/
def Obligations.CommandsWriteOnlyTheirResults : Prop :=
  ∀ (i : Instr) (s t : State), exec i s = .next t →
    (i ∉ [.count, .compress] → t.freq = s.freq) ∧
    (i ∉ [.gencodes, .compress] → t.ct = s.ct) ∧
    (i ∉ [.build, .tdec, .compress, .decompress] → t.nodes = s.nodes) ∧
    (i ∉ [.build, .tdec, .compress, .decompress, .clear] → t.root = s.root) ∧
    (i ∉ [.count, .tdec, .compress, .decompress, .clear] → t.symcount = s.symcount) ∧
    (i ∉ [.pack, .compress, .decompress, .clear] → t.padOut = s.padOut ∧ t.padOutUnspec = s.padOutUnspec) ∧
    (i ∉ [.pack, .unpack, .compress, .decompress, .clear] →
      t.totalBits = s.totalBits ∧ t.totalBitsUnspec = s.totalBitsUnspec) ∧
    (i ∉ [.tenc, .pack, .unpack, .compress, .decompress, .clear] → (i = .tdec → t.err.isExecution = false) →
      t.outLen = s.outLen) ∧
    (i ∉ [.tenc, .pack, .unpack, .compress, .decompress] → (i = .tdec → t.err.isExecution = false) →
      t.obuf = s.obuf) ∧
    (i ∉ [.clear, .count, .tdec, .compress, .decompress] → t.ftValid = s.ftValid) ∧
    (i ∉ [.clear, .count, .build, .tdec, .compress, .decompress] → t.treeValid = s.treeValid) ∧
    (i ∉ [.clear, .count, .build, .gencodes, .tdec, .compress, .decompress] → t.ctValid = s.ctValid)

/-! ### The commands: what each leaves when it completes, and its frame -/

/-- R400. -/
def Obligations.NopHasNoEffect : Prop :=
  decode 0x00000000 = .ok .nop ∧
  ∀ s : State, exec .nop s = .next { s with err := .noError, done := true, phase := .idle }

/-- R402. That OBUF keeps its specified bytes is R402's "not written", read with R62 and not with U5 (log 17). -/
def Obligations.ClearDiscardsResults : Prop :=
  decode 0x00000001 = .ok .clear ∧
  ∀ s : State, exec .clear s = .next { s with
    ftValid := false, treeValid := false, ctValid := false, drop := false,
    outLen := 0, symcount := 0, padOut := 0, padOutUnspec := false, totalBits := 0, totalBitsUnspec := false,
    root := 0x1FF,
    err := .noError, done := true, phase := .idle }

/-- R200 to R202: the counters, SYMCOUNT and the flags; BAD_LENGTH otherwise. -/
def Obligations.CountCounts : Prop :=
  decode 0x00000010 = .ok .count ∧
  ∀ s : State,
    (s.inLen.toNat ≤ s.params.ibufBytes →
      ∃ t, exec .count s = .next t ∧
        (∀ b : Byte, t.freq[b.toNat].toNat = s.inputBytes.count b) ∧
        t.symcount.toNat = s.inputBytes.dedup.length ∧
        (t.freq.toList.map BitVec.toNat).sum = s.inLen.toNat ∧
        t = { s with
          freq := t.freq, symcount := t.symcount, ftValid := true, treeValid := false, ctValid := false,
          err := .noError, done := true, phase := .idle }) ∧
    (s.params.ibufBytes < s.inLen.toNat →
      exec .count s = .next { s with err := .badLength, done := true, phase := .idle })

/-- R223, R225, R226, R227 and R44: BUILD's tree. The leaves come first, one for each symbol that occurs, in ascending
order of the symbol. -/
def Obligations.BuildMakesATree : Prop :=
  ∀ s : State, s.ftValid = true →
    ∃ t, exec .build s = .next t ∧
      TreeOk (distinct s.freq) t.nodes t.root ∧
      (distinct s.freq = 0 → t.root = 0x1FF) ∧
      (1 ≤ distinct s.freq → t.root.toNat = 2 * distinct s.freq - 2) ∧
      (∃ syms : List Byte, syms.Pairwise (fun a b => a.toNat < b.toNat) ∧
        (∀ b, b ∈ syms ↔ s.freq[b.toNat].toNat ≠ 0) ∧ syms.length = distinct s.freq ∧
        ∀ (k : Nat) (b : Byte), syms[k]? = some b → t.nodes[k]? = some (leafNode b s.freq[b.toNat])) ∧
      t = { s with
        nodes := t.nodes, root := t.root, treeValid := true, ctValid := false,
        err := .noError, done := true, phase := .idle }

/-- R221 and R224: each internal node joins the two entries of lowest key among those waiting when it is made, the lower
one to the left. -/
def Obligations.BuildJoinsTheTwoLowest : Prop :=
  ∀ s : State, s.ftValid = true →
    ∃ t, exec .build s = .next t ∧
      ∀ k, distinct s.freq ≤ k → k < 2 * distinct s.freq - 1 →
        ∃ a b na nb, t.nodes[a]? = some na ∧ t.nodes[b]? = some nb ∧
          t.nodes[k]? = some (internalNode a b (na.freq + nb.freq)) ∧
          waitingAt t.nodes k a ∧ waitingAt t.nodes k b ∧ keyBefore t.nodes a b ∧
          ∀ c, waitingAt t.nodes k c → c ≠ a → c ≠ b → keyBefore t.nodes b c

/-- R228: no frequency sum wraps, and the root's FREQ is the number of counted bytes. -/
def Obligations.BuildSumsDoNotWrap : Prop :=
  ∀ s : State, s.ftValid = true → (s.freq.toList.map BitVec.toNat).sum ≤ 2 ^ 30 →
    ∃ t, exec .build s = .next t ∧
      (∀ (k : Nat) (nd nl nr : Node), t.nodes[k]? = some nd → nd.used = true → nd.leaf = false →
        t.nodes[nd.left.toNat]? = some nl → t.nodes[nd.right.toNat]? = some nr →
        nd.freq.toNat = nl.freq.toNat + nr.freq.toNat) ∧
      ∀ nd, nodeAt? t.nodes t.root = some nd → nd.freq.toNat = (s.freq.toList.map BitVec.toNat).sum

/-- R229: the tree is a function of the counters, it does not depend on the order in which the input bytes arrived, and
two COMPRESS of one input, written by the host, give the same container. -/
def Obligations.BuildDependsOnCountsAlone : Prop :=
  (∀ s s' u u' : State, s.ftValid = true → s'.ftValid = true → s.freq = s'.freq →
    exec .build s = .next u → exec .build s' = .next u' → u.nodes = u'.nodes ∧ u.root = u'.root) ∧
  (∀ s s' t t' u u' : State, s.inputBytes.Perm s'.inputBytes →
    s.inLen.toNat ≤ s.params.ibufBytes → s'.inLen.toNat ≤ s'.params.ibufBytes →
    exec .count s = .next t → exec .count s' = .next t' → exec .build t = .next u → exec .build t' = .next u' →
    t.freq = t'.freq ∧ u.nodes = u'.nodes ∧ u.root = u'.root) ∧
  ∀ s s' t t' : State, s.params.wf = true → s'.params.wf = true → s.inputWritten → s'.inputWritten →
    s.inputBytes = s'.inputBytes → exec .compress s = .next t → exec .compress s' = .next t' →
    t.err = .noError → t'.err = .noError → t.outputBytes = t'.outputBytes

/-- R250 and R251: GENCODES fills CT with the codes of the tree, and with nothing else; NOT_READY without a tree. -/
def Obligations.GencodesFillsTheTable : Prop :=
  decode 0x00000012 = .ok .gencodes ∧
  ∀ s : State,
    (s.treeValid = false →
      exec .gencodes s = .next { s with err := .notReady, done := true, phase := .idle }) ∧
    ∀ (n : Nat) (codes : List (Byte × List Bool)), s.treeValid = true → TreeCodes n s.nodes s.root codes →
      ∃ t, exec .gencodes s = .next t ∧ TableHolds t.ct codes ∧
        t = { s with ct := t.ct, ctValid := true, err := .noError, done := true, phase := .idle }

/-- R252: the length of every code GENCODES writes, and that CODE has no bit above it. -/
def Obligations.CodeLengths : Prop :=
  ∀ (s : State) (n : Nat), s.treeValid = true → TreeOk n s.nodes s.root →
    ∃ t, exec .gencodes s = .next t ∧
      ∀ b : Byte, (ctOf t.ct b).valid = true →
        1 ≤ (ctOf t.ct b).len.toNat ∧ (ctOf t.ct b).len.toNat ≤ 255 ∧
        (n = 1 → (ctOf t.ct b).len.toNat = 1) ∧ (2 ≤ n → (ctOf t.ct b).len.toNat ≤ n - 1) ∧
        (ctOf t.ct b).code.toNat < 2 ^ (ctOf t.ct b).len.toNat

/-- R253: with two or more leaves the codes are prefix-free and fill Kraft's sum (scaled by 2^255); with one leaf the
single code is "0" and the sum is half; with none there is no code. -/
def Obligations.CodesArePrefixFree : Prop :=
  ∀ (s : State) (n : Nat), s.treeValid = true → TreeOk n s.nodes s.root →
    ∃ t, exec .gencodes s = .next t ∧
      (∀ a b : Byte, (ctOf t.ct a).valid = true → (ctOf t.ct b).valid = true →
        (ctOf t.ct a).bits <+: (ctOf t.ct b).bits → a = b) ∧
      (2 ≤ n →
        ((t.ct.toList.filter CtEntry.valid).map fun e => 2 ^ (255 - e.len.toNat)).sum = 2 ^ 255) ∧
      (n = 1 →
        ((t.ct.toList.filter CtEntry.valid).map fun e => 2 ^ (255 - e.len.toNat)).sum = 2 ^ 254 ∧
        ∀ b : Byte, (ctOf t.ct b).valid = true → (ctOf t.ct b).bits = [false]) ∧
      (n = 0 → ∀ b : Byte, (ctOf t.ct b).valid = false)

/-- R152, R300: TENC writes the count, the descriptor and zeros to the next byte, at most 321 bytes. -/
def Obligations.TencWritesTheStream : Prop :=
  ∀ (s : State) (desc : List Bool), s.params.wf = true → s.treeValid = true →
    TreeDesc s.symcount.toNat s.nodes s.root desc →
    ∃ t, exec .tenc s = .next t ∧
      streamBits t.outputBytes =
        bitsOf 9 s.symcount.toNat ++ desc ++ List.replicate ((8 - (9 + desc.length) % 8) % 8) false ∧
      t.outLen.toNat = ceil8 (9 + desc.length) ∧
      (s.symcount = 0 → t.outLen = 2) ∧
      (s.symcount ≠ 0 → t.outLen.toNat = ceil8 (10 * s.symcount.toNat + 8)) ∧ t.outLen.toNat ≤ 321 ∧
      t = { s with obuf := t.obuf, outLen := t.outLen, err := .noError, done := true, phase := .idle }

/-- R310 and R312: TDEC reads any stream that describes a tree, whatever follows the descriptor. The nodes are numbered in
preorder from 0 and have no frequency. -/
def Obligations.TdecReadsTheStream : Prop :=
  ∀ (s : State) (n : Nat) (desc rest : List Bool) (codes : List (Byte × List Bool)),
    s.inLen.toNat ≤ s.params.ibufBytes → Described n desc codes →
    streamBits s.inputBytes = bitsOf 9 n ++ desc ++ rest →
    ∃ t, exec .tdec s = .next t ∧
      t.symcount.toNat = n ∧ TreeOk n t.nodes t.root ∧ TreeCodes n t.nodes t.root codes ∧
      TreeDesc n t.nodes t.root desc ∧
      (1 ≤ n → t.root = 0 ∧ ∃ shape, IsTree n t.nodes t.root shape ∧ shape.indices = List.range (2 * n - 1)) ∧
      (∀ nd ∈ t.nodes.toList, nd.freq = 0) ∧
      t = { s with
        nodes := t.nodes, root := t.root, symcount := t.symcount,
        ftValid := false, ctValid := false, treeValid := true, err := .noError, done := true, phase := .idle }

/-- R319: TDEC on the bytes that TENC wrote gives the same count and a tree with the same codes. -/
def Obligations.TdecInvertsTenc : Prop :=
  ∀ (s t s' : State) (codes : List (Byte × List Bool)), s.params.wf = true → s.treeValid = true →
    TreeOk s.symcount.toNat s.nodes s.root → TreeCodes s.symcount.toNat s.nodes s.root codes →
    exec .tenc s = .next t → s'.inLen.toNat ≤ s'.params.ibufBytes → s'.inputBytes = t.outputBytes →
    ∃ u, exec .tdec s' = .next u ∧ u.err = .noError ∧ u.treeValid = true ∧ u.symcount = s.symcount ∧
      TreeOk u.symcount.toNat u.nodes u.root ∧ TreeCodes u.symcount.toNat u.nodes u.root codes

/-- R313 to R316 and R318: a count above 256, and a whole descriptor that disagrees with its count or repeats a symbol,
are CORRUPT_STREAM, whatever follows. The last two clauses say that the checks are made as the stream is read (R504): `n`
internal flags in a row, and a repeated symbol under open slots, need no complete descriptor. -/
def Obligations.TdecRejectsInconsistentTrees : Prop :=
  ∀ (s : State) (n : Nat) (rest : List Bool), s.inLen.toNat ≤ s.params.ibufBytes →
    (256 < n → n < 512 → streamBits s.inputBytes = bitsOf 9 n ++ rest →
      ∃ t, exec .tdec s = .next t ∧ t.err = .corruptStream) ∧
    (∀ shape : Shape, 1 ≤ n → n ≤ 256 → streamBits s.inputBytes = bitsOf 9 n ++ shape.desc ++ rest →
      (shape.symbols.length ≠ n ∨ ¬ shape.symbols.Nodup) →
      ∃ t, exec .tdec s = .next t ∧ t.err = .corruptStream) ∧
    (1 ≤ n → n ≤ 256 → streamBits s.inputBytes = bitsOf 9 n ++ List.replicate n false ++ rest →
      ∃ t, exec .tdec s = .next t ∧ t.err = .corruptStream) ∧
    ∀ sym : Byte, 2 ≤ n → n ≤ 256 →
      streamBits s.inputBytes = bitsOf 9 n ++ List.replicate (n - 1) false ++
        (true :: bitsOf 8 sym.toNat) ++ (true :: bitsOf 8 sym.toNat) ++ rest →
      ∃ t, exec .tdec s = .next t ∧ t.err = .corruptStream

/-- R317: a stream that ends anywhere inside the count or the descriptor is INVALID_HEADER, for DECOMPRESS too, and there
also inside the padding field. -/
def Obligations.TruncatedHeaderIsInvalid : Prop :=
  ∀ (s : State) (n : Nat) (desc : List Bool) (codes : List (Byte × List Bool)),
    s.inLen.toNat ≤ s.params.ibufBytes → Described n desc codes →
    (∀ more, more ≠ [] → streamBits s.inputBytes ++ more = bitsOf 9 n ++ desc →
      ∃ t u, exec .tdec s = .next t ∧ t.err = .invalidHeader ∧
        exec .decompress s = .next u ∧ u.err = .invalidHeader) ∧
    ∀ part, part.length < 3 → streamBits s.inputBytes = bitsOf 9 n ++ desc ++ part →
      ∃ u, exec .decompress s = .next u ∧ u.err = .invalidHeader

/-- R270 to R273: PACK writes the codes of the input in order and the padding zeros; NO_CODE before OUT_OVERFLOW. The
input is one the host has written (R609); `LoopsReadAfresh` says what PACK does with any. -/
def Obligations.PackWritesThePayload : Prop :=
  ∀ s : State, s.params.wf = true → s.ctValid = true → s.inLen.toNat ≤ s.params.ibufBytes → s.inputWritten →
    let codeOf := fun b : Byte => bitsOf (ctOf s.ct b).len.toNat (ctOf s.ct b).code.toNat
    let T := (s.inputBytes.map fun b => (ctOf s.ct b).len.toNat).sum
    let pad := (8 - T % 8) % 8
    ((∀ b ∈ s.inputBytes, (ctOf s.ct b).valid = true) → ceil8 T ≤ s.params.obufBytes →
      ∃ t, exec .pack s = .next t ∧
        streamBits t.outputBytes = s.inputBytes.flatMap codeOf ++ List.replicate pad false ∧
        t.outLen.toNat = ceil8 T ∧ t.padOut.toNat = pad ∧ t.totalBits.toNat = T ∧
        t = { s with
          obuf := t.obuf, outLen := t.outLen, padOut := t.padOut, padOutUnspec := false,
          totalBits := t.totalBits, totalBitsUnspec := false, err := .noError, done := true, phase := .idle }) ∧
    ((∀ b ∈ s.inputBytes, (ctOf s.ct b).valid = true) → s.params.obufBytes < ceil8 T →
      ∃ t, exec .pack s = .next t ∧ t.err = .outOverflow) ∧
    (∀ b ∈ s.inputBytes, (ctOf s.ct b).valid = false → ∃ t, exec .pack s = .next t ∧ t.err = .noCode)

/-- R280 to R285, R504: UNPACK answers exactly the bytes whose codes are the meaningful bits, and CORRUPT_STREAM when
there are none such, before OUT_OVERFLOW. -/
def Obligations.UnpackReadsThePayload : Prop :=
  ∀ (s : State) (n : Nat) (codes : List (Byte × List Bool)), s.params.wf = true → s.treeValid = true →
    TreeCodes n s.nodes s.root codes → s.inLen.toNat ≤ s.params.ibufBytes →
    let P := 8 * s.inLen.toNat
    let pad := s.padIn.toNat
    let meaningful := (streamBits s.inputBytes).take (P - pad)
    (∀ out, pad ≤ P → encodeWith codes out = some meaningful → out.length ≤ s.params.obufBytes →
      ∃ t, exec .unpack s = .next t ∧ t.outputBytes = out ∧ t.outLen.toNat = out.length ∧
        t.totalBits.toNat = P - pad ∧
        t = { s with
          obuf := t.obuf, outLen := t.outLen, totalBits := t.totalBits, totalBitsUnspec := false,
          err := .noError, done := true, phase := .idle }) ∧
    (∀ out, pad ≤ P → encodeWith codes out = some meaningful → s.params.obufBytes < out.length →
      ∃ t, exec .unpack s = .next t ∧ t.err = .outOverflow) ∧
    (P < pad ∨ (∀ out, encodeWith codes out ≠ some meaningful) →
      ∃ t, exec .unpack s = .next t ∧ t.err = .corruptStream)

/-- UNPACK with the same tree and PACK's padding count gives back PACK's input, which the host has written (R270,
R281). -/
def Obligations.UnpackInvertsPack : Prop :=
  ∀ (s t s' : State) (n : Nat) (codes : List (Byte × List Bool)), s.params.wf = true → s'.params.wf = true →
    TreeCodes n s.nodes s.root codes → TableHolds s.ct codes → s.inputWritten →
    exec .pack s = .next t → t.err = .noError →
    s'.treeValid = true → s'.nodes = s.nodes → s'.root = s.root → s'.padIn = t.padOut →
    s'.inLen.toNat ≤ s'.params.ibufBytes → s'.inputBytes = t.outputBytes →
    s.inputBytes.length ≤ s'.params.obufBytes →
    ∃ u, exec .unpack s' = .next u ∧ u.err = .noError ∧ u.outputBytes = s.inputBytes ∧ u.totalBits = t.totalBits

/-- R370 and R153: COMPRESS leaves what COUNT, BUILD and GENCODES leave in turn, and the container of that tree and those
codes, or OUT_OVERFLOW when it does not fit (R372). The last clause names a size that is always enough. The input is one
the host has written (R609); `LoopsReadAfresh` says what COMPRESS does with any. -/
def Obligations.CompressWritesTheContainer : Prop :=
  ∀ s : State, s.params.wf = true → s.inLen.toNat ≤ s.params.ibufBytes → s.inputWritten →
    (∃ c b g desc codes bits,
      exec .count s = .next c ∧ exec .build c = .next b ∧ exec .gencodes b = .next g ∧
      TreeDesc g.symcount.toNat g.nodes g.root desc ∧ TreeCodes g.symcount.toNat g.nodes g.root codes ∧
      encodeWith codes s.inputBytes = some bits ∧
      (let T := bits.length
       let pad := (8 - T % 8) % 8
       let H := ceil8 (9 + desc.length + 3)
       (H + ceil8 T ≤ s.params.obufBytes →
        ∃ t, exec .compress s = .next t ∧
          streamBits t.outputBytes =
            bitsOf 9 g.symcount.toNat ++ desc ++ bitsOf 3 pad ++
              List.replicate ((8 - (9 + desc.length + 3) % 8) % 8) false ++ bits ++ List.replicate pad false ∧
          t.outLen.toNat = H + ceil8 T ∧ t.padOut.toNat = pad ∧ t.totalBits.toNat = T ∧
          t = { s with
            freq := c.freq, symcount := c.symcount, nodes := b.nodes, root := b.root, ct := g.ct,
            ftValid := true, treeValid := true, ctValid := true,
            obuf := t.obuf, outLen := t.outLen, padOut := t.padOut, padOutUnspec := false,
            totalBits := t.totalBits, totalBitsUnspec := false, err := .noError, done := true, phase := .idle }) ∧
       (s.params.obufBytes < H + ceil8 T → ∃ t, exec .compress s = .next t ∧ t.err = .outOverflow))) ∧
    (322 + 32 * s.inLen.toNat ≤ s.params.obufBytes → ∃ t, exec .compress s = .next t ∧ t.err = .noError)

/-- R371: the sum COMPRESS computes from the table is the number of code bits, the padding count and the payload are
those a stand-alone PACK of the same input gives, and no byte lacks a code. The host has written the input. -/
def Obligations.CompressPadsAsPackDoes : Prop :=
  ∀ s t : State, s.params.wf = true → s.inputWritten → exec .compress s = .next t → t.err = .noError →
    t.inputBytes = s.inputBytes ∧ (∀ b ∈ t.inputBytes, (ctOf t.ct b).valid = true) ∧
    (t.inputBytes.map fun b => (ctOf t.ct b).len.toNat).sum =
      ((t.freq.toList.zip t.ct.toList).map fun p => p.1.toNat * p.2.len.toNat).sum ∧
    ∃ u, exec .pack t = .next u ∧ u.err = .noError ∧ u.padOut = t.padOut ∧ u.totalBits = t.totalBits ∧
      u.outputBytes <:+ t.outputBytes

/-- The loops of PACK and COMPRESS over the input (R270, R370) each read it again, and a byte that the host never wrote
may differ from loop to loop (R11, U1; log 5); where the host has written the input they agree. PACK checks the first
reading, counts the second and writes the third. COMPRESS builds on the first and writes the second. Bits below OUT_LEN
that were never put are not said; a bit for a byte beyond OBUF is OUT_OVERFLOW (R110). -/
def Obligations.LoopsReadAfresh : Prop :=
  ∀ s : State, s.params.wf = true → s.inLen.toNat ≤ s.params.ibufBytes →
    (s.inputWritten → ∀ k, s.inputPass k = s.inputBytes) ∧
    (s.ctValid = true →
      let T := ((s.inputPass 1).map fun b => (ctOf s.ct b).len.toNat).sum
      let pad := (8 - T % 8) % 8
      let put := ((s.inputPass 2).flatMap fun b => bitsOf (ctOf s.ct b).len.toNat (ctOf s.ct b).code.toNat) ++
        List.replicate pad false
      (∀ b ∈ s.inputPass 0, (ctOf s.ct b).valid = false → ∃ t, exec .pack s = .next t ∧ t.err = .noCode) ∧
      ((∀ b ∈ s.inputPass 0, (ctOf s.ct b).valid = true) →
        (s.params.obufBytes < ceil8 T ∨ s.params.obufBytes < ceil8 put.length →
          ∃ t, exec .pack s = .next t ∧ t.err = .outOverflow) ∧
        (ceil8 T ≤ s.params.obufBytes → ceil8 put.length ≤ s.params.obufBytes →
          ∃ t, exec .pack s = .next t ∧ put.take (8 * ceil8 T) <+: streamBits t.outputBytes ∧
            t.outLen.toNat = ceil8 T ∧ t.padOut.toNat = pad ∧ t.totalBits.toNat = T ∧
            t = { s with
              obuf := t.obuf, outLen := t.outLen, padOut := t.padOut, padOutUnspec := false,
              totalBits := t.totalBits, totalBitsUnspec := false, err := .noError, done := true, phase := .idle }))) ∧
    ∃ c b g desc,
      exec .count s = .next c ∧ exec .build c = .next b ∧ exec .gencodes b = .next g ∧
      TreeDesc g.symcount.toNat g.nodes g.root desc ∧
      let T := ((g.freq.toList.zip g.ct.toList).map fun p => p.1.toNat * p.2.len.toNat).sum
      let pad := (8 - T % 8) % 8
      let H := ceil8 (9 + desc.length + 3)
      let put := bitsOf 9 g.symcount.toNat ++ desc ++ bitsOf 3 pad ++
        List.replicate ((8 - (9 + desc.length + 3) % 8) % 8) false ++
        ((s.inputPass 1).flatMap fun b => bitsOf (ctOf g.ct b).len.toNat (ctOf g.ct b).code.toNat) ++
        List.replicate pad false
      (s.params.obufBytes < H + ceil8 T ∨ s.params.obufBytes < ceil8 put.length →
        ∃ t, exec .compress s = .next t ∧ t.err = .outOverflow) ∧
      (H + ceil8 T ≤ s.params.obufBytes → ceil8 put.length ≤ s.params.obufBytes →
        ∃ t, exec .compress s = .next t ∧ put.take (8 * (H + ceil8 T)) <+: streamBits t.outputBytes ∧
          t.outLen.toNat = H + ceil8 T ∧ t.padOut.toNat = pad ∧ t.totalBits.toNat = T ∧
          t = { s with
            freq := c.freq, symcount := c.symcount, nodes := b.nodes, root := b.root, ct := g.ct,
            ftValid := true, treeValid := true, ctValid := true,
            obuf := t.obuf, outLen := t.outLen, padOut := t.padOut, padOutUnspec := false,
            totalBits := t.totalBits, totalBitsUnspec := false, err := .noError, done := true, phase := .idle })

/-- R380, R381: DECOMPRESS reads any container of a described tree, whatever its alignment and padding bits hold. Its
tree is the parser's: nodes numbered in preorder from 0, with no frequency (R312). -/
def Obligations.DecompressReadsTheContainer : Prop :=
  ∀ (s : State) (n pad : Nat) (desc align payload : List Bool) (codes : List (Byte × List Bool)) (out : List Byte),
    s.params.wf = true → s.inLen.toNat ≤ s.params.ibufBytes → Described n desc codes → pad < 8 →
    align.length = (8 - (9 + desc.length + 3) % 8) % 8 →
    streamBits s.inputBytes = bitsOf 9 n ++ desc ++ bitsOf 3 pad ++ align ++ payload →
    pad ≤ payload.length → encodeWith codes out = some (payload.take (payload.length - pad)) →
    (out.length ≤ s.params.obufBytes →
      ∃ t, exec .decompress s = .next t ∧ t.outputBytes = out ∧ t.outLen.toNat = out.length ∧ t.padOut.toNat = pad ∧
        t.totalBits.toNat = payload.length - pad ∧ t.symcount.toNat = n ∧ TreeOk n t.nodes t.root ∧
        TreeCodes n t.nodes t.root codes ∧ TreeDesc n t.nodes t.root desc ∧
        (1 ≤ n → t.root = 0 ∧ ∃ shape, IsTree n t.nodes t.root shape ∧ shape.indices = List.range (2 * n - 1)) ∧
        (∀ nd ∈ t.nodes.toList, nd.freq = 0) ∧
        t = { s with
          nodes := t.nodes, root := t.root, symcount := t.symcount, padOut := t.padOut, padOutUnspec := false,
          obuf := t.obuf, outLen := t.outLen, totalBits := t.totalBits, totalBitsUnspec := false,
          ftValid := false, ctValid := false, treeValid := true, err := .noError, done := true, phase := .idle }) ∧
    (s.params.obufBytes < out.length → ∃ t, exec .decompress s = .next t ∧ t.err = .outOverflow)

/-- R382: DECOMPRESS of what COMPRESS wrote is COMPRESS' input, which the host has written. -/
def Obligations.DecompressInvertsCompress : Prop :=
  ∀ s t s' : State, s.params.wf = true → s'.params.wf = true → s.inputWritten →
    exec .compress s = .next t → t.err = .noError →
    s'.inLen.toNat ≤ s'.params.ibufBytes → s'.inputBytes = t.outputBytes →
    s.inLen.toNat ≤ s'.params.obufBytes →
    ∃ u, exec .decompress s' = .next u ∧ u.err = .noError ∧ u.outputBytes = s.inputBytes ∧ u.outLen = s.inLen

/-- DECOMPRESS meets the errors of TDEC's parser (R380) and, on the same payload and padding count, the errors of
UNPACK. -/
def Obligations.DecompressErrors : Prop :=
  ∀ s t : State, s.inLen.toNat ≤ s.params.ibufBytes → exec .tdec s = .next t →
    (t.err.isExecution = true → ∃ u, exec .decompress s = .next u ∧ u.err = t.err) ∧
    (t.err = .noError → ∀ (n pad : Nat) (desc align : List Bool) (codes : List (Byte × List Bool)) (p v : State),
      Described n desc codes → pad < 8 → align.length = (8 - (9 + desc.length + 3) % 8) % 8 →
      p.params = s.params → p.treeValid = true → p.nodes = t.nodes → p.root = t.root → p.padIn.toNat = pad →
      p.inLen.toNat ≤ p.params.ibufBytes →
      streamBits s.inputBytes = bitsOf 9 n ++ desc ++ bitsOf 3 pad ++ align ++ streamBits p.inputBytes →
      exec .unpack p = .next v →
      ∃ u, exec .decompress s = .next u ∧ u.err = v.err)

/-! ### Invariants -/

/-- The invariant holds after reset, for every legal instance. -/
def Obligations.ResetMeetsTheInvariant : Prop :=
  State.reset.Inv ∧
  ∀ (p : Params) (f : Vector Word 256) (c : Vector CtEntry 256) (n : Vector Node 511) (w : Word)
    (inputs : List Input) (responses : List Word) (draws : Nat),
    p.wf = true → (State.afterReset p f c n w inputs responses draws).Inv

/-- Every step keeps the invariant: canonical and bounded buffers, OUT_LEN, TOTAL_BITS below 2^38 (R51), the BUSY rule
(R33), what the flags vouch for (R43), the tree invariant (R44) and the code-table invariant (R45). -/
def Obligations.StepKeepsTheInvariant : Prop :=
  ∀ s t : State, s.Inv → step s = .next t → t.Inv

/-- No step faults where the invariant holds, and a step is refused only for a host write that R606 refuses. -/
def Obligations.StepNeverFaults : Prop :=
  ∀ s : State, s.Inv →
    (∃ t, step s = .next t) ∨
    ∃ addr w, s.inReset = false ∧ s.phase = .busy ∧ s.inputs.head? = some (.write addr w) ∧
      hazardAddr s.params addr = true ∧ step s = .refused (.hostWriteWhileBusy addr)
end

