-- ==== Sys2Proof/Laws/Bits.lean ====
section
/-! SUPPORT. The laws of bit strings: `num` and `bits_k` are inverse (R9), the padding arithmetic (R149, R271), and
`packBytes` and `streamBits` are inverse on whole bytes (R106). -/

namespace Sys2Proof.Machine

@[simp] theorem bitsOf_length (k v : Nat) : (bitsOf k v).length = k := by
  induction k with
  | zero => rfl
  | succ k ih => simp [bitsOf, ih]

theorem num_foldl (bits : List Bool) (v : Nat) :
    bits.foldl (fun v b => 2 * v + b.toNat) v = v * 2 ^ bits.length + num bits := by
  unfold num
  induction bits generalizing v with
  | nil => simp
  | cons b bits ih =>
    simp only [List.foldl_cons, List.length_cons]
    rw [ih, ih (2 * 0 + b.toNat)]
    ring

@[simp] theorem num_nil : num [] = 0 := rfl

theorem num_cons (b : Bool) (bits : List Bool) : num (b :: bits) = b.toNat * 2 ^ bits.length + num bits := by
  show List.foldl _ (2 * 0 + b.toNat) bits = _
  rw [num_foldl]
  simp

theorem num_append (xs ys : List Bool) : num (xs ++ ys) = num xs * 2 ^ ys.length + num ys := by
  show List.foldl _ 0 (xs ++ ys) = _
  rw [List.foldl_append, num_foldl]
  rfl

theorem num_lt (bits : List Bool) : num bits < 2 ^ bits.length := by
  induction bits with
  | nil => simp
  | cons b bits ih =>
    rw [num_cons, List.length_cons, Nat.pow_succ]
    cases b <;> simp <;> omega

/-- `num` of the `k`-bit string of `v` is the low `k` bits of `v`. -/
theorem num_bitsOf_mod (k v : Nat) : num (bitsOf k v) = v % 2 ^ k := by
  induction k with
  | zero => simp [bitsOf, Nat.mod_one]
  | succ k ih =>
    rw [bitsOf, num_cons, ih, bitsOf_length, Nat.testBit_eq_decide_div_mod_eq, pow_succ, Nat.mod_mul]
    rcases Nat.mod_two_eq_zero_or_one (v / 2 ^ k) with h | h
    · simp [h]
    · simp [h, Nat.add_comm]

theorem num_bitsOf {k v : Nat} (h : v < 2 ^ k) : num (bitsOf k v) = v := by
  rw [num_bitsOf_mod, Nat.mod_eq_of_lt h]

/-- Only the low bits count in a bit string. -/
theorem bitsOf_mod {k n : Nat} (v : Nat) (h : k ≤ n) : bitsOf k (v % 2 ^ n) = bitsOf k v := by
  induction k with
  | zero => rfl
  | succ k ih => rw [bitsOf, bitsOf, ih (by omega), Nat.testBit_mod_two_pow, decide_eq_true (by omega), Bool.true_and]

/-- A bit string is the string of its number. -/
theorem bitsOf_num (bits : List Bool) : bitsOf bits.length (num bits) = bits := by
  induction bits with
  | nil => rfl
  | cons b bits ih =>
    have hlt := num_lt bits
    have hb : num (b :: bits) / 2 ^ bits.length = b.toNat := by
      rw [num_cons, Nat.add_comm, Nat.add_mul_div_right _ _ (by positivity), Nat.div_eq_of_lt hlt, Nat.zero_add]
    have hm : num (b :: bits) % 2 ^ bits.length = num bits := by
      rw [num_cons, Nat.add_comm, Nat.add_mul_mod_self_right, Nat.mod_eq_of_lt hlt]
    rw [List.length_cons, bitsOf, ← bitsOf_mod (num (b :: bits)) (Nat.le_refl _), hm, ih,
      Nat.testBit_eq_decide_div_mod_eq, hb]
    cases b <;> rfl

/-- `T + pad = 8 * ceil8(T)` (R271). -/
theorem add_padCount (t : Nat) : t + padCount t = 8 * ceil8 t := by
  unfold padCount ceil8; omega

theorem padCount_lt (t : Nat) : padCount t < 8 := by
  unfold padCount; omega

theorem ceil8_eight_mul (n : Nat) : ceil8 (8 * n) = n := by
  unfold ceil8; omega

@[simp] theorem zeros_length (k : Nat) : (zeros k).length = k := by simp [zeros]

theorem align_length (bits : List Bool) : (align bits).length = 8 * ceil8 bits.length := by
  simp [align, add_padCount]

@[simp] theorem streamBits_nil : streamBits [] = [] := rfl

@[simp] theorem streamBits_cons (b : Byte) (bs : List Byte) :
    streamBits (b :: bs) = bitsOf 8 b.toNat ++ streamBits bs := rfl

@[simp] theorem streamBits_append (xs ys : List Byte) : streamBits (xs ++ ys) = streamBits xs ++ streamBits ys := by
  simp [streamBits]

@[simp] theorem streamBits_length (bytes : List Byte) : (streamBits bytes).length = 8 * bytes.length := by
  induction bytes with
  | nil => rfl
  | cons b bs ih => simp [ih]; omega

/-- One byte of `packBytes`: eight bits make the byte whose string they are. -/
theorem packBytes_append_of_length {eight : List Bool} (h : eight.length = 8) (rest : List Bool) :
    packBytes (eight ++ rest) = BitVec.ofNat 8 (num eight) :: packBytes rest := by
  match eight, h with
  | [b7, b6, b5, b4, b3, b2, b1, b0], _ => rfl

/-- Reading back what was packed gives the bits (R106). -/
theorem streamBits_packBytes {n : Nat} (bits : List Bool) (h : bits.length = 8 * n) :
    streamBits (packBytes bits) = bits := by
  induction n generalizing bits with
  | zero => simp_all [packBytes]
  | succ n ih =>
    rw [← List.take_append_drop 8 bits]
    have h8 : (bits.take 8).length = 8 := by simp; omega
    rw [packBytes_append_of_length h8, streamBits_cons, ih _ (by simp; omega), BitVec.toNat_ofNat,
      bitsOf_mod _ (Nat.le_refl 8)]
    conv_rhs => rw [← bitsOf_num (bits.take 8), h8]

theorem packBytes_length {n : Nat} (bits : List Bool) (h : bits.length = 8 * n) : (packBytes bits).length = n := by
  have := streamBits_packBytes bits h
  have hl := streamBits_length (packBytes bits)
  rw [this] at hl
  omega

/-- Packing a byte buffer's bits gives the buffer (R106). -/
theorem packBytes_streamBits (bytes : List Byte) : packBytes (streamBits bytes) = bytes := by
  induction bytes with
  | nil => rfl
  | cons b bs ih =>
    rw [streamBits_cons, packBytes_append_of_length (by simp), ih, num_bitsOf b.isLt]
    simp

theorem packBytes_append {n : Nat} (xs ys : List Bool) (h : xs.length = 8 * n) :
    packBytes (xs ++ ys) = packBytes xs ++ packBytes ys := by
  induction n generalizing xs with
  | zero => simp_all [packBytes]
  | succ n ih =>
    have h8 : (xs.take 8).length = 8 := by simp; omega
    rw [← List.take_append_drop 8 xs, List.append_assoc, packBytes_append_of_length h8,
      packBytes_append_of_length h8, ih _ (by simp; omega), List.cons_append]

@[simp] theorem tabulate_getElem {α : Type} (n : Nat) (f : Nat → α) (i : Nat) (h : i < n) :
    (tabulate n f)[i] = f i := by
  simp [tabulate]

theorem tabulate_getElem? {α : Type} (n : Nat) (f : Nat → α) (i : Nat) :
    (tabulate n f)[i]? = if i < n then some (f i) else none := by
  by_cases h : i < n <;> simp [h]

@[simp] theorem tabulate_toList {α : Type} (n : Nat) (f : Nat → α) :
    (tabulate n f).toList = (List.range n).map f := rfl

end Sys2Proof.Machine
end

