-- ==== Sys2Proof/Laws/Memory.lean ====
section
/-! SUPPORT. The laws of the buffers: what a read finds after a write, and that every operation keeps the canonical
form. -/

namespace Sys2Proof.Machine

@[simp] theorem Memory.read?_nil (i : Nat) : Memory.read? [] i = none := rfl

/-- A byte has the value last written to it, and a write leaves every other byte alone. -/
theorem Memory.read?_write (m : Memory) (i j : Nat) (b : Byte) :
    (m.write i b).read? j = if j = i then some b else m.read? j := by
  induction m with
  | nil => simp only [Memory.write, Memory.read?]; split <;> split <;> simp_all
  | cons c m ih =>
    obtain ⟨a, v⟩ := c
    simp only [Memory.write]
    split
    · simp only [Memory.read?]; grind
    · split
      · simp only [Memory.read?]; grind
      · simp only [Memory.read?, ih]; grind

theorem Memory.write_indices (m : Memory) (i : Nat) (b : Byte) {c : Host.Cell} (h : c ∈ m.write i b) :
    c = (i, b) ∨ c ∈ m := by
  induction m with
  | nil => simp_all [Memory.write]
  | cons d m ih =>
    obtain ⟨a, v⟩ := d
    simp only [Memory.write] at h
    split at h
    · simpa using h
    · split at h
      · rcases List.mem_cons.mp h with h | h
        · exact .inl h
        · exact .inr (List.mem_cons_of_mem _ h)
      · rcases List.mem_cons.mp h with h | h
        · exact .inr (h ▸ List.mem_cons_self)
        · exact (ih h).imp_right (List.mem_cons_of_mem _)

/-- A write keeps the canonical form. -/
theorem Memory.write_wf (m : Memory) (i : Nat) (b : Byte) (h : m.wf) : (m.write i b).wf := by
  induction m with
  | nil => simp [Memory.write, Memory.wf]
  | cons d m ih =>
    obtain ⟨a, v⟩ := d
    simp only [Memory.wf, List.map_cons, List.pairwise_cons, List.mem_map] at h ⊢
    obtain ⟨ha, hm⟩ := h
    simp only [Memory.write]
    split
    · simp only [List.map_cons, List.pairwise_cons, List.mem_cons, List.mem_map]
      refine ⟨?_, ?_, hm⟩
      · rintro x (rfl | ⟨c, hc, rfl⟩)
        · assumption
        · have := ha c.1 ⟨c, hc, rfl⟩; omega
      · rintro x ⟨c, hc, rfl⟩; exact ha _ ⟨c, hc, rfl⟩
    · split
      · subst_vars
        simp only [List.map_cons, List.pairwise_cons, List.mem_map]
        exact ⟨ha, hm⟩
      · simp only [List.map_cons, List.pairwise_cons, List.mem_map]
        refine ⟨?_, ih hm⟩
        rintro x ⟨c, hc, rfl⟩
        rcases Memory.write_indices m i b hc with rfl | hc
        · simp only; omega
        · exact ha _ ⟨c, hc, rfl⟩

theorem Memory.writeWord_wf (m : Memory) (i : Nat) (w : Word) (h : m.wf) : (m.writeWord i w).wf := by
  simp only [Memory.writeWord]
  exact write_wf _ _ _ (write_wf _ _ _ (write_wf _ _ _ (write_wf _ _ _ h)))

/-- A word write gives its four bytes the word's lanes and leaves every other byte alone (R102). -/
theorem Memory.read?_writeWord (m : Memory) (i j : Nat) (w : Word) :
    (m.writeWord i w).read? j = if i ≤ j ∧ j < i + 4 then some (lane w (j - i)) else m.read? j := by
  simp only [Memory.writeWord, Memory.read?_write]
  split_ifs with h3 h2 h1 h0 h <;> subst_vars <;> first | rfl | omega | simp

theorem Memory.ofBytes_indices (i : Nat) (bytes : List Byte) {c : Host.Cell} (h : c ∈ Memory.ofBytes i bytes) :
    i ≤ c.1 ∧ c.1 < i + bytes.length := by
  induction bytes generalizing i with
  | nil => simp [Memory.ofBytes] at h
  | cons b bs ih =>
    simp only [Memory.ofBytes, List.mem_cons] at h
    rcases h with rfl | h
    · simp
    · have := ih (i + 1) h; simp; omega

theorem Memory.ofBytes_wf (i : Nat) (bytes : List Byte) : (Memory.ofBytes i bytes).wf := by
  induction bytes generalizing i with
  | nil => simp [Memory.ofBytes, Memory.wf]
  | cons b bs ih =>
    simp only [Memory.ofBytes, Memory.wf, List.map_cons, List.pairwise_cons, List.mem_map]
    refine ⟨?_, ih (i + 1)⟩
    rintro x ⟨c, hc, rfl⟩
    have := Memory.ofBytes_indices (i + 1) bs hc; omega

/-- The bytes stand where they were put, and no other byte has a value. -/
theorem Memory.read?_ofBytes (i j : Nat) (bytes : List Byte) :
    (Memory.ofBytes i bytes).read? j = if i ≤ j then bytes[j - i]? else none := by
  induction bytes generalizing i with
  | nil => simp [Memory.ofBytes]
  | cons b bs ih =>
    simp only [Memory.ofBytes, Memory.read?, ih]
    by_cases h : i = j
    · simp [h]
    · by_cases h' : i ≤ j
      · have : j - i = (j - (i + 1)) + 1 := by omega
        simp [h, h', this, show i + 1 ≤ j by omega]
      · simp [h, h', show ¬ i + 1 ≤ j by omega]

end Sys2Proof.Machine
end

