-- ==== Sys2Proof/Laws/State.lean ====
section
/-! SUPPORT. What each named update of the state leaves in each field: one lemma per field per update, all by
unfolding, so that no proof need unfold a record update. -/

namespace Sys2Proof.Machine

variable (s : State)

@[simp] theorem accept_params (w : Word) : (State.accept w s).params = s.params := rfl
@[simp] theorem accept_phase (w : Word) : (State.accept w s).phase = .busy := rfl
@[simp] theorem accept_pending (w : Word) : (State.accept w s).pending = w := rfl
@[simp] theorem accept_done (w : Word) : (State.accept w s).done = false := rfl
@[simp] theorem accept_drop (w : Word) : (State.accept w s).drop = s.drop := rfl
@[simp] theorem accept_err (w : Word) : (State.accept w s).err = .noError := rfl
@[simp] theorem accept_ftValid (w : Word) : (State.accept w s).ftValid = s.ftValid := rfl
@[simp] theorem accept_treeValid (w : Word) : (State.accept w s).treeValid = s.treeValid := rfl
@[simp] theorem accept_ctValid (w : Word) : (State.accept w s).ctValid = s.ctValid := rfl
@[simp] theorem accept_inLen (w : Word) : (State.accept w s).inLen = s.inLen := rfl
@[simp] theorem accept_outLen (w : Word) : (State.accept w s).outLen = s.outLen := rfl
@[simp] theorem accept_symcount (w : Word) : (State.accept w s).symcount = s.symcount := rfl
@[simp] theorem accept_padIn (w : Word) : (State.accept w s).padIn = s.padIn := rfl
@[simp] theorem accept_padOut (w : Word) : (State.accept w s).padOut = s.padOut := rfl
@[simp] theorem accept_totalBits (w : Word) : (State.accept w s).totalBits = s.totalBits := rfl
@[simp] theorem accept_root (w : Word) : (State.accept w s).root = s.root := rfl
@[simp] theorem accept_ctSel (w : Word) : (State.accept w s).ctSel = s.ctSel := rfl
@[simp] theorem accept_nodeSel (w : Word) : (State.accept w s).nodeSel = s.nodeSel := rfl
@[simp] theorem accept_freq (w : Word) : (State.accept w s).freq = s.freq := rfl
@[simp] theorem accept_ct (w : Word) : (State.accept w s).ct = s.ct := rfl
@[simp] theorem accept_nodes (w : Word) : (State.accept w s).nodes = s.nodes := rfl
@[simp] theorem accept_ibuf (w : Word) : (State.accept w s).ibuf = s.ibuf := rfl
@[simp] theorem accept_obuf (w : Word) : (State.accept w s).obuf = s.obuf := rfl
@[simp] theorem accept_padOutUnspec (w : Word) : (State.accept w s).padOutUnspec = s.padOutUnspec := rfl
@[simp] theorem accept_totalBitsUnspec (w : Word) : (State.accept w s).totalBitsUnspec = s.totalBitsUnspec := rfl
@[simp] theorem accept_inReset (w : Word) : (State.accept w s).inReset = s.inReset := rfl
@[simp] theorem accept_delay (w : Word) : (State.accept w s).delay = Config.latency s.draws := rfl
@[simp] theorem accept_inputs (w : Word) : (State.accept w s).inputs = s.inputs := rfl
@[simp] theorem accept_responses (w : Word) : (State.accept w s).responses = s.responses := rfl
@[simp] theorem accept_draws (w : Word) : (State.accept w s).draws = s.draws := rfl

@[simp] theorem dropCommand_params : (State.dropCommand s).params = s.params := rfl
@[simp] theorem dropCommand_phase : (State.dropCommand s).phase = s.phase := rfl
@[simp] theorem dropCommand_pending : (State.dropCommand s).pending = s.pending := rfl
@[simp] theorem dropCommand_done : (State.dropCommand s).done = s.done := rfl
@[simp] theorem dropCommand_drop : (State.dropCommand s).drop = true := rfl
@[simp] theorem dropCommand_err : (State.dropCommand s).err = s.err := rfl
@[simp] theorem dropCommand_ftValid : (State.dropCommand s).ftValid = s.ftValid := rfl
@[simp] theorem dropCommand_treeValid : (State.dropCommand s).treeValid = s.treeValid := rfl
@[simp] theorem dropCommand_ctValid : (State.dropCommand s).ctValid = s.ctValid := rfl
@[simp] theorem dropCommand_inLen : (State.dropCommand s).inLen = s.inLen := rfl
@[simp] theorem dropCommand_outLen : (State.dropCommand s).outLen = s.outLen := rfl
@[simp] theorem dropCommand_symcount : (State.dropCommand s).symcount = s.symcount := rfl
@[simp] theorem dropCommand_padIn : (State.dropCommand s).padIn = s.padIn := rfl
@[simp] theorem dropCommand_padOut : (State.dropCommand s).padOut = s.padOut := rfl
@[simp] theorem dropCommand_totalBits : (State.dropCommand s).totalBits = s.totalBits := rfl
@[simp] theorem dropCommand_root : (State.dropCommand s).root = s.root := rfl
@[simp] theorem dropCommand_ctSel : (State.dropCommand s).ctSel = s.ctSel := rfl
@[simp] theorem dropCommand_nodeSel : (State.dropCommand s).nodeSel = s.nodeSel := rfl
@[simp] theorem dropCommand_freq : (State.dropCommand s).freq = s.freq := rfl
@[simp] theorem dropCommand_ct : (State.dropCommand s).ct = s.ct := rfl
@[simp] theorem dropCommand_nodes : (State.dropCommand s).nodes = s.nodes := rfl
@[simp] theorem dropCommand_ibuf : (State.dropCommand s).ibuf = s.ibuf := rfl
@[simp] theorem dropCommand_obuf : (State.dropCommand s).obuf = s.obuf := rfl
@[simp] theorem dropCommand_padOutUnspec : (State.dropCommand s).padOutUnspec = s.padOutUnspec := rfl
@[simp] theorem dropCommand_totalBitsUnspec : (State.dropCommand s).totalBitsUnspec = s.totalBitsUnspec := rfl
@[simp] theorem dropCommand_inReset : (State.dropCommand s).inReset = s.inReset := rfl
@[simp] theorem dropCommand_delay : (State.dropCommand s).delay = s.delay := rfl
@[simp] theorem dropCommand_inputs : (State.dropCommand s).inputs = s.inputs := rfl
@[simp] theorem dropCommand_responses : (State.dropCommand s).responses = s.responses := rfl
@[simp] theorem dropCommand_draws : (State.dropCommand s).draws = s.draws := rfl

@[simp] theorem complete_params (e : ErrCode) : (State.complete e s).params = s.params := rfl
@[simp] theorem complete_phase (e : ErrCode) : (State.complete e s).phase = .idle := rfl
@[simp] theorem complete_pending (e : ErrCode) : (State.complete e s).pending = s.pending := rfl
@[simp] theorem complete_done (e : ErrCode) : (State.complete e s).done = true := rfl
@[simp] theorem complete_drop (e : ErrCode) : (State.complete e s).drop = s.drop := rfl
@[simp] theorem complete_err (e : ErrCode) : (State.complete e s).err = e := rfl
@[simp] theorem complete_ftValid (e : ErrCode) : (State.complete e s).ftValid = s.ftValid := rfl
@[simp] theorem complete_treeValid (e : ErrCode) : (State.complete e s).treeValid = s.treeValid := rfl
@[simp] theorem complete_ctValid (e : ErrCode) : (State.complete e s).ctValid = s.ctValid := rfl
@[simp] theorem complete_inLen (e : ErrCode) : (State.complete e s).inLen = s.inLen := rfl
@[simp] theorem complete_outLen (e : ErrCode) : (State.complete e s).outLen = s.outLen := rfl
@[simp] theorem complete_symcount (e : ErrCode) : (State.complete e s).symcount = s.symcount := rfl
@[simp] theorem complete_padIn (e : ErrCode) : (State.complete e s).padIn = s.padIn := rfl
@[simp] theorem complete_padOut (e : ErrCode) : (State.complete e s).padOut = s.padOut := rfl
@[simp] theorem complete_totalBits (e : ErrCode) : (State.complete e s).totalBits = s.totalBits := rfl
@[simp] theorem complete_root (e : ErrCode) : (State.complete e s).root = s.root := rfl
@[simp] theorem complete_ctSel (e : ErrCode) : (State.complete e s).ctSel = s.ctSel := rfl
@[simp] theorem complete_nodeSel (e : ErrCode) : (State.complete e s).nodeSel = s.nodeSel := rfl
@[simp] theorem complete_freq (e : ErrCode) : (State.complete e s).freq = s.freq := rfl
@[simp] theorem complete_ct (e : ErrCode) : (State.complete e s).ct = s.ct := rfl
@[simp] theorem complete_nodes (e : ErrCode) : (State.complete e s).nodes = s.nodes := rfl
@[simp] theorem complete_ibuf (e : ErrCode) : (State.complete e s).ibuf = s.ibuf := rfl
@[simp] theorem complete_obuf (e : ErrCode) : (State.complete e s).obuf = s.obuf := rfl
@[simp] theorem complete_padOutUnspec (e : ErrCode) : (State.complete e s).padOutUnspec = s.padOutUnspec := rfl
@[simp] theorem complete_totalBitsUnspec (e : ErrCode) : (State.complete e s).totalBitsUnspec = s.totalBitsUnspec := rfl
@[simp] theorem complete_inReset (e : ErrCode) : (State.complete e s).inReset = s.inReset := rfl
@[simp] theorem complete_delay (e : ErrCode) : (State.complete e s).delay = s.delay := rfl
@[simp] theorem complete_inputs (e : ErrCode) : (State.complete e s).inputs = s.inputs := rfl
@[simp] theorem complete_responses (e : ErrCode) : (State.complete e s).responses = s.responses := rfl
@[simp] theorem complete_draws (e : ErrCode) : (State.complete e s).draws = s.draws := rfl

@[simp] theorem abort_params (w : Writes) (e : ErrCode) : (State.abort w e s).params = s.params := rfl
@[simp] theorem abort_phase (w : Writes) (e : ErrCode) : (State.abort w e s).phase = .idle := rfl
@[simp] theorem abort_pending (w : Writes) (e : ErrCode) : (State.abort w e s).pending = s.pending := rfl
@[simp] theorem abort_done (w : Writes) (e : ErrCode) : (State.abort w e s).done = true := rfl
@[simp] theorem abort_drop (w : Writes) (e : ErrCode) : (State.abort w e s).drop = s.drop := rfl
@[simp] theorem abort_err (w : Writes) (e : ErrCode) : (State.abort w e s).err = e := rfl
@[simp] theorem abort_ftValid (w : Writes) (e : ErrCode) : (State.abort w e s).ftValid = (!w.flags && s.ftValid) := rfl
@[simp] theorem abort_treeValid (w : Writes) (e : ErrCode) : (State.abort w e s).treeValid = (!w.flags && s.treeValid) := rfl
@[simp] theorem abort_ctValid (w : Writes) (e : ErrCode) : (State.abort w e s).ctValid = (!w.flags && s.ctValid) := rfl
@[simp] theorem abort_inLen (w : Writes) (e : ErrCode) : (State.abort w e s).inLen = s.inLen := rfl
@[simp] theorem abort_outLen (w : Writes) (e : ErrCode) : (State.abort w e s).outLen = 0 := rfl
@[simp] theorem abort_symcount (w : Writes) (e : ErrCode) : (State.abort w e s).symcount = if w.symcount then Config.symcount s.draws else s.symcount := rfl
@[simp] theorem abort_padIn (w : Writes) (e : ErrCode) : (State.abort w e s).padIn = s.padIn := rfl
@[simp] theorem abort_padOut (w : Writes) (e : ErrCode) : (State.abort w e s).padOut = if w.padOut then Config.padOut s.draws else s.padOut := rfl
@[simp] theorem abort_totalBits (w : Writes) (e : ErrCode) : (State.abort w e s).totalBits = if w.totalBits then Config.totalBits s.draws else s.totalBits := rfl
@[simp] theorem abort_root (w : Writes) (e : ErrCode) : (State.abort w e s).root = if w.root then Config.root s.draws else s.root := rfl
@[simp] theorem abort_ctSel (w : Writes) (e : ErrCode) : (State.abort w e s).ctSel = s.ctSel := rfl
@[simp] theorem abort_nodeSel (w : Writes) (e : ErrCode) : (State.abort w e s).nodeSel = s.nodeSel := rfl
@[simp] theorem abort_freq (w : Writes) (e : ErrCode) : (State.abort w e s).freq = if w.freq then freeFreq s.draws else s.freq := rfl
@[simp] theorem abort_ct (w : Writes) (e : ErrCode) : (State.abort w e s).ct = if w.ct then freeCt s.draws else s.ct := rfl
@[simp] theorem abort_nodes (w : Writes) (e : ErrCode) : (State.abort w e s).nodes = if w.nodes then freeNodes s.draws else s.nodes := rfl
@[simp] theorem abort_ibuf (w : Writes) (e : ErrCode) : (State.abort w e s).ibuf = s.ibuf := rfl
@[simp] theorem abort_obuf (w : Writes) (e : ErrCode) : (State.abort w e s).obuf = [] := rfl
@[simp] theorem abort_padOutUnspec (w : Writes) (e : ErrCode) : (State.abort w e s).padOutUnspec = (w.padOut || s.padOutUnspec) := rfl
@[simp] theorem abort_totalBitsUnspec (w : Writes) (e : ErrCode) : (State.abort w e s).totalBitsUnspec = (w.totalBits || s.totalBitsUnspec) := rfl
@[simp] theorem abort_inReset (w : Writes) (e : ErrCode) : (State.abort w e s).inReset = s.inReset := rfl
@[simp] theorem abort_delay (w : Writes) (e : ErrCode) : (State.abort w e s).delay = s.delay := rfl
@[simp] theorem abort_inputs (w : Writes) (e : ErrCode) : (State.abort w e s).inputs = s.inputs := rfl
@[simp] theorem abort_responses (w : Writes) (e : ErrCode) : (State.abort w e s).responses = s.responses := rfl
@[simp] theorem abort_draws (w : Writes) (e : ErrCode) : (State.abort w e s).draws = s.draws := rfl

@[simp] theorem setOutput_params (bytes : List Byte) : (State.setOutput bytes s).params = s.params := rfl
@[simp] theorem setOutput_phase (bytes : List Byte) : (State.setOutput bytes s).phase = s.phase := rfl
@[simp] theorem setOutput_pending (bytes : List Byte) : (State.setOutput bytes s).pending = s.pending := rfl
@[simp] theorem setOutput_done (bytes : List Byte) : (State.setOutput bytes s).done = s.done := rfl
@[simp] theorem setOutput_drop (bytes : List Byte) : (State.setOutput bytes s).drop = s.drop := rfl
@[simp] theorem setOutput_err (bytes : List Byte) : (State.setOutput bytes s).err = s.err := rfl
@[simp] theorem setOutput_ftValid (bytes : List Byte) : (State.setOutput bytes s).ftValid = s.ftValid := rfl
@[simp] theorem setOutput_treeValid (bytes : List Byte) : (State.setOutput bytes s).treeValid = s.treeValid := rfl
@[simp] theorem setOutput_ctValid (bytes : List Byte) : (State.setOutput bytes s).ctValid = s.ctValid := rfl
@[simp] theorem setOutput_inLen (bytes : List Byte) : (State.setOutput bytes s).inLen = s.inLen := rfl
@[simp] theorem setOutput_outLen (bytes : List Byte) : (State.setOutput bytes s).outLen = BitVec.ofNat 32 bytes.length := rfl
@[simp] theorem setOutput_symcount (bytes : List Byte) : (State.setOutput bytes s).symcount = s.symcount := rfl
@[simp] theorem setOutput_padIn (bytes : List Byte) : (State.setOutput bytes s).padIn = s.padIn := rfl
@[simp] theorem setOutput_padOut (bytes : List Byte) : (State.setOutput bytes s).padOut = s.padOut := rfl
@[simp] theorem setOutput_totalBits (bytes : List Byte) : (State.setOutput bytes s).totalBits = s.totalBits := rfl
@[simp] theorem setOutput_root (bytes : List Byte) : (State.setOutput bytes s).root = s.root := rfl
@[simp] theorem setOutput_ctSel (bytes : List Byte) : (State.setOutput bytes s).ctSel = s.ctSel := rfl
@[simp] theorem setOutput_nodeSel (bytes : List Byte) : (State.setOutput bytes s).nodeSel = s.nodeSel := rfl
@[simp] theorem setOutput_freq (bytes : List Byte) : (State.setOutput bytes s).freq = s.freq := rfl
@[simp] theorem setOutput_ct (bytes : List Byte) : (State.setOutput bytes s).ct = s.ct := rfl
@[simp] theorem setOutput_nodes (bytes : List Byte) : (State.setOutput bytes s).nodes = s.nodes := rfl
@[simp] theorem setOutput_ibuf (bytes : List Byte) : (State.setOutput bytes s).ibuf = s.ibuf := rfl
@[simp] theorem setOutput_obuf (bytes : List Byte) : (State.setOutput bytes s).obuf = Memory.ofBytes 0 bytes := rfl
@[simp] theorem setOutput_padOutUnspec (bytes : List Byte) : (State.setOutput bytes s).padOutUnspec = s.padOutUnspec := rfl
@[simp] theorem setOutput_totalBitsUnspec (bytes : List Byte) : (State.setOutput bytes s).totalBitsUnspec = s.totalBitsUnspec := rfl
@[simp] theorem setOutput_inReset (bytes : List Byte) : (State.setOutput bytes s).inReset = s.inReset := rfl
@[simp] theorem setOutput_delay (bytes : List Byte) : (State.setOutput bytes s).delay = s.delay := rfl
@[simp] theorem setOutput_inputs (bytes : List Byte) : (State.setOutput bytes s).inputs = s.inputs := rfl
@[simp] theorem setOutput_responses (bytes : List Byte) : (State.setOutput bytes s).responses = s.responses := rfl
@[simp] theorem setOutput_draws (bytes : List Byte) : (State.setOutput bytes s).draws = s.draws := rfl

@[simp] theorem setPadOut_params (pad : Nat) : (State.setPadOut pad s).params = s.params := rfl
@[simp] theorem setPadOut_phase (pad : Nat) : (State.setPadOut pad s).phase = s.phase := rfl
@[simp] theorem setPadOut_pending (pad : Nat) : (State.setPadOut pad s).pending = s.pending := rfl
@[simp] theorem setPadOut_done (pad : Nat) : (State.setPadOut pad s).done = s.done := rfl
@[simp] theorem setPadOut_drop (pad : Nat) : (State.setPadOut pad s).drop = s.drop := rfl
@[simp] theorem setPadOut_err (pad : Nat) : (State.setPadOut pad s).err = s.err := rfl
@[simp] theorem setPadOut_ftValid (pad : Nat) : (State.setPadOut pad s).ftValid = s.ftValid := rfl
@[simp] theorem setPadOut_treeValid (pad : Nat) : (State.setPadOut pad s).treeValid = s.treeValid := rfl
@[simp] theorem setPadOut_ctValid (pad : Nat) : (State.setPadOut pad s).ctValid = s.ctValid := rfl
@[simp] theorem setPadOut_inLen (pad : Nat) : (State.setPadOut pad s).inLen = s.inLen := rfl
@[simp] theorem setPadOut_outLen (pad : Nat) : (State.setPadOut pad s).outLen = s.outLen := rfl
@[simp] theorem setPadOut_symcount (pad : Nat) : (State.setPadOut pad s).symcount = s.symcount := rfl
@[simp] theorem setPadOut_padIn (pad : Nat) : (State.setPadOut pad s).padIn = s.padIn := rfl
@[simp] theorem setPadOut_padOut (pad : Nat) : (State.setPadOut pad s).padOut = BitVec.ofNat 3 pad := rfl
@[simp] theorem setPadOut_totalBits (pad : Nat) : (State.setPadOut pad s).totalBits = s.totalBits := rfl
@[simp] theorem setPadOut_root (pad : Nat) : (State.setPadOut pad s).root = s.root := rfl
@[simp] theorem setPadOut_ctSel (pad : Nat) : (State.setPadOut pad s).ctSel = s.ctSel := rfl
@[simp] theorem setPadOut_nodeSel (pad : Nat) : (State.setPadOut pad s).nodeSel = s.nodeSel := rfl
@[simp] theorem setPadOut_freq (pad : Nat) : (State.setPadOut pad s).freq = s.freq := rfl
@[simp] theorem setPadOut_ct (pad : Nat) : (State.setPadOut pad s).ct = s.ct := rfl
@[simp] theorem setPadOut_nodes (pad : Nat) : (State.setPadOut pad s).nodes = s.nodes := rfl
@[simp] theorem setPadOut_ibuf (pad : Nat) : (State.setPadOut pad s).ibuf = s.ibuf := rfl
@[simp] theorem setPadOut_obuf (pad : Nat) : (State.setPadOut pad s).obuf = s.obuf := rfl
@[simp] theorem setPadOut_padOutUnspec (pad : Nat) : (State.setPadOut pad s).padOutUnspec = false := rfl
@[simp] theorem setPadOut_totalBitsUnspec (pad : Nat) : (State.setPadOut pad s).totalBitsUnspec = s.totalBitsUnspec := rfl
@[simp] theorem setPadOut_inReset (pad : Nat) : (State.setPadOut pad s).inReset = s.inReset := rfl
@[simp] theorem setPadOut_delay (pad : Nat) : (State.setPadOut pad s).delay = s.delay := rfl
@[simp] theorem setPadOut_inputs (pad : Nat) : (State.setPadOut pad s).inputs = s.inputs := rfl
@[simp] theorem setPadOut_responses (pad : Nat) : (State.setPadOut pad s).responses = s.responses := rfl
@[simp] theorem setPadOut_draws (pad : Nat) : (State.setPadOut pad s).draws = s.draws := rfl

@[simp] theorem setTotalBits_params (t : Nat) : (State.setTotalBits t s).params = s.params := rfl
@[simp] theorem setTotalBits_phase (t : Nat) : (State.setTotalBits t s).phase = s.phase := rfl
@[simp] theorem setTotalBits_pending (t : Nat) : (State.setTotalBits t s).pending = s.pending := rfl
@[simp] theorem setTotalBits_done (t : Nat) : (State.setTotalBits t s).done = s.done := rfl
@[simp] theorem setTotalBits_drop (t : Nat) : (State.setTotalBits t s).drop = s.drop := rfl
@[simp] theorem setTotalBits_err (t : Nat) : (State.setTotalBits t s).err = s.err := rfl
@[simp] theorem setTotalBits_ftValid (t : Nat) : (State.setTotalBits t s).ftValid = s.ftValid := rfl
@[simp] theorem setTotalBits_treeValid (t : Nat) : (State.setTotalBits t s).treeValid = s.treeValid := rfl
@[simp] theorem setTotalBits_ctValid (t : Nat) : (State.setTotalBits t s).ctValid = s.ctValid := rfl
@[simp] theorem setTotalBits_inLen (t : Nat) : (State.setTotalBits t s).inLen = s.inLen := rfl
@[simp] theorem setTotalBits_outLen (t : Nat) : (State.setTotalBits t s).outLen = s.outLen := rfl
@[simp] theorem setTotalBits_symcount (t : Nat) : (State.setTotalBits t s).symcount = s.symcount := rfl
@[simp] theorem setTotalBits_padIn (t : Nat) : (State.setTotalBits t s).padIn = s.padIn := rfl
@[simp] theorem setTotalBits_padOut (t : Nat) : (State.setTotalBits t s).padOut = s.padOut := rfl
@[simp] theorem setTotalBits_totalBits (t : Nat) : (State.setTotalBits t s).totalBits = BitVec.ofNat 64 t := rfl
@[simp] theorem setTotalBits_root (t : Nat) : (State.setTotalBits t s).root = s.root := rfl
@[simp] theorem setTotalBits_ctSel (t : Nat) : (State.setTotalBits t s).ctSel = s.ctSel := rfl
@[simp] theorem setTotalBits_nodeSel (t : Nat) : (State.setTotalBits t s).nodeSel = s.nodeSel := rfl
@[simp] theorem setTotalBits_freq (t : Nat) : (State.setTotalBits t s).freq = s.freq := rfl
@[simp] theorem setTotalBits_ct (t : Nat) : (State.setTotalBits t s).ct = s.ct := rfl
@[simp] theorem setTotalBits_nodes (t : Nat) : (State.setTotalBits t s).nodes = s.nodes := rfl
@[simp] theorem setTotalBits_ibuf (t : Nat) : (State.setTotalBits t s).ibuf = s.ibuf := rfl
@[simp] theorem setTotalBits_obuf (t : Nat) : (State.setTotalBits t s).obuf = s.obuf := rfl
@[simp] theorem setTotalBits_padOutUnspec (t : Nat) : (State.setTotalBits t s).padOutUnspec = s.padOutUnspec := rfl
@[simp] theorem setTotalBits_totalBitsUnspec (t : Nat) : (State.setTotalBits t s).totalBitsUnspec = false := rfl
@[simp] theorem setTotalBits_inReset (t : Nat) : (State.setTotalBits t s).inReset = s.inReset := rfl
@[simp] theorem setTotalBits_delay (t : Nat) : (State.setTotalBits t s).delay = s.delay := rfl
@[simp] theorem setTotalBits_inputs (t : Nat) : (State.setTotalBits t s).inputs = s.inputs := rfl
@[simp] theorem setTotalBits_responses (t : Nat) : (State.setTotalBits t s).responses = s.responses := rfl
@[simp] theorem setTotalBits_draws (t : Nat) : (State.setTotalBits t s).draws = s.draws := rfl

@[simp] theorem setTree_params (t : ParsedTree) : (State.setTree t s).params = s.params := rfl
@[simp] theorem setTree_phase (t : ParsedTree) : (State.setTree t s).phase = s.phase := rfl
@[simp] theorem setTree_pending (t : ParsedTree) : (State.setTree t s).pending = s.pending := rfl
@[simp] theorem setTree_done (t : ParsedTree) : (State.setTree t s).done = s.done := rfl
@[simp] theorem setTree_drop (t : ParsedTree) : (State.setTree t s).drop = s.drop := rfl
@[simp] theorem setTree_err (t : ParsedTree) : (State.setTree t s).err = s.err := rfl
@[simp] theorem setTree_ftValid (t : ParsedTree) : (State.setTree t s).ftValid = s.ftValid := rfl
@[simp] theorem setTree_treeValid (t : ParsedTree) : (State.setTree t s).treeValid = s.treeValid := rfl
@[simp] theorem setTree_ctValid (t : ParsedTree) : (State.setTree t s).ctValid = s.ctValid := rfl
@[simp] theorem setTree_inLen (t : ParsedTree) : (State.setTree t s).inLen = s.inLen := rfl
@[simp] theorem setTree_outLen (t : ParsedTree) : (State.setTree t s).outLen = s.outLen := rfl
@[simp] theorem setTree_symcount (t : ParsedTree) : (State.setTree t s).symcount = BitVec.ofNat 9 t.count := rfl
@[simp] theorem setTree_padIn (t : ParsedTree) : (State.setTree t s).padIn = s.padIn := rfl
@[simp] theorem setTree_padOut (t : ParsedTree) : (State.setTree t s).padOut = s.padOut := rfl
@[simp] theorem setTree_totalBits (t : ParsedTree) : (State.setTree t s).totalBits = s.totalBits := rfl
@[simp] theorem setTree_root (t : ParsedTree) : (State.setTree t s).root = rootOf t.root := rfl
@[simp] theorem setTree_ctSel (t : ParsedTree) : (State.setTree t s).ctSel = s.ctSel := rfl
@[simp] theorem setTree_nodeSel (t : ParsedTree) : (State.setTree t s).nodeSel = s.nodeSel := rfl
@[simp] theorem setTree_freq (t : ParsedTree) : (State.setTree t s).freq = s.freq := rfl
@[simp] theorem setTree_ct (t : ParsedTree) : (State.setTree t s).ct = s.ct := rfl
@[simp] theorem setTree_nodes (t : ParsedTree) : (State.setTree t s).nodes = arenaOf t.nodes := rfl
@[simp] theorem setTree_ibuf (t : ParsedTree) : (State.setTree t s).ibuf = s.ibuf := rfl
@[simp] theorem setTree_obuf (t : ParsedTree) : (State.setTree t s).obuf = s.obuf := rfl
@[simp] theorem setTree_padOutUnspec (t : ParsedTree) : (State.setTree t s).padOutUnspec = s.padOutUnspec := rfl
@[simp] theorem setTree_totalBitsUnspec (t : ParsedTree) : (State.setTree t s).totalBitsUnspec = s.totalBitsUnspec := rfl
@[simp] theorem setTree_inReset (t : ParsedTree) : (State.setTree t s).inReset = s.inReset := rfl
@[simp] theorem setTree_delay (t : ParsedTree) : (State.setTree t s).delay = s.delay := rfl
@[simp] theorem setTree_inputs (t : ParsedTree) : (State.setTree t s).inputs = s.inputs := rfl
@[simp] theorem setTree_responses (t : ParsedTree) : (State.setTree t s).responses = s.responses := rfl
@[simp] theorem setTree_draws (t : ParsedTree) : (State.setTree t s).draws = s.draws := rfl

@[simp] theorem countInput_params : (countInput s).params = s.params := rfl
@[simp] theorem countInput_phase : (countInput s).phase = s.phase := rfl
@[simp] theorem countInput_pending : (countInput s).pending = s.pending := rfl
@[simp] theorem countInput_done : (countInput s).done = s.done := rfl
@[simp] theorem countInput_drop : (countInput s).drop = s.drop := rfl
@[simp] theorem countInput_err : (countInput s).err = s.err := rfl
@[simp] theorem countInput_ftValid : (countInput s).ftValid = true := rfl
@[simp] theorem countInput_treeValid : (countInput s).treeValid = false := rfl
@[simp] theorem countInput_ctValid : (countInput s).ctValid = false := rfl
@[simp] theorem countInput_inLen : (countInput s).inLen = s.inLen := rfl
@[simp] theorem countInput_outLen : (countInput s).outLen = s.outLen := rfl
@[simp] theorem countInput_symcount : (countInput s).symcount = BitVec.ofNat 9 (distinct (tally s.inputBytes)) := rfl
@[simp] theorem countInput_padIn : (countInput s).padIn = s.padIn := rfl
@[simp] theorem countInput_padOut : (countInput s).padOut = s.padOut := rfl
@[simp] theorem countInput_totalBits : (countInput s).totalBits = s.totalBits := rfl
@[simp] theorem countInput_root : (countInput s).root = s.root := rfl
@[simp] theorem countInput_ctSel : (countInput s).ctSel = s.ctSel := rfl
@[simp] theorem countInput_nodeSel : (countInput s).nodeSel = s.nodeSel := rfl
@[simp] theorem countInput_freq : (countInput s).freq = tally s.inputBytes := rfl
@[simp] theorem countInput_ct : (countInput s).ct = s.ct := rfl
@[simp] theorem countInput_nodes : (countInput s).nodes = s.nodes := rfl
@[simp] theorem countInput_ibuf : (countInput s).ibuf = s.ibuf := rfl
@[simp] theorem countInput_obuf : (countInput s).obuf = s.obuf := rfl
@[simp] theorem countInput_padOutUnspec : (countInput s).padOutUnspec = s.padOutUnspec := rfl
@[simp] theorem countInput_totalBitsUnspec : (countInput s).totalBitsUnspec = s.totalBitsUnspec := rfl
@[simp] theorem countInput_inReset : (countInput s).inReset = s.inReset := rfl
@[simp] theorem countInput_delay : (countInput s).delay = s.delay := rfl
@[simp] theorem countInput_inputs : (countInput s).inputs = s.inputs := rfl
@[simp] theorem countInput_responses : (countInput s).responses = s.responses := rfl
@[simp] theorem countInput_draws : (countInput s).draws = s.draws := rfl

@[simp] theorem buildTree_params : (buildTree s).params = s.params := rfl
@[simp] theorem buildTree_phase : (buildTree s).phase = s.phase := rfl
@[simp] theorem buildTree_pending : (buildTree s).pending = s.pending := rfl
@[simp] theorem buildTree_done : (buildTree s).done = s.done := rfl
@[simp] theorem buildTree_drop : (buildTree s).drop = s.drop := rfl
@[simp] theorem buildTree_err : (buildTree s).err = s.err := rfl
@[simp] theorem buildTree_ftValid : (buildTree s).ftValid = s.ftValid := rfl
@[simp] theorem buildTree_treeValid : (buildTree s).treeValid = true := rfl
@[simp] theorem buildTree_ctValid : (buildTree s).ctValid = false := rfl
@[simp] theorem buildTree_inLen : (buildTree s).inLen = s.inLen := rfl
@[simp] theorem buildTree_outLen : (buildTree s).outLen = s.outLen := rfl
@[simp] theorem buildTree_symcount : (buildTree s).symcount = s.symcount := rfl
@[simp] theorem buildTree_padIn : (buildTree s).padIn = s.padIn := rfl
@[simp] theorem buildTree_padOut : (buildTree s).padOut = s.padOut := rfl
@[simp] theorem buildTree_totalBits : (buildTree s).totalBits = s.totalBits := rfl
@[simp] theorem buildTree_root : (buildTree s).root = rootOf (huffman s.freq).2 := rfl
@[simp] theorem buildTree_ctSel : (buildTree s).ctSel = s.ctSel := rfl
@[simp] theorem buildTree_nodeSel : (buildTree s).nodeSel = s.nodeSel := rfl
@[simp] theorem buildTree_freq : (buildTree s).freq = s.freq := rfl
@[simp] theorem buildTree_ct : (buildTree s).ct = s.ct := rfl
@[simp] theorem buildTree_nodes : (buildTree s).nodes = arenaOf (huffman s.freq).1 := rfl
@[simp] theorem buildTree_ibuf : (buildTree s).ibuf = s.ibuf := rfl
@[simp] theorem buildTree_obuf : (buildTree s).obuf = s.obuf := rfl
@[simp] theorem buildTree_padOutUnspec : (buildTree s).padOutUnspec = s.padOutUnspec := rfl
@[simp] theorem buildTree_totalBitsUnspec : (buildTree s).totalBitsUnspec = s.totalBitsUnspec := rfl
@[simp] theorem buildTree_inReset : (buildTree s).inReset = s.inReset := rfl
@[simp] theorem buildTree_delay : (buildTree s).delay = s.delay := rfl
@[simp] theorem buildTree_inputs : (buildTree s).inputs = s.inputs := rfl
@[simp] theorem buildTree_responses : (buildTree s).responses = s.responses := rfl
@[simp] theorem buildTree_draws : (buildTree s).draws = s.draws := rfl

@[simp] theorem clearDerived_params : (clearDerived s).params = s.params := rfl
@[simp] theorem clearDerived_phase : (clearDerived s).phase = s.phase := rfl
@[simp] theorem clearDerived_pending : (clearDerived s).pending = s.pending := rfl
@[simp] theorem clearDerived_done : (clearDerived s).done = s.done := rfl
@[simp] theorem clearDerived_drop : (clearDerived s).drop = false := rfl
@[simp] theorem clearDerived_err : (clearDerived s).err = s.err := rfl
@[simp] theorem clearDerived_ftValid : (clearDerived s).ftValid = false := rfl
@[simp] theorem clearDerived_treeValid : (clearDerived s).treeValid = false := rfl
@[simp] theorem clearDerived_ctValid : (clearDerived s).ctValid = false := rfl
@[simp] theorem clearDerived_inLen : (clearDerived s).inLen = s.inLen := rfl
@[simp] theorem clearDerived_outLen : (clearDerived s).outLen = 0 := rfl
@[simp] theorem clearDerived_symcount : (clearDerived s).symcount = 0 := rfl
@[simp] theorem clearDerived_padIn : (clearDerived s).padIn = s.padIn := rfl
@[simp] theorem clearDerived_padOut : (clearDerived s).padOut = 0 := rfl
@[simp] theorem clearDerived_totalBits : (clearDerived s).totalBits = 0 := rfl
@[simp] theorem clearDerived_root : (clearDerived s).root = emptyRoot := rfl
@[simp] theorem clearDerived_ctSel : (clearDerived s).ctSel = s.ctSel := rfl
@[simp] theorem clearDerived_nodeSel : (clearDerived s).nodeSel = s.nodeSel := rfl
@[simp] theorem clearDerived_freq : (clearDerived s).freq = s.freq := rfl
@[simp] theorem clearDerived_ct : (clearDerived s).ct = s.ct := rfl
@[simp] theorem clearDerived_nodes : (clearDerived s).nodes = s.nodes := rfl
@[simp] theorem clearDerived_ibuf : (clearDerived s).ibuf = s.ibuf := rfl
@[simp] theorem clearDerived_obuf : (clearDerived s).obuf = s.obuf := rfl
@[simp] theorem clearDerived_padOutUnspec : (clearDerived s).padOutUnspec = false := rfl
@[simp] theorem clearDerived_totalBitsUnspec : (clearDerived s).totalBitsUnspec = false := rfl
@[simp] theorem clearDerived_inReset : (clearDerived s).inReset = s.inReset := rfl
@[simp] theorem clearDerived_delay : (clearDerived s).delay = s.delay := rfl
@[simp] theorem clearDerived_inputs : (clearDerived s).inputs = s.inputs := rfl
@[simp] theorem clearDerived_responses : (clearDerived s).responses = s.responses := rfl
@[simp] theorem clearDerived_draws : (clearDerived s).draws = s.draws := rfl

@[simp] theorem respond_params (w : Word) : (State.respond w s).params = s.params := rfl
@[simp] theorem respond_phase (w : Word) : (State.respond w s).phase = s.phase := rfl
@[simp] theorem respond_pending (w : Word) : (State.respond w s).pending = s.pending := rfl
@[simp] theorem respond_done (w : Word) : (State.respond w s).done = s.done := rfl
@[simp] theorem respond_drop (w : Word) : (State.respond w s).drop = s.drop := rfl
@[simp] theorem respond_err (w : Word) : (State.respond w s).err = s.err := rfl
@[simp] theorem respond_ftValid (w : Word) : (State.respond w s).ftValid = s.ftValid := rfl
@[simp] theorem respond_treeValid (w : Word) : (State.respond w s).treeValid = s.treeValid := rfl
@[simp] theorem respond_ctValid (w : Word) : (State.respond w s).ctValid = s.ctValid := rfl
@[simp] theorem respond_inLen (w : Word) : (State.respond w s).inLen = s.inLen := rfl
@[simp] theorem respond_outLen (w : Word) : (State.respond w s).outLen = s.outLen := rfl
@[simp] theorem respond_symcount (w : Word) : (State.respond w s).symcount = s.symcount := rfl
@[simp] theorem respond_padIn (w : Word) : (State.respond w s).padIn = s.padIn := rfl
@[simp] theorem respond_padOut (w : Word) : (State.respond w s).padOut = s.padOut := rfl
@[simp] theorem respond_totalBits (w : Word) : (State.respond w s).totalBits = s.totalBits := rfl
@[simp] theorem respond_root (w : Word) : (State.respond w s).root = s.root := rfl
@[simp] theorem respond_ctSel (w : Word) : (State.respond w s).ctSel = s.ctSel := rfl
@[simp] theorem respond_nodeSel (w : Word) : (State.respond w s).nodeSel = s.nodeSel := rfl
@[simp] theorem respond_freq (w : Word) : (State.respond w s).freq = s.freq := rfl
@[simp] theorem respond_ct (w : Word) : (State.respond w s).ct = s.ct := rfl
@[simp] theorem respond_nodes (w : Word) : (State.respond w s).nodes = s.nodes := rfl
@[simp] theorem respond_ibuf (w : Word) : (State.respond w s).ibuf = s.ibuf := rfl
@[simp] theorem respond_obuf (w : Word) : (State.respond w s).obuf = s.obuf := rfl
@[simp] theorem respond_padOutUnspec (w : Word) : (State.respond w s).padOutUnspec = s.padOutUnspec := rfl
@[simp] theorem respond_totalBitsUnspec (w : Word) : (State.respond w s).totalBitsUnspec = s.totalBitsUnspec := rfl
@[simp] theorem respond_inReset (w : Word) : (State.respond w s).inReset = s.inReset := rfl
@[simp] theorem respond_delay (w : Word) : (State.respond w s).delay = s.delay := rfl
@[simp] theorem respond_inputs (w : Word) : (State.respond w s).inputs = s.inputs := rfl
@[simp] theorem respond_responses (w : Word) : (State.respond w s).responses = w :: s.responses := rfl
@[simp] theorem respond_draws (w : Word) : (State.respond w s).draws = s.draws := rfl

@[simp] theorem placeCommand_params (w : Word) : (State.placeCommand w s).params = s.params := rfl
@[simp] theorem placeCommand_phase (w : Word) : (State.placeCommand w s).phase = .busy := rfl
@[simp] theorem placeCommand_pending (w : Word) : (State.placeCommand w s).pending = w := rfl
@[simp] theorem placeCommand_done (w : Word) : (State.placeCommand w s).done = false := rfl
@[simp] theorem placeCommand_drop (w : Word) : (State.placeCommand w s).drop = s.drop := rfl
@[simp] theorem placeCommand_err (w : Word) : (State.placeCommand w s).err = .noError := rfl
@[simp] theorem placeCommand_ftValid (w : Word) : (State.placeCommand w s).ftValid = s.ftValid := rfl
@[simp] theorem placeCommand_treeValid (w : Word) : (State.placeCommand w s).treeValid = s.treeValid := rfl
@[simp] theorem placeCommand_ctValid (w : Word) : (State.placeCommand w s).ctValid = s.ctValid := rfl
@[simp] theorem placeCommand_inLen (w : Word) : (State.placeCommand w s).inLen = s.inLen := rfl
@[simp] theorem placeCommand_outLen (w : Word) : (State.placeCommand w s).outLen = s.outLen := rfl
@[simp] theorem placeCommand_symcount (w : Word) : (State.placeCommand w s).symcount = s.symcount := rfl
@[simp] theorem placeCommand_padIn (w : Word) : (State.placeCommand w s).padIn = s.padIn := rfl
@[simp] theorem placeCommand_padOut (w : Word) : (State.placeCommand w s).padOut = s.padOut := rfl
@[simp] theorem placeCommand_totalBits (w : Word) : (State.placeCommand w s).totalBits = s.totalBits := rfl
@[simp] theorem placeCommand_root (w : Word) : (State.placeCommand w s).root = s.root := rfl
@[simp] theorem placeCommand_ctSel (w : Word) : (State.placeCommand w s).ctSel = s.ctSel := rfl
@[simp] theorem placeCommand_nodeSel (w : Word) : (State.placeCommand w s).nodeSel = s.nodeSel := rfl
@[simp] theorem placeCommand_freq (w : Word) : (State.placeCommand w s).freq = s.freq := rfl
@[simp] theorem placeCommand_ct (w : Word) : (State.placeCommand w s).ct = s.ct := rfl
@[simp] theorem placeCommand_nodes (w : Word) : (State.placeCommand w s).nodes = s.nodes := rfl
@[simp] theorem placeCommand_ibuf (w : Word) : (State.placeCommand w s).ibuf = s.ibuf := rfl
@[simp] theorem placeCommand_obuf (w : Word) : (State.placeCommand w s).obuf = s.obuf := rfl
@[simp] theorem placeCommand_padOutUnspec (w : Word) : (State.placeCommand w s).padOutUnspec = s.padOutUnspec := rfl
@[simp] theorem placeCommand_totalBitsUnspec (w : Word) : (State.placeCommand w s).totalBitsUnspec = s.totalBitsUnspec := rfl
@[simp] theorem placeCommand_inReset (w : Word) : (State.placeCommand w s).inReset = false := rfl
@[simp] theorem placeCommand_delay (w : Word) : (State.placeCommand w s).delay = 0 := rfl
@[simp] theorem placeCommand_inputs (w : Word) : (State.placeCommand w s).inputs = s.inputs := rfl
@[simp] theorem placeCommand_responses (w : Word) : (State.placeCommand w s).responses = s.responses := rfl
@[simp] theorem placeCommand_draws (w : Word) : (State.placeCommand w s).draws = s.draws := rfl

end Sys2Proof.Machine
end

