-- ==== Sys2Proof/Laws/Ops.lean ====
section
/-! SUPPORT. What the shared operations of a command can do: the pre-checks (R501), a completion (R34, R503), and the
output of a command (R62). Callers cite these instead of unfolding `completion`. -/

namespace Sys2Proof.Machine

/-- The pre-checks pass exactly when IN_LEN fits IBUF, if the command reads it, and the needed flag is 1 (R501). -/
theorem precheck_eq_none_iff (r : Bool) (need : Option ValidFlag) (s : State) :
    precheck r need s = none ↔
      (r = true → s.inLen.toNat ≤ s.params.ibufBytes) ∧ (∀ f, need = some f → s.flag f = true) := by
  unfold precheck
  cases r <;> cases need <;> simp
  split <;> simp_all

/-- BAD_LENGTH is checked first (R501). -/
theorem precheck_badLength (need : Option ValidFlag) {s : State} (h : s.params.ibufBytes < s.inLen.toNat) :
    precheck true need s = some .badLength := by
  simp [precheck, h]

theorem precheck_notReady {r : Bool} {f : ValidFlag} {s : State}
    (hl : r = true → s.inLen.toNat ≤ s.params.ibufBytes) (hf : s.flag f = false) :
    precheck r (some f) s = some .notReady := by
  unfold precheck
  cases r <;> simp_all

/-- A pre-check error is BAD_LENGTH or NOT_READY (R501). -/
theorem precheck_eq_some {r : Bool} {need : Option ValidFlag} {s : State} {e : ErrCode}
    (h : precheck r need s = some e) :
    (e = .badLength ∧ r = true ∧ s.params.ibufBytes < s.inLen.toNat) ∨
    (e = .notReady ∧ (r = true → s.inLen.toNat ≤ s.params.ibufBytes) ∧ ∃ f, need = some f ∧ s.flag f = false) := by
  unfold precheck at h
  cases r <;> cases need <;> grind

/-- A completion whose pre-checks fail. -/
theorem completion_of_precheck {r : Bool} {need : Option ValidFlag} {w : Writes} {body : State → Except Stop State}
    {s : State} {e : ErrCode} (h : precheck r need s = some e) :
    completion r need w body s = .next (s.complete e) := by
  simp [completion, h]

/-- A completion whose pre-checks pass. -/
theorem completion_of_ready {r : Bool} {need : Option ValidFlag} {w : Writes} {body : State → Except Stop State}
    {s : State} (h : precheck r need s = none) : completion r need w body s = finish w s (body s) := by
  simp [completion, h]

/-- Everything a completion can answer: a pre-check error, success, an execution error, or no result. -/
theorem completion_cases (r : Bool) (need : Option ValidFlag) (w : Writes) (body : State → Except Stop State)
    (s : State) :
    (∃ e, precheck r need s = some e ∧ completion r need w body s = .next (s.complete e)) ∨
    (precheck r need s = none ∧
      ((∃ t, body s = .ok t ∧ completion r need w body s = .next (t.complete .noError)) ∨
       (∃ e, body s = .error (.raised e) ∧ completion r need w body s = .next (s.abort w e)) ∨
       (body s = .error .broken ∧ completion r need w body s = .fault .brokenArena))) := by
  cases hp : precheck r need s with
  | some e => exact .inl ⟨e, rfl, completion_of_precheck hp⟩
  | none =>
    refine .inr ⟨rfl, ?_⟩
    rw [completion_of_ready hp]
    match hb : body s with
    | .ok t => exact .inl ⟨t, rfl, rfl⟩
    | .error (.raised e) => exact .inr (.inl ⟨e, rfl, rfl⟩)
    | .error .broken => exact .inr (.inr ⟨rfl, rfl⟩)

/-- Everything a completion that answers a next state can have done. -/
theorem completion_next {r : Bool} {need : Option ValidFlag} {w : Writes} {body : State → Except Stop State}
    {s t : State} (h : completion r need w body s = .next t) :
    (∃ e, precheck r need s = some e ∧ t = s.complete e) ∨
    (precheck r need s = none ∧
      ((∃ u, body s = .ok u ∧ t = u.complete .noError) ∨ (∃ e, body s = .error (.raised e) ∧ t = s.abort w e))) := by
  rcases completion_cases r need w body s with ⟨e, hp, hc⟩ | ⟨hp, ⟨u, hb, hc⟩ | ⟨e, hb, hc⟩ | ⟨_, hc⟩⟩ <;>
    rw [hc] at h <;> cases h
  · exact .inl ⟨e, hp, rfl⟩
  · exact .inr ⟨hp, .inl ⟨u, hb, rfl⟩⟩
  · exact .inr ⟨hp, .inr ⟨e, hb, rfl⟩⟩

/-- A completion never refuses. -/
theorem completion_ne_refused (r : Bool) (need : Option ValidFlag) (w : Writes) (body : State → Except Stop State)
    (s : State) (x : Refusal) : completion r need w body s ≠ .refused x := by
  rcases completion_cases r need w body s with ⟨e, hp, hc⟩ | ⟨hp, ⟨u, hb, hc⟩ | ⟨e, hb, hc⟩ | ⟨_, hc⟩⟩ <;> simp [hc]

/-- The result a command wrote is what the host reads back (R62, R603). -/
theorem setOutput_outputBytes (bytes : List Byte) (s : State) (h : bytes.length < 2 ^ 32) :
    (s.setOutput bytes).outputBytes = bytes := by
  unfold State.outputBytes State.obufByte
  simp only [setOutput_outLen, setOutput_obuf, setOutput_draws, BitVec.toNat_ofNat, Nat.mod_eq_of_lt h]
  apply List.ext_getElem
  · simp
  · intro i h1 h2
    simp [Memory.read?_ofBytes, h2]

end Sys2Proof.Machine
end

