-- ==== Sys2Proof/Laws/Tree.lean ====
section
/-! SUPPORT. What the commands' walks find on a tree of R44: the codes (R250), the descriptor (R147, R301), and the walk
of a payload (R281). Each says once, in terms of the tree's `Shape`, what a walk of the arena answers. -/

namespace Sys2Proof.Machine

/-- The number of entries on the longest path from the top. -/
def Shape.height : Shape → Nat
  | .leaf _ _ => 1
  | .node _ l r => max l.height r.height + 1

theorem Shape.height_pos (t : Shape) : 1 ≤ t.height := by
  cases t <;> simp [Shape.height]

theorem Shape.height_le (t : Shape) : t.height ≤ t.symbols.length := by
  induction t with
  | leaf => simp [Shape.height, Shape.symbols]
  | node i l r ihl ihr =>
    have := l.height_pos
    have := r.height_pos
    simp only [Shape.height, Shape.symbols, List.length_append]
    omega

/-- A full binary tree with n leaves has n - 1 internal nodes (R44). -/
theorem Shape.indices_length (t : Shape) : t.indices.length + 1 = 2 * t.symbols.length := by
  induction t with
  | leaf => simp [Shape.indices, Shape.symbols]
  | node i l r ihl ihr => simp [Shape.indices, Shape.symbols]; omega

theorem Shape.idx_mem (t : Shape) : t.idx ∈ t.indices := by
  cases t <;> simp [Shape.idx, Shape.indices]

theorem Shape.paths_symbols (t : Shape) : t.paths.map Prod.fst = t.symbols := by
  induction t with
  | leaf => rfl
  | node i l r ihl ihr => simp [Shape.paths, Shape.symbols, ← ihl, ← ihr, Function.comp_def]

theorem Shape.codes_symbols (t : Shape) : t.codes.map Prod.fst = t.symbols := by
  cases t with
  | leaf => rfl
  | node i l r => exact Shape.paths_symbols _

/-- Every path is shorter than the tree is high. -/
theorem Shape.path_length_lt (t : Shape) {b : Byte} {p : List Bool} (h : (b, p) ∈ t.paths) : p.length < t.height := by
  induction t generalizing p with
  | leaf => simp_all [Shape.paths, Shape.height]
  | node i l r ihl ihr =>
    simp only [Shape.paths, List.mem_append, List.mem_map, Prod.mk.injEq, Shape.height] at h ⊢
    rcases h with ⟨c, hc, rfl, rfl⟩ | ⟨c, hc, rfl, rfl⟩
    · have := ihl hc; simp; omega
    · have := ihr hc; simp; omega

/-- The descriptor has 10n - 1 bits (R147). -/
theorem Shape.desc_length (t : Shape) : t.desc.length + 1 = 10 * t.symbols.length := by
  induction t with
  | leaf => simp [Shape.desc, Shape.symbols]
  | node i l r ihl ihr => simp [Shape.desc, Shape.symbols]; omega

theorem Shape.heldIn_idx_lt {nodes : Vector Node 511} {t : Shape} (h : t.heldIn nodes) : t.idx < 511 := by
  cases t with
  | leaf i s =>
    obtain ⟨nd, h, _⟩ := h
    exact (Vector.getElem?_eq_some_iff.mp h).1
  | node i l r =>
    obtain ⟨nd, nl, nr, h, _⟩ := h
    exact (Vector.getElem?_eq_some_iff.mp h).1

theorem nodeAt?_ofNat (nodes : Vector Node 511) {i : Nat} (h : i < 511) :
    nodeAt? nodes (BitVec.ofNat 9 i) = nodes[i]? := by
  rw [nodeAt?, BitVec.toNat_ofNat, Nat.mod_eq_of_lt (by omega)]

theorem ofNat_toNat_idx {root : BitVec 9} {i : Nat} (h : root.toNat = i) : root = BitVec.ofNat 9 i := by
  rw [← h, BitVec.ofNat_toNat, BitVec.setWidth_eq]

/-- The walk of R250 on a tree finds its paths. -/
theorem codesUnder_heldIn {nodes : Vector Node 511} {t : Shape} (h : t.heldIn nodes) {fuel : Nat}
    (hf : t.height ≤ fuel) (path : List Bool) :
    codesUnder nodes fuel (BitVec.ofNat 9 t.idx) path = some (t.paths.map fun c => (c.1, path ++ c.2)) := by
  induction t generalizing fuel path with
  | leaf i s =>
    have hi := Shape.heldIn_idx_lt h
    obtain ⟨nd, hn, he⟩ := h
    obtain ⟨fuel, rfl⟩ : ∃ k, fuel = k + 1 := ⟨fuel - 1, by simp [Shape.height] at hf; omega⟩
    simp only [Shape.idx] at hi ⊢
    rw [codesUnder, nodeAt?_ofNat _ hi, hn, he]
    simp [leafNode, Shape.paths]
  | node i l r ihl ihr =>
    have hi := Shape.heldIn_idx_lt h
    obtain ⟨nd, nl, nr, hn, _, _, he, hl, hr⟩ := h
    obtain ⟨fuel, rfl⟩ : ∃ k, fuel = k + 1 := ⟨fuel - 1, by simp [Shape.height] at hf; omega⟩
    simp only [Shape.height] at hf
    simp only [Shape.idx] at hi ⊢
    rw [codesUnder, nodeAt?_ofNat _ hi, hn, he]
    simp only [internalNode, Bool.false_eq_true, if_false]
    rw [ihl hl (by omega), ihr hr (by omega)]
    simp [Shape.paths, Function.comp_def]

/-- The walk of R301 on a tree writes its descriptor (R147). -/
theorem descUnder_heldIn {nodes : Vector Node 511} {t : Shape} (h : t.heldIn nodes) {fuel : Nat}
    (hf : t.height ≤ fuel) : descUnder nodes fuel (BitVec.ofNat 9 t.idx) = some t.desc := by
  induction t generalizing fuel with
  | leaf i s =>
    have hi := Shape.heldIn_idx_lt h
    obtain ⟨nd, hn, he⟩ := h
    obtain ⟨fuel, rfl⟩ : ∃ k, fuel = k + 1 := ⟨fuel - 1, by simp [Shape.height] at hf; omega⟩
    simp only [Shape.idx] at hi ⊢
    rw [descUnder, nodeAt?_ofNat _ hi, hn, he]
    simp [leafNode, Shape.desc]
  | node i l r ihl ihr =>
    have hi := Shape.heldIn_idx_lt h
    obtain ⟨nd, nl, nr, hn, _, _, he, hl, hr⟩ := h
    obtain ⟨fuel, rfl⟩ : ∃ k, fuel = k + 1 := ⟨fuel - 1, by simp [Shape.height] at hf; omega⟩
    simp only [Shape.height] at hf
    simp only [Shape.idx] at hi ⊢
    rw [descUnder, nodeAt?_ofNat _ hi, hn, he]
    simp only [internalNode, Bool.false_eq_true, if_false]
    rw [ihl hl (by omega), ihr hr (by omega)]
    simp [Shape.desc]

/-- A tree of R44 has at most 256 symbols. -/
theorem IsTree.count_le {n : Nat} {nodes : Vector Node 511} {root : BitVec 9} {t : Shape} (h : IsTree n nodes root t) :
    n ≤ 256 := by
  have hn := h.distinct
  have : (t.symbols.map BitVec.toFin).Nodup := hn.map (fun a b hab => BitVec.eq_of_toFin_eq hab)
  have := this.length_le_card
  simp [h.count] at this
  exact this

theorem IsTree.height_le {n : Nat} {nodes : Vector Node 511} {root : BitVec 9} {t : Shape} (h : IsTree n nodes root t) :
    t.height ≤ walkFuel := by
  have := h.count_le
  have := t.height_le
  rw [h.count] at this
  unfold walkFuel
  omega

theorem IsTree.root_eq {n : Nat} {nodes : Vector Node 511} {root : BitVec 9} {t : Shape} (h : IsTree n nodes root t) :
    root = BitVec.ofNat 9 t.idx := ofNat_toNat_idx h.root

theorem IsTree.root_ne_empty {n : Nat} {nodes : Vector Node 511} {root : BitVec 9} {t : Shape}
    (h : IsTree n nodes root t) : root ≠ emptyRoot := by
  intro he
  have h1 := Shape.heldIn_idx_lt h.held
  have h2 := h.root
  rw [he] at h2
  simp [emptyRoot] at h2
  omega

/-- GENCODES' mapping on a tree of R44 is the tree's codes (R250). -/
theorem codesOf_isTree {n : Nat} {nodes : Vector Node 511} {root : BitVec 9} {t : Shape} (h : IsTree n nodes root t) :
    codesOf nodes root = some t.codes := by
  have hi := Shape.heldIn_idx_lt h.held
  rw [codesOf, if_neg h.root_ne_empty, h.root_eq, nodeAt?_ofNat _ hi]
  have hw := codesUnder_heldIn h.held h.height_le []
  cases t with
  | leaf i s =>
    obtain ⟨nd, hn, he⟩ := h.held
    simp only [Shape.idx]
    rw [hn, he]
    simp [leafNode, Shape.codes]
  | node i l r =>
    obtain ⟨nd, nl, nr, hn, _, _, he, _, _⟩ := h.held
    simp only [Shape.idx] at hw ⊢
    rw [hn, he]
    simp only [internalNode, Bool.false_eq_true, if_false]
    rw [hw]
    simp [Shape.codes]

theorem descOf_isTree {n : Nat} {nodes : Vector Node 511} {root : BitVec 9} {t : Shape} (h : IsTree n nodes root t) :
    descOf nodes root = some t.desc := by
  rw [descOf, if_neg h.root_ne_empty, h.root_eq, descUnder_heldIn h.held h.height_le]

/-- `Codes(ROOT)` is the codes of the tree, for every n (R250). -/
theorem codesOf_treeCodes {n : Nat} {nodes : Vector Node 511} {root : BitVec 9} {codes : List (Byte × List Bool)}
    (h : TreeCodes n nodes root codes) : codesOf nodes root = some codes := by
  rcases h with ⟨_, rfl, rfl⟩ | ⟨_, t, ht, rfl⟩
  · simp [codesOf]
  · exact codesOf_isTree ht

theorem TreeOk.treeCodes {n : Nat} {nodes : Vector Node 511} {root : BitVec 9} (h : TreeOk n nodes root) :
    ∃ codes, TreeCodes n nodes root codes := by
  rcases h with ⟨hn, hr, _⟩ | ⟨hn, t, ht⟩
  · exact ⟨[], .inl ⟨hn, hr, rfl⟩⟩
  · exact ⟨t.codes, .inr ⟨hn, t, ht, rfl⟩⟩

theorem TreeOk.treeDesc {n : Nat} {nodes : Vector Node 511} {root : BitVec 9} (h : TreeOk n nodes root) :
    ∃ desc, TreeDesc n nodes root desc := by
  rcases h with ⟨hn, hr, _⟩ | ⟨hn, t, ht⟩
  · exact ⟨[], .inl ⟨hn, hr, rfl⟩⟩
  · exact ⟨t.desc, .inr ⟨hn, t, ht, rfl⟩⟩

/-- `Desc(ROOT)` is the descriptor of the tree, for every n (R147, R301). -/
theorem descOf_treeDesc {n : Nat} {nodes : Vector Node 511} {root : BitVec 9} {desc : List Bool}
    (h : TreeDesc n nodes root desc) : descOf nodes root = some desc := by
  rcases h with ⟨_, rfl, rfl⟩ | ⟨_, t, ht, rfl⟩
  · simp [descOf]
  · exact descOf_isTree ht

/-- `|Desc| = 10n - 1` for `n ≥ 1` leaves, of which there are at most 256 (R147). -/
theorem TreeDesc.length {n : Nat} {nodes : Vector Node 511} {root : BitVec 9} {desc : List Bool}
    (h : TreeDesc n nodes root desc) :
    n ≤ 256 ∧ (n = 0 → desc.length = 0) ∧ (1 ≤ n → desc.length + 1 = 10 * n) := by
  rcases h with ⟨rfl, _, rfl⟩ | ⟨hn, t, ht, rfl⟩
  · simp
  · have := t.desc_length
    rw [ht.count] at this
    exact ⟨ht.count_le, by omega, fun _ => this⟩

theorem TreeOk.le {n : Nat} {nodes : Vector Node 511} {root : BitVec 9} (h : TreeOk n nodes root) : n ≤ 256 := by
  obtain ⟨_, hd⟩ := h.treeDesc
  exact hd.length.1

theorem TreeCodes.nodup {n : Nat} {nodes : Vector Node 511} {root : BitVec 9} {codes : List (Byte × List Bool)}
    (h : TreeCodes n nodes root codes) : (codes.map Prod.fst).Nodup := by
  rcases h with ⟨_, _, rfl⟩ | ⟨_, t, ht, rfl⟩
  · simp
  · rw [Shape.codes_symbols]; exact ht.distinct

/-- Every code has 1 to 255 bits (R252). -/
theorem TreeCodes.length_bounds {n : Nat} {nodes : Vector Node 511} {root : BitVec 9} {codes : List (Byte × List Bool)}
    (h : TreeCodes n nodes root codes) {b : Byte} {c : List Bool} (hc : (b, c) ∈ codes) :
    1 ≤ c.length ∧ c.length ≤ 255 := by
  rcases h with ⟨_, _, rfl⟩ | ⟨_, t, ht, rfl⟩
  · simp at hc
  · have h1 := ht.count_le
    have h2 := t.height_le
    rw [ht.count] at h2
    cases t with
    | leaf i s => simp_all [Shape.codes]
    | node i l r =>
      have h3 := Shape.path_length_lt (Shape.node i l r) (b := b) (p := c) hc
      refine ⟨?_, by omega⟩
      simp only [Shape.codes, Shape.paths, List.mem_append, List.mem_map, Prod.mk.injEq] at hc
      rcases hc with ⟨_, _, _, rfl⟩ | ⟨_, _, _, rfl⟩ <;> simp

theorem ctOf_eq_getElem (ct : Vector CtEntry 256) (b : Byte) : ctOf ct b = ct[b.toNat]'b.isLt := rfl

/-- With distinct symbols, the mapping's last code for a symbol is its only one. -/
theorem codeFor_of_mem {codes : List (Byte × List Bool)} (hd : (codes.map Prod.fst).Nodup) {b : Byte} {c : List Bool}
    (h : (b, c) ∈ codes) : codeFor codes b.toNat = some c := by
  unfold codeFor
  cases hf : codes.reverse.find? (fun c => c.1.toNat == b.toNat) with
  | none =>
    rw [List.find?_eq_none] at hf
    exact absurd BEq.rfl (hf (b, c) (List.mem_reverse.mpr h))
  | some d =>
    have h1 := List.find?_some hf
    have h2 := List.mem_of_find?_eq_some hf
    simp only [beq_iff_eq] at h1
    rw [List.mem_reverse] at h2
    obtain ⟨b', c'⟩ := d
    have hb : b' = b := BitVec.eq_of_toNat_eq h1
    subst hb
    have : c = c' := by
      have hinj := List.inj_on_of_nodup_map hd h h2 rfl
      simpa using hinj
    simp [this]

theorem codeFor_of_not_mem {codes : List (Byte × List Bool)} {b : Byte} (h : b ∉ codes.map Prod.fst) :
    codeFor codes b.toNat = none := by
  unfold codeFor
  rw [Option.map_eq_none_iff, List.find?_eq_none]
  intro d hd
  simp only [beq_iff_eq]
  intro he
  rw [List.mem_reverse] at hd
  exact h (List.mem_map.mpr ⟨d, hd, BitVec.eq_of_toNat_eq he⟩)

/-- The table GENCODES writes holds the codes (R45, R251), since each fits its entry (R252). -/
theorem tableOf_holds {codes : List (Byte × List Bool)} (hd : (codes.map Prod.fst).Nodup)
    (hl : ∀ b c, (b, c) ∈ codes → c.length ≤ 255) : TableHolds (tableOf codes) codes := by
  intro b
  constructor
  · intro c hc
    have hlen := hl b c hc
    have hnum : num c < 2 ^ 256 := lt_of_lt_of_le (num_lt c) (Nat.pow_le_pow_right (by omega) (by omega))
    rw [ctOf_eq_getElem]
    simp only [tableOf, tabulate_getElem, codeFor_of_mem hd hc, Option.map_some, Option.getD_some, CtEntry.ofCode,
      BitVec.toNat_ofNat, true_and]
    exact ⟨Nat.mod_eq_of_lt (by omega), Nat.mod_eq_of_lt hnum⟩
  · intro hb
    rw [ctOf_eq_getElem]
    simp [tableOf, codeFor_of_not_mem hb]

theorem TreeCodes.tableOf_holds {n : Nat} {nodes : Vector Node 511} {root : BitVec 9}
    {codes : List (Byte × List Bool)} (h : TreeCodes n nodes root codes) : TableHolds (tableOf codes) codes :=
  Sys2Proof.Machine.tableOf_holds h.nodup fun _ _ hc => (h.length_bounds hc).2

/-- An entry of a table that holds the codes gives back its symbol's code (R59). -/
theorem TableHolds.bits {ct : Vector CtEntry 256} {codes : List (Byte × List Bool)} (h : TableHolds ct codes)
    {b : Byte} {c : List Bool} (hc : (b, c) ∈ codes) : (ctOf ct b).bits = c := by
  obtain ⟨_, hl, hn⟩ := (h b).1 c hc
  rw [CtEntry.bits, hl, hn, bitsOf_num]

/-- A symbol's entry is VALID exactly when the symbol has a code (R45). -/
theorem TableHolds.valid_iff {ct : Vector CtEntry 256} {codes : List (Byte × List Bool)} (h : TableHolds ct codes)
    (b : Byte) : (ctOf ct b).valid = true ↔ b ∈ codes.map Prod.fst := by
  constructor
  · intro hv
    by_contra hb
    rw [(h b).2 hb] at hv
    simp [CtEntry.invalid] at hv
  · intro hb
    obtain ⟨⟨b', c⟩, hc, rfl⟩ := List.mem_map.mp hb
    exact ((h b').1 c hc).1

/-- The walk of R281 along one path: it emits the leaf's symbol and restarts from the root. -/
theorem walkBits_path {nodes : Vector Node 511} {root : BitVec 9} {i : Nat} {l r : Shape}
    (h : (Shape.node i l r).heldIn nodes) {b : Byte} {p : List Bool} (hp : (b, p) ∈ (Shape.node i l r).paths)
    (rest : List Bool) :
    walkBits nodes root (p ++ rest) (BitVec.ofNat 9 i) =
      match walkBits nodes root rest root with
      | .ok out => .ok (b :: out)
      | .error e => .error e := by
  induction p generalizing i l r with
  | nil =>
    simp [Shape.paths] at hp
  | cons d p ih =>
    have hi := Shape.heldIn_idx_lt h
    obtain ⟨nd, nl, nr, hn, hnl, hnr, he, hl, hr⟩ := h
    have hli := Shape.heldIn_idx_lt hl
    have hri := Shape.heldIn_idx_lt hr
    simp only [Shape.idx] at hi
    -- the child on the side of `d`
    obtain ⟨u, nu, hu, hun, huc, hup⟩ : ∃ (u : Shape) (nu : Node), u.heldIn nodes ∧ nodes[u.idx]? = some nu ∧
        (if d then nd.right else nd.left) = BitVec.ofNat 9 u.idx ∧ (b, p) ∈ u.paths := by
      simp only [Shape.paths, List.mem_append, List.mem_map, Prod.mk.injEq, List.cons.injEq] at hp
      rcases hp with ⟨c, hc, rfl, hd, rfl⟩ | ⟨c, hc, rfl, hd, rfl⟩
      · exact ⟨l, nl, hl, hnl, by simp [← hd, he, internalNode], hc⟩
      · exact ⟨r, nr, hr, hnr, by simp [← hd, he, internalNode], hc⟩
    have hui := Shape.heldIn_idx_lt hu
    rw [List.cons_append, walkBits, nodeAt?_ofNat _ hi, hn]
    simp only [huc, nodeAt?_ofNat _ hui, hun]
    cases u with
    | leaf j s =>
      obtain ⟨nd', hn', he'⟩ := hu
      simp only [Shape.idx] at hun
      rw [hn'] at hun
      cases hun
      simp only [Shape.paths, List.mem_singleton, Prod.mk.injEq] at hup
      obtain ⟨rfl, rfl⟩ := hup
      rw [he']
      simp only [leafNode, if_true, List.nil_append]
      all_goals cases walkBits nodes root rest root <;> rfl
    | node j ul ur =>
      have hu' := hu
      obtain ⟨nd', _, _, hn', _, _, he', _, _⟩ := hu
      simp only [Shape.idx] at hun ⊢
      rw [hn'] at hun
      cases hun
      rw [if_neg (by simp [he', internalNode])]
      exact ih hu' hup

end Sys2Proof.Machine
end

