-- ==== Sys2Proof/Laws/Build.lean ====
section
/-! SUPPORT. What the tree builder makes (R220 to R228): the queue keeps its entries (R222), every merge keeps a forest
whose trees use each arena entry once, and the arena that is left holds one tree. -/

namespace Sys2Proof.Machine

theorem insertEntry_perm (k : QueueEntry) (pq : List QueueEntry) : (insertEntry k pq).Perm (k :: pq) := by
  induction pq with
  | nil => exact List.Perm.refl _
  | cons x xs ih =>
    unfold insertEntry
    split
    · exact List.Perm.refl _
    · exact (ih.cons x).trans (List.Perm.swap k x xs)

@[simp] theorem insertEntry_length (k : QueueEntry) (pq : List QueueEntry) :
    (insertEntry k pq).length = pq.length + 1 := by
  simpa using (insertEntry_perm k pq).length_eq

/-- `Shape.heldIn` for an arena that is still a list. -/
def Shape.builtIn (arena : List Node) : Shape → Prop
  | .leaf i s => ∃ nd, arena[i]? = some nd ∧ nd = leafNode s nd.freq
  | .node i l r => ∃ nd nl nr, arena[i]? = some nd ∧ arena[l.idx]? = some nl ∧ arena[r.idx]? = some nr ∧
      nd = internalNode l.idx r.idx (nl.freq + nr.freq) ∧ l.builtIn arena ∧ r.builtIn arena

theorem Shape.builtIn_append {arena : List Node} {t : Shape} (h : t.builtIn arena) (more : List Node) :
    t.builtIn (arena ++ more) := by
  have lift : ∀ {i : Nat} {nd : Node}, arena[i]? = some nd → (arena ++ more)[i]? = some nd := by
    intro i nd hi
    rw [List.getElem?_append_left (List.getElem?_eq_some_iff.mp hi).1, hi]
  induction t with
  | leaf i s => obtain ⟨nd, h1, h2⟩ := h; exact ⟨nd, lift h1, h2⟩
  | node i l r ihl ihr =>
    obtain ⟨nd, nl, nr, h1, h2, h3, h4, h5, h6⟩ := h
    exact ⟨nd, nl, nr, lift h1, lift h2, lift h3, h4, ihl h5, ihr h6⟩

theorem arenaOf_getElem? {entries : List Node} {i : Nat} (h : i < 511) :
    (arenaOf entries)[i]? = some (entries.getD i Node.unused) := by
  rw [arenaOf, tabulate_getElem?, if_pos h]

theorem Shape.heldIn_arenaOf {arena : List Node} (hl : arena.length ≤ 511) {t : Shape} (h : t.builtIn arena) :
    t.heldIn (arenaOf arena) := by
  have lift : ∀ {i : Nat} {nd : Node}, arena[i]? = some nd → (arenaOf arena)[i]? = some nd := by
    intro i nd hi
    have := (List.getElem?_eq_some_iff.mp hi).1
    rw [arenaOf_getElem? (by omega), List.getD_eq_getElem?_getD, hi, Option.getD_some]
  induction t with
  | leaf i s => obtain ⟨nd, h1, h2⟩ := h; exact ⟨nd, lift h1, h2⟩
  | node i l r ihl ihr =>
    obtain ⟨nd, nl, nr, h1, h2, h3, h4, h5, h6⟩ := h
    exact ⟨nd, nl, nr, lift h1, lift h2, lift h3, h4, ihl h5, ihr h6⟩

/-- The frequency of an entry of the arena. -/
def freqAt (arena : List Node) (i : Nat) : Word := (arena.getD i Node.unused).freq

/-- The queue entry of a tree's top. -/
def Shape.entry (arena : List Node) (t : Shape) : QueueEntry := ⟨freqAt arena t.idx, t.idx⟩

/-- `ts` are the trees whose tops the queue holds: they are in the arena, use each of its entries once, and their
leaves hold the symbols `syms`. -/
structure Forest (arena : List Node) (pq : List QueueEntry) (syms : List Byte) (ts : List Shape) : Prop where
  queue : pq.Perm (ts.map (Shape.entry arena))
  built : ∀ t ∈ ts, t.builtIn arena
  indices : (ts.flatMap Shape.indices).Perm (List.range arena.length)
  symbols : (ts.flatMap Shape.symbols).Perm syms

theorem Shape.builtIn_idx_lt {arena : List Node} {t : Shape} (h : t.builtIn arena) : t.idx < arena.length := by
  cases t with
  | leaf i s => obtain ⟨nd, h, _⟩ := h; exact (List.getElem?_eq_some_iff.mp h).1
  | node i l r => obtain ⟨nd, nl, nr, h, _⟩ := h; exact (List.getElem?_eq_some_iff.mp h).1

theorem freqAt_append {arena : List Node} {i : Nat} (h : i < arena.length) (more : List Node) :
    freqAt (arena ++ more) i = freqAt arena i := by
  simp [freqAt, List.getD_eq_getElem?_getD, List.getElem?_append_left h]

theorem getElem?_of_lt {arena : List Node} {i : Nat} (h : i < arena.length) :
    arena[i]? = some (arena.getD i Node.unused) := by
  rw [List.getD_eq_getElem?_getD, List.getElem?_eq_getElem h, Option.getD_some]

/-- A merge (R224) keeps the forest. -/
theorem Forest.merge {arena : List Node} {a b : QueueEntry} {pq : List QueueEntry} {syms : List Byte} {ts : List Shape}
    (h : Forest arena (a :: b :: pq) syms ts) :
    ∃ ts', Forest (arena ++ [internalNode a.seq b.seq (a.freq + b.freq)])
      (insertEntry ⟨a.freq + b.freq, arena.length⟩ pq) syms ts' := by
  -- the two trees that are popped
  obtain ⟨ta, tb, us, hperm, rfl, rfl, hus⟩ : ∃ ta tb us, ts.Perm (ta :: tb :: us) ∧ ta.entry arena = a ∧
      tb.entry arena = b ∧ pq.Perm (us.map (Shape.entry arena)) := by
    have ha : a ∈ ts.map (Shape.entry arena) := h.queue.subset (by simp)
    obtain ⟨ta, hta, rfl⟩ := List.mem_map.mp ha
    have h1 := List.perm_cons_erase hta
    have h2 := (h.queue.trans (h1.map _)).cons_inv
    have hb : b ∈ (ts.erase ta).map (Shape.entry arena) := h2.subset (by simp)
    obtain ⟨tb, htb, rfl⟩ := List.mem_map.mp hb
    have h3 := List.perm_cons_erase htb
    exact ⟨ta, tb, _, h1.trans (h3.cons ta), rfl, rfl, (h2.trans (h3.map _)).cons_inv⟩
  have hta : ta.builtIn arena := h.built ta (hperm.symm.subset (by simp))
  have htb : tb.builtIn arena := h.built tb (hperm.symm.subset (by simp))
  have hlt := Shape.builtIn_idx_lt hta
  have hlb := Shape.builtIn_idx_lt htb
  have hub : ∀ t ∈ us, t.builtIn arena := fun t ht => h.built t (hperm.symm.subset (by simp [ht]))
  set new := internalNode ta.idx tb.idx ((ta.entry arena).freq + (tb.entry arena).freq) with hnew
  have hentry : ∀ t ∈ us, t.entry (arena ++ [new]) = t.entry arena := by
    intro t ht
    simp [Shape.entry, freqAt_append (Shape.builtIn_idx_lt (hub t ht))]
  show ∃ ts', Forest (arena ++ [new]) _ syms ts'
  refine ⟨.node arena.length ta tb :: us, ?_, ?_, ?_, ?_⟩
  · refine (insertEntry_perm _ _).trans ?_
    rw [List.map_cons, List.map_congr_left hentry]
    have : Shape.entry (arena ++ [new]) (.node arena.length ta tb) =
        ⟨(ta.entry arena).freq + (tb.entry arena).freq, arena.length⟩ := by
      simp [Shape.entry, Shape.idx, freqAt, List.getD_eq_getElem?_getD, hnew, internalNode]
    rw [this]
    exact hus.cons _
  · intro t ht
    rcases List.mem_cons.mp ht with rfl | ht
    · refine ⟨new, arena.getD ta.idx Node.unused, arena.getD tb.idx Node.unused, by simp, ?_, ?_, ?_,
        Shape.builtIn_append hta _, Shape.builtIn_append htb _⟩
      · rw [List.getElem?_append_left hlt, getElem?_of_lt hlt]
      · rw [List.getElem?_append_left hlb, getElem?_of_lt hlb]
      · simp [hnew, Shape.entry, freqAt]
    · exact Shape.builtIn_append (hub t ht) _
  · have h1 := ((hperm.flatMap_right Shape.indices).symm.trans h.indices)
    simp only [List.flatMap_cons, Shape.indices, List.length_append, List.length_singleton, List.range_succ]
    simp only [List.flatMap_cons] at h1
    rw [List.cons_append, List.append_assoc]
    exact (h1.cons _).trans (List.perm_append_comm (l₁ := [arena.length]))
  · have h1 := ((hperm.flatMap_right Shape.symbols).symm.trans h.symbols)
    simpa [Shape.symbols] using h1

/-- The merge loop keeps the forest, and with the queue's length as fuel it ends with at most one entry (R225). -/
theorem Forest.mergeLoop {fuel : Nat} {arena : List Node} {pq : List QueueEntry} {syms : List Byte} {ts : List Shape}
    (h : Forest arena pq syms ts) (hf : pq.length ≤ fuel) :
    (∃ ts', Forest (mergeLoop fuel arena pq).1 (mergeLoop fuel arena pq).2 syms ts') ∧
      (mergeLoop fuel arena pq).2.length ≤ 1 ∧ (pq ≠ [] → (mergeLoop fuel arena pq).2 ≠ []) := by
  induction fuel generalizing arena pq ts with
  | zero =>
    have : pq = [] := by simpa using hf
    subst this
    exact ⟨⟨ts, h⟩, by simp [Machine.mergeLoop], by simp⟩
  | succ fuel ih =>
    match pq, h, hf with
    | [], h, _ => exact ⟨⟨ts, h⟩, by simp [Machine.mergeLoop], by simp⟩
    | [a], h, _ => exact ⟨⟨ts, h⟩, by simp [Machine.mergeLoop], by simp [Machine.mergeLoop]⟩
    | a :: b :: pq, h, hf =>
      obtain ⟨ts', h'⟩ := h.merge
      obtain ⟨h1, h2, h3⟩ := ih h' (by simp at hf ⊢; omega)
      refine ⟨h1, h2, fun _ => h3 ?_⟩
      intro he
      simpa using congrArg List.length he

/-- The symbols that occur, in ascending order (R223). -/
def occurring (freq : Vector Word 256) : List Byte := (leaves freq).map Node.sym

theorem leaves_length (freq : Vector Word 256) : (leaves freq).length = distinct freq := by
  have h := List.countP_map (p := fun f : Word => f.toNat != 0) (f := Prod.fst) (l := freq.toList.zipIdx)
  rw [List.zipIdx_map_fst] at h
  unfold leaves distinct
  rw [List.length_map, ← List.countP_eq_length_filter, h]
  rfl

/-- The frequency and the symbol of a leaf come from one entry of FREQ (R223). -/
theorem mem_leaves {freq : Vector Word 256} {nd : Node} (h : nd ∈ leaves freq) :
    ∃ b : Byte, nd = leafNode b freq[b.toNat] ∧ freq[b.toNat].toNat ≠ 0 := by
  unfold leaves at h
  obtain ⟨⟨f, i⟩, hp, rfl⟩ := List.mem_map.mp h
  obtain ⟨hz, hf⟩ := List.mem_filter.mp hp
  have hi := List.mem_zipIdx_iff_getElem?.mp hz
  have hlt : i < 256 := by simpa using (List.getElem?_eq_some_iff.mp hi).1
  have hfi : freq[i] = f := by
    have := (List.getElem?_eq_some_iff.mp hi).2
    simpa using this
  refine ⟨BitVec.ofNat 8 i, ?_, ?_⟩ <;> simp [Nat.mod_eq_of_lt hlt, hfi]
  simpa using hf

theorem occurring_pairwise (freq : Vector Word 256) : (occurring freq).Pairwise (fun a b => a.toNat < b.toNat) := by
  unfold occurring leaves
  rw [List.map_map]
  have h1 : (freq.toList.zipIdx.filter fun p => p.1.toNat != 0).Pairwise
      (fun p q => p.2 < q.2 ∧ p.2 < 256 ∧ q.2 < 256) := by
    apply List.Pairwise.filter
    have h2 : freq.toList.zipIdx.Pairwise (fun p q => p.2 < q.2) := by
      have := List.pairwise_lt_range' (s := 0) (n := freq.toList.length)
      rw [← List.zipIdx_map_snd, List.pairwise_map] at this
      exact this
    refine List.Pairwise.imp_of_mem ?_ h2
    intro p q hp hq hlt
    have hp' := List.snd_lt_of_mem_zipIdx hp
    have hq' := List.snd_lt_of_mem_zipIdx hq
    simp at hp' hq'
    exact ⟨hlt, hp', hq'⟩
  rw [List.pairwise_map]
  refine h1.imp ?_
  intro p q ⟨h, hp, hq⟩
  simp [leafNode, Nat.mod_eq_of_lt hp, Nat.mod_eq_of_lt hq, h]

theorem occurring_nodup (freq : Vector Word 256) : (occurring freq).Nodup :=
  (occurring_pairwise freq).imp fun h he => by subst he; omega

/-- Before the first merge the queue holds one single-leaf tree per symbol (R220). -/
theorem forest_leaves (freq : Vector Word 256) :
    ∃ ts, Forest (leaves freq) (leafQueue (leaves freq)) (occurring freq) ts := by
  set ls := leaves freq with hls
  have hq : (leafQueue ls).Perm (ls.zipIdx.map fun p => ⟨p.1.freq, p.2⟩) := by
    have : ∀ (ps : List (Node × Nat)) (acc : List QueueEntry),
        (ps.foldl (fun pq p => insertEntry ⟨p.1.freq, p.2⟩ pq) acc).Perm
          ((ps.map fun p => (⟨p.1.freq, p.2⟩ : QueueEntry)) ++ acc) := by
      intro ps
      induction ps with
      | nil => intro acc; exact List.Perm.refl _
      | cons p ps ih =>
        intro acc
        refine (ih _).trans ?_
        refine ((insertEntry_perm _ _).append_left _).trans ?_
        simp
    simpa [leafQueue] using this ls.zipIdx []
  refine ⟨ls.zipIdx.map fun p => .leaf p.2 p.1.sym, ?_, ?_, ?_, ?_⟩
  · rw [List.map_map]
    refine hq.trans (List.Perm.of_eq (List.map_congr_left ?_))
    intro p hp
    have := List.mem_zipIdx_iff_getElem?.mp hp
    simp [Shape.entry, Shape.idx, freqAt, List.getD_eq_getElem?_getD, this]
  · intro t ht
    obtain ⟨p, hp, rfl⟩ := List.mem_map.mp ht
    have hi := List.mem_zipIdx_iff_getElem?.mp hp
    obtain ⟨b, hb, _⟩ := mem_leaves (List.mem_of_getElem? hi)
    exact ⟨p.1, hi, by rw [hb]; rfl⟩
  · rw [List.flatMap_map]
    have : ls.zipIdx.flatMap (fun p => (Shape.leaf p.2 p.1.sym).indices) = ls.zipIdx.map Prod.snd := by
      rw [List.map_eq_flatMap]; rfl
    rw [this, List.zipIdx_map_snd, ← List.range_eq_range']
  · rw [List.flatMap_map]
    have : ls.zipIdx.flatMap (fun p => (Shape.leaf p.2 p.1.sym).symbols) = (ls.zipIdx.map Prod.fst).map Node.sym := by
      rw [List.map_map, List.map_eq_flatMap]; rfl
    rw [this, List.zipIdx_map_fst]
    exact List.Perm.refl _

@[simp] theorem leafQueue_length (ls : List Node) : (leafQueue ls).length = ls.length := by
  have : ∀ (ps : List (Node × Nat)) (acc : List QueueEntry),
      (ps.foldl (fun pq p => insertEntry ⟨p.1.freq, p.2⟩ pq) acc).length = ps.length + acc.length := by
    intro ps
    induction ps with
    | nil => simp
    | cons p ps ih => intro acc; rw [List.foldl_cons, ih]; simp; omega
  simp [leafQueue, this]

/-- When at least one merge is made, the entry left names the node made last (R225). -/
theorem mergeLoop_last {fuel : Nat} {arena : List Node} {pq : List QueueEntry} (h2 : 2 ≤ pq.length)
    (hf : pq.length ≤ fuel) :
    ∃ f, (mergeLoop fuel arena pq).2 = [⟨f, (mergeLoop fuel arena pq).1.length - 1⟩] := by
  induction fuel generalizing arena pq with
  | zero => omega
  | succ fuel ih =>
    match pq, h2, hf with
    | a :: b :: pq, _, hf =>
      simp only [mergeLoop]
      cases pq with
      | nil =>
        refine ⟨a.freq + b.freq, ?_⟩
        have : ∀ (fuel : Nat) (ar : List Node) (e : QueueEntry), mergeLoop fuel ar [e] = (ar, [e]) := by
          intro fuel ar e; cases fuel <;> rfl
        simp [insertEntry, this]
      | cons c pq =>
        exact ih (by simp) (by simp at hf ⊢; omega)

theorem huffman_arena (freq : Vector Word 256) :
    (huffman freq).1 =
      (mergeLoop (leafQueue (leaves freq)).length (leaves freq) (leafQueue (leaves freq))).1 := rfl

/-- What the tree builder leaves (R225 to R227): nothing for the empty table, else one tree that uses every entry of
the arena once, whose leaves hold the symbols that occur, and whose root is the last entry. -/
theorem huffman_spec (freq : Vector Word 256) :
    (distinct freq = 0 → huffman freq = ([], none)) ∧
    (1 ≤ distinct freq → ∃ t : Shape, t.builtIn (huffman freq).1 ∧ (huffman freq).2 = some t.idx ∧
      t.indices.Perm (List.range (huffman freq).1.length) ∧ (huffman freq).1.length = 2 * distinct freq - 1 ∧
      t.symbols.Perm (occurring freq) ∧ t.idx = 2 * distinct freq - 2) := by
  obtain ⟨ts, hts⟩ := forest_leaves freq
  obtain ⟨⟨us, hus⟩, hle, hne⟩ := hts.mergeLoop (Nat.le_refl _)
  have hlen := leaves_length freq
  constructor
  · intro h0
    have hl : leaves freq = [] := List.length_eq_zero_iff.mp (by omega)
    simp [huffman, hl, leafQueue, mergeLoop]
  · intro h1
    have hq : leafQueue (leaves freq) ≠ [] := by
      intro he
      have := congrArg List.length he
      rw [leafQueue_length, List.length_nil] at this
      omega
    have hone := hne hq
    -- exactly one tree is left
    have hul : us.length = 1 := by
      have h2 := hus.queue.length_eq
      have h3 := List.length_pos_iff.mpr hone
      rw [List.length_map] at h2
      omega
    obtain ⟨t, rfl⟩ := List.length_eq_one_iff.mp hul
    have hqt := List.perm_singleton.mp hus.queue
    have hidx := hus.indices
    have hsym := hus.symbols
    simp only [List.flatMap_cons, List.flatMap_nil, List.append_nil] at hidx hsym
    have hil := hidx.length_eq
    have hsl := hsym.length_eq
    have hti := t.indices_length
    have hol : (occurring freq).length = distinct freq := by simp [occurring, hlen]
    rw [List.length_range] at hil
    have harena : (huffman freq).1.length = 2 * distinct freq - 1 := by
      rw [huffman_arena]
      omega
    refine ⟨t, hus.built t (by simp), ?_, hidx, harena, hsym, ?_⟩
    · show ((mergeLoop _ _ _).2.head?.map QueueEntry.seq) = _
      rw [hqt]
      rfl
    · by_cases h2 : distinct freq = 1
      · have := Shape.idx_mem t
        have := hidx.subset this
        have hr : (mergeLoop (leafQueue (leaves freq)).length (leaves freq) (leafQueue (leaves freq))).1.length =
            2 * distinct freq - 1 := by rw [← huffman_arena, harena]
        rw [List.mem_range, hr] at this
        omega
      · obtain ⟨f, hf⟩ := mergeLoop_last (arena := leaves freq) (pq := leafQueue (leaves freq))
          (by simp; omega) (Nat.le_refl _)
        rw [hf] at hqt
        have hte : t.idx = (mergeLoop (leafQueue (leaves freq)).length (leaves freq)
            (leafQueue (leaves freq))).1.length - 1 := by
          have := congrArg (fun l => l.map QueueEntry.seq) hqt
          simpa [Shape.entry] using this.symm
        have hr : (mergeLoop (leafQueue (leaves freq)).length (leaves freq) (leafQueue (leaves freq))).1.length =
            2 * distinct freq - 1 := by rw [← huffman_arena, harena]
        omega

theorem distinct_le (freq : Vector Word 256) : distinct freq ≤ 256 := by
  have := List.countP_le_length (p := fun f : Word => f.toNat != 0) (l := freq.toList)
  simpa [distinct] using this

/-- BUILD's arena is the tree of `n = distinct` leaves, one for each symbol that occurs (R220, R225, R44). -/
theorem huffman_isTree {freq : Vector Word 256} (h : 1 ≤ distinct freq) :
    ∃ t : Shape, IsTree (distinct freq) (arenaOf (huffman freq).1) (rootOf (huffman freq).2) t ∧
      t.symbols.Perm (occurring freq) ∧ t.idx = 2 * distinct freq - 2 := by
  obtain ⟨t, hb, hr, hi, hl, hs, hidx⟩ := (huffman_spec freq).2 h
  have hle := distinct_le freq
  refine ⟨t, ⟨?_, ?_, ?_, ?_, ?_, ?_⟩, hs, hidx⟩
  · exact Shape.heldIn_arenaOf (by omega) hb
  · rw [hr]
    simp only [rootOf, Option.map_some, Option.getD_some, BitVec.toNat_ofNat]
    exact Nat.mod_eq_of_lt (by omega)
  · rw [← hl]; exact hi
  · rw [hs.length_eq, occurring, List.length_map, leaves_length]
  · exact hs.nodup_iff.mpr (occurring_nodup freq)
  · intro i nd hge hn
    have hlt := (Vector.getElem?_eq_some_iff.mp hn).1
    rw [arenaOf_getElem? hlt, List.getD_eq_getElem?_getD, List.getElem?_eq_none (by omega)] at hn
    simpa using hn.symm

/-- The empty table's arena (R226). -/
theorem huffman_empty {freq : Vector Word 256} (h : distinct freq = 0) :
    rootOf (huffman freq).2 = emptyRoot ∧
      ∀ (i : Nat) (nd : Node), (arenaOf (huffman freq).1)[i]? = some nd → nd = Node.unused := by
  rw [(huffman_spec freq).1 h]
  refine ⟨rfl, ?_⟩
  intro i nd hi
  have hlt := (Vector.getElem?_eq_some_iff.mp hi).1
  rw [arenaOf_getElem? hlt] at hi
  simpa using hi.symm

/-- BUILD leaves a tree of R44. -/
theorem huffman_treeOk (freq : Vector Word 256) :
    TreeOk (distinct freq) (arenaOf (huffman freq).1) (rootOf (huffman freq).2) := by
  by_cases hz : distinct freq = 0
  · exact .inl ⟨hz, huffman_empty hz⟩
  · obtain ⟨t, ht, _⟩ := huffman_isTree (freq := freq) (by omega)
    exact .inr ⟨by omega, t, ht⟩

/-- The tree BUILD leaves has a code for exactly the symbols that occur (R250). -/
theorem huffman_codes_iff {freq : Vector Word 256} {codes : List (Byte × List Bool)}
    (h : TreeCodes (distinct freq) (arenaOf (huffman freq).1) (rootOf (huffman freq).2) codes) (b : Byte) :
    b ∈ codes.map Prod.fst ↔ b ∈ occurring freq := by
  by_cases hz : distinct freq = 0
  · rcases h with ⟨_, _, rfl⟩ | ⟨h1, _⟩
    · have : occurring freq = [] := by
        apply List.eq_nil_of_length_eq_zero
        rw [occurring, List.length_map, leaves_length, hz]
      rw [this]
      rfl
    · omega
  · obtain ⟨t, ht, hs, _⟩ := huffman_isTree (freq := freq) (by omega)
    have hc := codesOf_treeCodes h
    rw [codesOf_isTree ht] at hc
    cases hc
    rw [Shape.codes_symbols]
    exact hs.mem_iff

end Sys2Proof.Machine
end

