-- ==== Sys2Proof/Laws/Bus.lean ====
section
/-! SUPPORT. What one event at the block's boundary can do: a host write (R33, R35, R101 to R105, R606), a host read
(R68, R69), WAIT (R146), an edge of reset (R600). -/

namespace Sys2Proof.Machine

@[simp] theorem busy_eq_true {s : State} : s.busy = true ↔ s.phase = .busy := by
  simp [State.busy]

@[simp] theorem busy_eq_false {s : State} : s.busy = false ↔ s.phase = .idle := by
  unfold State.busy
  cases s.phase <;> decide

/-- The address map (R100), range by range. -/
theorem regionOf_cases (p : Params) (addr : Word) :
    (aligned addr < 0x1000 ∧ regionOf p addr = .register (aligned addr)) ∨
    (0x40000000 ≤ aligned addr ∧ aligned addr < 0x40000000 + p.ibufBytes ∧
      regionOf p addr = .ibuf (aligned addr - 0x40000000)) ∨
    (0x80000000 ≤ aligned addr ∧ aligned addr < 0x80000000 + p.obufBytes ∧ 0x40000000 + p.ibufBytes ≤ aligned addr ∧
      regionOf p addr = .obuf (aligned addr - 0x80000000)) ∨
    (0x1000 ≤ aligned addr ∧ ¬ (0x40000000 ≤ aligned addr ∧ aligned addr < 0x40000000 + p.ibufBytes) ∧
      ¬ (0x80000000 ≤ aligned addr ∧ aligned addr < 0x80000000 + p.obufBytes) ∧ regionOf p addr = .reserved) := by
  unfold regionOf aligned
  simp only
  by_cases h1 : addr.toNat / 4 * 4 < 0x1000
  · exact .inl ⟨h1, if_pos h1⟩
  · by_cases h2 : 0x40000000 ≤ addr.toNat / 4 * 4 ∧ addr.toNat / 4 * 4 < 0x40000000 + p.ibufBytes
    · exact .inr (.inl ⟨h2.1, h2.2, by rw [if_neg h1, if_pos h2]⟩)
    · by_cases h3 : 0x80000000 ≤ addr.toNat / 4 * 4 ∧ addr.toNat / 4 * 4 < 0x80000000 + p.obufBytes
      · exact .inr (.inr (.inl ⟨h3.1, h3.2, by omega, by rw [if_neg h1, if_neg h2, if_pos h3]⟩))
      · exact .inr (.inr (.inr ⟨by omega, h2, h3, by rw [if_neg h1, if_neg h2, if_neg h3]⟩))

/-- The hazard addresses, region by region (R606). -/
theorem hazardAddr_eq (p : Params) (addr : Word) :
    hazardAddr p addr = match regionOf p addr with
      | .register o => o == offIN_LEN || o == offPAD_IN || o == offCT_SEL || o == offNODE_SEL
      | .ibuf _ => true
      | .obuf _ => false
      | .reserved => false := by
  unfold hazardAddr
  rcases regionOf_cases p addr with ⟨h, hr⟩ | ⟨h1, h2, hr⟩ | ⟨h1, _, h3, hr⟩ | ⟨h1, h2, _, hr⟩ <;> rw [hr]
  · simp [offIN_LEN, offPAD_IN, offCT_SEL, offNODE_SEL, show ¬ 0x40000000 ≤ aligned addr by omega]
  · simp [h1, h2]
  · simp [show aligned addr ≠ 12 by omega, show aligned addr ≠ 24 by omega, show aligned addr ≠ 44 by omega,
      show aligned addr ≠ 52 by omega, h3]
  · simp [show aligned addr ≠ 12 by omega, show aligned addr ≠ 24 by omega, show aligned addr ≠ 44 by omega,
      show aligned addr ≠ 52 by omega]
    omega

/-- Everything a write that is a hazard while BUSY can answer (R606). -/
theorem unlessBusy_cases (s : State) (addr : Word) (t : State) :
    (s.phase = .idle ∧ s.unlessBusy addr t = .next t) ∨
    (s.phase = .busy ∧ s.unlessBusy addr t = .refused (.hostWriteWhileBusy addr)) := by
  unfold State.unlessBusy
  cases h : s.phase <;> simp [h]

/-- A host write that answers a next state: CMD, one of the four RW registers, an IBUF word, or nothing (R35,
  R104). -/
theorem hostWrite_next {s t : State} {addr w : Word} (h : s.hostWrite addr w = .next t) :
    (regionOf s.params addr = .register offCMD ∧
      ((s.phase = .busy ∧ t = s.dropCommand) ∨ (s.phase = .idle ∧ t = s.accept w))) ∨
    (s.phase = .idle ∧
      ((regionOf s.params addr = .register offIN_LEN ∧ t = { s with inLen := w }) ∨
       (regionOf s.params addr = .register offPAD_IN ∧ t = { s with padIn := w.extractLsb' 0 3 }) ∨
       (regionOf s.params addr = .register offCT_SEL ∧ t = { s with ctSel := w.extractLsb' 0 8 }) ∨
       (regionOf s.params addr = .register offNODE_SEL ∧ t = { s with nodeSel := w.extractLsb' 0 9 }) ∨
       (∃ i, regionOf s.params addr = .ibuf i ∧ t = { s with ibuf := s.ibuf.writeWord i w }))) ∨
    (hazardAddr s.params addr = false ∧ regionOf s.params addr ≠ .register offCMD ∧ t = s) := by
  unfold State.hostWrite at h
  rw [hazardAddr_eq]
  cases hr : regionOf s.params addr with
  | register o =>
    rw [hr] at h
    simp only [State.writeRegister] at h
    split at h
    · subst_vars
      left
      cases hp : s.phase <;> simp_all
    · split at h
      · subst_vars
        rcases unlessBusy_cases s addr { s with inLen := w } with ⟨hp, he⟩ | ⟨_, he⟩ <;> rw [he] at h <;> cases h
        simp [hp]
      · split at h
        · subst_vars
          rcases unlessBusy_cases s addr { s with padIn := w.extractLsb' 0 3 } with ⟨hp, he⟩ | ⟨_, he⟩ <;>
            rw [he] at h <;> cases h
          simp [hp]
        · split at h
          · subst_vars
            rcases unlessBusy_cases s addr { s with ctSel := w.extractLsb' 0 8 } with ⟨hp, he⟩ | ⟨_, he⟩ <;>
              rw [he] at h <;> cases h
            simp [hp]
          · split at h
            · subst_vars
              rcases unlessBusy_cases s addr { s with nodeSel := w.extractLsb' 0 9 } with ⟨hp, he⟩ | ⟨_, he⟩ <;>
                rw [he] at h <;> cases h
              simp [hp]
            · cases h
              simp_all
  | ibuf i =>
    rw [hr] at h
    rcases unlessBusy_cases s addr { s with ibuf := s.ibuf.writeWord i w } with ⟨hp, he⟩ | ⟨_, he⟩ <;>
      simp only [he] at h <;> cases h
    simp [hp]
  | obuf i =>
    rw [hr] at h
    cases h
    simp
  | reserved =>
    rw [hr] at h
    cases h
    simp

/-- A host write is refused exactly when it is a hazard while BUSY, and never faults (R606). -/
theorem hostWrite_refused {s : State} {addr w : Word} (hb : s.phase = .busy) (hz : hazardAddr s.params addr = true) :
    s.hostWrite addr w = .refused (.hostWriteWhileBusy addr) := by
  rw [hazardAddr_eq] at hz
  unfold State.hostWrite
  cases hr : regionOf s.params addr with
  | register o =>
    rw [hr] at hz
    simp only [Bool.or_eq_true, beq_iff_eq] at hz
    unfold State.writeRegister State.unlessBusy
    rcases hz with ((rfl | rfl) | rfl) | rfl <;> simp [hb, offCMD, offIN_LEN, offPAD_IN, offCT_SEL, offNODE_SEL]
  | ibuf i => simp [State.unlessBusy, hb]
  | obuf i => simp [hr] at hz
  | reserved => simp [hr] at hz

/-- Any other host write answers a next state. -/
theorem hostWrite_ok {s : State} {addr : Word} (w : Word) (h : s.phase = .idle ∨ hazardAddr s.params addr = false) :
    ∃ t, s.hostWrite addr w = .next t := by
  unfold State.hostWrite
  rw [hazardAddr_eq] at h
  cases hr : regionOf s.params addr with
  | register o =>
    rw [hr] at h
    unfold State.writeRegister State.unlessBusy
    simp only [Bool.or_eq_false_iff, beq_eq_false_iff_ne, ne_eq] at h
    rcases h with h | ⟨⟨⟨h1, h2⟩, h3⟩, h4⟩
    · repeat' split
      all_goals simp_all
    · simp [h1, h2, h3, h4]
      split <;> simp
  | ibuf i =>
    rw [hr] at h
    have : s.phase = .idle := by simpa using h
    exact ⟨_, by simp [State.unlessBusy, this]; rfl⟩
  | obuf i => exact ⟨_, rfl⟩
  | reserved => exact ⟨_, rfl⟩

/-- Bit 0 of the STATUS a host reads is BUSY (R38, R39). -/
@[simp] theorem status_busy (s : State) : s.status.getLsbD 0 = s.busy := by
  unfold State.status State.statusWith
  rw [BitVec.getLsbD_append, if_pos (by decide)]
  cases s.busy <;> rfl

/-- WAIT ends with the STATUS it read, or reads again, and changes nothing else (R105, R146). -/
theorem polled_cases (w : Word) (s : State) :
    (w.getLsbD 0 = true ∧ s.polled w = { s with inputs := .wait :: s.inputs }) ∨
    (w.getLsbD 0 = false ∧ s.polled w = s.respond w) := by
  unfold State.polled
  cases w.getLsbD 0 <;> simp

theorem polled_status_idle {s : State} (h : s.phase = .idle) : s.polled s.status = s.respond s.status := by
  rw [State.polled, status_busy, busy_eq_false.mpr h]
  rfl

theorem polled_status_busy {s : State} (h : s.phase = .busy) :
    s.polled s.status = { s with inputs := .wait :: s.inputs } := by
  rw [State.polled, status_busy, busy_eq_true.mpr h]
  rfl

/-- The register window (R100). -/
theorem reg_of {p : Params} {addr : Word} {a : Nat} (h : aligned addr = a) (ha : a < 0x1000) :
    regionOf p addr = .register a := by
  rcases regionOf_cases p addr with ⟨h1, hr⟩ | ⟨h1, h2, hr⟩ | ⟨h1, _, h3, hr⟩ | ⟨h1, h2, _, hr⟩
  · rw [hr, h]
  all_goals omega

/-- The word CMD is at (R35). -/
theorem cmd_region {p : Params} {addr : Word} (h : regionOf p addr = .register offCMD) : aligned addr = 4 := by
  rcases regionOf_cases p addr with ⟨h1, hr⟩ | ⟨h1, h2, hr⟩ | ⟨h1, _, h3, hr⟩ | ⟨h1, h2, _, hr⟩ <;> rw [hr] at h
  · exact Region.register.inj h
  all_goals cases h

/-- A host read of a register (R101). -/
theorem read_reg {s : State} {addr : Word} {a : Nat} (h : aligned addr = a) (ha : a < 0x1000) :
    s.hostRead addr = s.readRegister a := by
  unfold State.hostRead
  rw [reg_of h ha]

/-- The low part of a concatenation. -/
theorem app_lo {n m : Nat} (a : BitVec n) (b : BitVec m) : (a ++ b).extractLsb' 0 m = b := by
  ext i hi; simp [BitVec.getLsbD_append, hi]

/-- A field of the high part of a concatenation. -/
theorem app_hi {n m s l : Nat} (a : BitVec n) (b : BitVec m) (h : m ≤ s) : (a ++ b).extractLsb' s l = a.extractLsb'
    (s - m) l := by
  ext i hi; simp [BitVec.getLsbD_append, show ¬ s + i < m by omega, show s + i - m = s - m + i by omega]

/-- A bit of the high part of a concatenation. -/
theorem app_get_hi {n m i : Nat} (a : BitVec n) (b : BitVec m) (h : m ≤ i) : (a ++ b).getLsbD i = a.getLsbD (i - m) :=
    by
  simp [BitVec.getLsbD_append, show ¬ i < m by omega]

/-- CT_LEN's fields (R53). -/
theorem lenWord_bits (e : CtEntry) : e.lenWord.extractLsb' 0 8 = e.len ∧ e.lenWord.getLsbD 8 = e.valid ∧
    e.lenWord.extractLsb' 9 23 = 0 := by
  unfold CtEntry.lenWord
  refine ⟨app_lo _ _, ?_, ?_⟩
  · refine (app_get_hi _ _ (by decide)).trans ?_
    cases e.valid <;> rfl
  · refine (app_hi _ _ (by decide)).trans ?_; refine (app_hi _ _ (by decide)).trans ?_; rfl

/-- NODE_INFO's fields (R54). -/
theorem infoWord_bits (e : Node) : e.infoWord.extractLsb' 0 8 = e.sym ∧ e.infoWord.extractLsb' 8 9 = e.left ∧
    e.infoWord.extractLsb' 17 9 = e.right ∧ e.infoWord.extractLsb' 26 4 = 0 ∧ e.infoWord.getLsbD 30 = e.leaf ∧
    e.infoWord.getLsbD 31 = e.used := by
  unfold Node.infoWord
  refine ⟨app_lo _ _, ?_, ?_, ?_, ?_, ?_⟩
  · refine (app_hi _ _ (by decide)).trans ?_; exact app_lo _ _
  · refine (app_hi _ _ (by decide)).trans ?_; refine (app_hi _ _ (by decide)).trans ?_; exact app_lo _ _
  · refine (app_hi _ _ (by decide)).trans ?_; refine (app_hi _ _ (by decide)).trans ?_; refine (app_hi _ _
      (by decide)).trans ?_; exact app_lo _ _
  · refine (app_get_hi _ _ (by decide)).trans ?_; refine (app_get_hi _ _ (by decide)).trans ?_; refine (app_get_hi _ _
      (by decide)).trans ?_; refine (app_get_hi _ _ (by decide)).trans ?_
    cases e.used <;> cases e.leaf <;> rfl
  · refine (app_get_hi _ _ (by decide)).trans ?_; refine (app_get_hi _ _ (by decide)).trans ?_; refine (app_get_hi _ _
      (by decide)).trans ?_; refine (app_get_hi _ _ (by decide)).trans ?_
    cases e.used <;> cases e.leaf <;> rfl

/-- STATUS' fields (R38). -/
theorem status_bits (f : BitVec 3) (e : ErrCode) (dr dn bu : Bool) :
   let w : Word := 0#21 ++ f ++ e.code ++ 0#1 ++ BitVec.ofBool dr ++ BitVec.ofBool dn ++ BitVec.ofBool bu
   w.getLsbD 0 = bu ∧ w.getLsbD 1 = dn ∧ w.getLsbD 2 = dr ∧ w.getLsbD 3 = false ∧ w.extractLsb' 4 4 = e.code ∧
     w.extractLsb' 11 21 = 0 ∧
    w.getLsbD 8 = f.getLsbD 0 ∧ w.getLsbD 9 = f.getLsbD 1 ∧ w.getLsbD 10 = f.getLsbD 2 := by
  cases e <;> cases dr <;> cases dn <;> cases bu <;> revert f <;> decide

/-- The byte lanes of a word (R102). -/
theorem lanes_word (b0 b1 b2 b3 : Byte) : (wordOfLanes b0 b1 b2 b3).extractLsb' 0 8 = b0 ∧
    (wordOfLanes b0 b1 b2 b3).extractLsb' 8 8 = b1 ∧ (wordOfLanes b0 b1 b2 b3).extractLsb' 16 8 = b2 ∧
    (wordOfLanes b0 b1 b2 b3).extractLsb' 24 8 = b3 := by
  unfold wordOfLanes
  refine ⟨app_lo _ _, ?_, ?_, ?_⟩
  · refine (app_hi _ _ (by decide)).trans ?_; exact app_lo _ _
  · refine (app_hi _ _ (by decide)).trans ?_; refine (app_hi _ _ (by decide)).trans ?_; exact app_lo _ _
  · refine (app_hi _ _ (by decide)).trans ?_; refine (app_hi _ _ (by decide)).trans ?_; refine (app_hi _ _
      (by decide)).trans ?_; ext i hi; simp;

/-- A meaningful register of a block that is not BUSY shows its value. -/
theorem shown_idle {s : State} (hp : s.phase = .idle) (m v : Word) : s.shown true m v = v := by
  simp [State.shown, busy_eq_false.mpr hp]

/-- The frequency window (R56). -/
theorem readRegister_freq {s : State} {o : Nat} (h1 : 0x400 ≤ o) (h2 : o < 0x800) :
    s.readRegister o = s.shown s.ftValid (BitVec.allOnes 32) (s.freq.get (BitVec.ofNat 8 ((o - 0x400) / 4)).toFin) :=
      by
  rw [State.readRegister, if_neg (show ¬ o < 0x40 by omega), State.readHigh, if_neg (show ¬ (0x40 ≤ o ∧
    o < 0x60) by omega), if_neg (show ¬ o = 0x60 by omega), if_neg (show ¬ o = 0x64 by omega), if_pos
    (show 0x400 ≤ o ∧ o < 0x800 by omega)]

end Sys2Proof.Machine
end

