-- ==== Sys2Proof/Laws/Parse.lean ====
section
/-! SUPPORT. What ParseTree does (R311 to R318): on the descriptor of a tree of distinct symbols it rebuilds the tree,
numbered in preorder (R312), and it accepts nothing else. -/

namespace Sys2Proof.Machine

/-- The number of nodes. -/
def Shape.size (t : Shape) : Nat := t.indices.length

@[simp] theorem Shape.size_leaf (i : Nat) (s : Byte) : (Shape.leaf i s).size = 1 := rfl

@[simp] theorem Shape.size_node (i : Nat) (l r : Shape) : (Shape.node i l r).size = l.size + r.size + 1 := by
  simp [Shape.size, Shape.indices]

/-- The same tree with its nodes numbered in preorder from `k` (R312). -/
def Shape.numbered (k : Nat) : Shape → Shape
  | .leaf _ s => .leaf k s
  | .node _ l r => .node k (l.numbered (k + 1)) (r.numbered (k + 1 + l.size))

/-- The arena entries of that tree, from index `k` on (R311). -/
def Shape.entries (k : Nat) : Shape → List Node
  | .leaf _ s => [leafNode s 0]
  | .node _ l r => internalNode (k + 1) (k + 1 + l.size) 0 :: (l.entries (k + 1) ++ r.entries (k + 1 + l.size))

@[simp] theorem Shape.entries_length (t : Shape) (k : Nat) : (t.entries k).length = t.size := by
  induction t generalizing k with
  | leaf => rfl
  | node i l r ihl ihr => simp [Shape.entries, ihl, ihr]

@[simp] theorem Shape.numbered_idx (t : Shape) (k : Nat) : (t.numbered k).idx = k := by
  cases t <;> rfl

@[simp] theorem Shape.numbered_symbols (t : Shape) (k : Nat) : (t.numbered k).symbols = t.symbols := by
  induction t generalizing k with
  | leaf => rfl
  | node i l r ihl ihr => simp [Shape.numbered, Shape.symbols, ihl, ihr]

@[simp] theorem Shape.numbered_desc (t : Shape) (k : Nat) : (t.numbered k).desc = t.desc := by
  induction t generalizing k with
  | leaf => rfl
  | node i l r ihl ihr => simp [Shape.numbered, Shape.desc, ihl, ihr]

@[simp] theorem Shape.numbered_paths (t : Shape) (k : Nat) : (t.numbered k).paths = t.paths := by
  induction t generalizing k with
  | leaf => rfl
  | node i l r ihl ihr => simp [Shape.numbered, Shape.paths, ihl, ihr]

@[simp] theorem Shape.numbered_codes (t : Shape) (k : Nat) : (t.numbered k).codes = t.codes := by
  cases t with
  | leaf => rfl
  | node i l r => exact Shape.numbered_paths (.node i l r) k

theorem Shape.numbered_indices (t : Shape) (k : Nat) : (t.numbered k).indices = List.range' k t.size := by
  induction t generalizing k with
  | leaf => rfl
  | node i l r ihl ihr =>
    rw [Shape.numbered, Shape.indices, ihl, ihr, Shape.size_node, List.range'_append_1, List.range'_succ]

theorem Shape.entries_head (t : Shape) (k : Nat) : ∃ nd rest, t.entries k = nd :: rest ∧ nd.freq = 0 := by
  cases t with
  | leaf i s => exact ⟨_, _, rfl, rfl⟩
  | node i l r => exact ⟨_, _, rfl, rfl⟩

theorem Shape.entries_getElem? (t : Shape) (pre post : List Node) :
    ∃ nd, (pre ++ (t.entries pre.length ++ post))[pre.length]? = some nd ∧ nd.freq = 0 := by
  obtain ⟨nd, rest, h, hf⟩ := t.entries_head pre.length
  exact ⟨nd, by simp [h], hf⟩

/-- The entries hold the numbered tree. -/
theorem Shape.numbered_builtIn (t : Shape) (pre post : List Node) :
    (t.numbered pre.length).builtIn (pre ++ (t.entries pre.length ++ post)) := by
  induction t generalizing pre post with
  | leaf i s => exact ⟨leafNode s 0, by simp [Shape.entries], rfl⟩
  | node i l r ihl ihr =>
    set top := internalNode (pre.length + 1) (pre.length + 1 + l.size) 0 with htop
    have hk : (pre ++ [top]).length = pre.length + 1 := by simp
    have hk2 : (pre ++ [top] ++ l.entries (pre.length + 1)).length = pre.length + 1 + l.size := by simp; omega
    have hl := ihl (pre ++ [top]) (r.entries (pre.length + 1 + l.size) ++ post)
    have hr := ihr (pre ++ [top] ++ l.entries (pre.length + 1)) post
    obtain ⟨nl, hnl, hfl⟩ := l.entries_getElem? (pre ++ [top]) (r.entries (pre.length + 1 + l.size) ++ post)
    obtain ⟨nr, hnr, hfr⟩ := r.entries_getElem? (pre ++ [top] ++ l.entries (pre.length + 1)) post
    rw [hk] at hl hnl
    rw [hk2] at hr hnr
    have e1 : pre ++ [top] ++ (l.entries (pre.length + 1) ++ (r.entries (pre.length + 1 + l.size) ++ post)) =
        pre ++ ((Shape.node i l r).entries pre.length ++ post) := by simp [Shape.entries, htop]
    have e2 : pre ++ [top] ++ l.entries (pre.length + 1) ++ (r.entries (pre.length + 1 + l.size) ++ post) =
        pre ++ ((Shape.node i l r).entries pre.length ++ post) := by simp [Shape.entries, htop]
    rw [e1] at hl hnl
    rw [e2] at hr hnr
    refine ⟨top, nl, nr, by simp [Shape.entries, htop], by simpa using hnl, by simpa using hnr, ?_, hl, hr⟩
    simp [htop, hfl, hfr]

/-- A slot that names an entry numbered already. -/
def slotOk (nodes : List Node) : Option (Nat × Side) → Prop
  | none => True
  | some (par, _) => par < nodes.length

@[simp] theorem linkChild_length (nodes : List Node) (i : Nat) (slot : Option (Nat × Side)) :
    (linkChild nodes i slot).length = nodes.length := by
  rcases slot with _ | ⟨par, _ | _⟩ <;> simp [linkChild]

theorem modify_append_left {α : Type} (xs ys : List α) {i : Nat} (f : α → α) (h : i < xs.length) :
    (xs ++ ys).modify i f = xs.modify i f ++ ys := by
  induction xs generalizing i with
  | nil => simp at h
  | cons x xs ih =>
    cases i with
    | zero => simp
    | succ i => simp only [List.cons_append, List.modify_succ_cons]; rw [ih (by simpa using h)]

theorem modify_append_mid {α : Type} (xs ys : List α) (y : α) (f : α → α) :
    (xs ++ y :: ys).modify xs.length f = xs ++ f y :: ys := by
  induction xs with
  | nil => simp
  | cons x xs ih => simp [ih]

theorem linkChild_append (nodes more : List Node) (i : Nat) {slot : Option (Nat × Side)} (h : slotOk nodes slot) :
    linkChild (nodes ++ more) i slot = linkChild nodes i slot ++ more := by
  rcases slot with _ | ⟨par, _ | _⟩ <;> simp only [linkChild, slotOk] at h ⊢ <;>
    exact modify_append_left _ _ _ h

/-- The parser's state when the subtree `t` has filled the slot on top. -/
def Parse.filled (p : Parse) (slot : Option (Nat × Side)) (rest : List (Option (Nat × Side))) (t : Shape) : Parse :=
  { nodes := linkChild p.nodes p.nodes.length slot ++ t.entries p.nodes.length
    leaves := p.leaves + t.symbols.length
    internals := p.internals + (t.symbols.length - 1)
    seen := t.symbols.reverse ++ p.seen
    slots := rest }

theorem parseNodes_done (n : Nat) (bits : List Bool) {p : Parse} (h : p.slots = []) :
    parseNodes n bits p = .ok (p, bits) := by
  unfold parseNodes; simp [h]

theorem Shape.symbols_pos (t : Shape) : 1 ≤ t.symbols.length := le_trans t.height_pos t.height_le

/-- The bits of a symbol, spelled out as the parser matches them. -/
theorem bitsOf_eight (v : Nat) : bitsOf 8 v =
    [v.testBit 7, v.testBit 6, v.testBit 5, v.testBit 4, v.testBit 3, v.testBit 2, v.testBit 1, v.testBit 0] := rfl

theorem parseNodes_leaf {n : Nat} {p : Parse} {slot : Option (Nat × Side)} {rest : List (Option (Nat × Side))}
    (hs : p.slots = slot :: rest) (hn : p.leaves < n) {s : Byte} (hseen : s ∉ p.seen) (tail : List Bool) :
    parseNodes n (true :: (bitsOf 8 s.toNat ++ tail)) p = parseNodes n tail (p.addLeaf slot rest s) := by
  have hsym : (BitVec.ofNat 8 (num (bitsOf 8 s.toNat)) : Byte) = s := by
    rw [num_bitsOf s.isLt]; simp
  rw [bitsOf_eight] at hsym ⊢
  rw [parseNodes]
  simp only [hs, Nat.ne_of_lt hn, if_false, List.cons_append, List.nil_append, hsym, hseen]

theorem parseNodes_internal {n : Nat} {p : Parse} {slot : Option (Nat × Side)} {rest : List (Option (Nat × Side))}
    (hs : p.slots = slot :: rest) (hn : p.internals < n - 1) (tail : List Bool) :
    parseNodes n (false :: tail) p = parseNodes n tail (p.addInternal slot rest) := by
  rw [parseNodes]
  simp only [hs, Nat.ne_of_lt hn, if_false]

/-- The descriptor of a tree with new, distinct symbols, within the count, fills one slot with the tree. -/
theorem parseNodes_desc {n : Nat} (t : Shape) (tail : List Bool) {p : Parse} {slot : Option (Nat × Side)}
    {rest : List (Option (Nat × Side))} (hs : p.slots = slot :: rest) (hok : slotOk p.nodes slot)
    (hl : p.leaves + t.symbols.length ≤ n) (hi : p.internals + (t.symbols.length - 1) ≤ n - 1)
    (hd : (t.symbols ++ p.seen).Nodup) :
    parseNodes n (t.desc ++ tail) p = parseNodes n tail (p.filled slot rest t) := by
  induction t generalizing p slot rest tail with
  | leaf i s =>
    simp only [Shape.symbols, List.length_singleton, List.singleton_append, List.nodup_cons] at hl hi hd
    rw [Shape.desc, List.cons_append, parseNodes_leaf hs (by omega) hd.1]
    congr 1
    simp [Parse.addLeaf, Parse.filled, Shape.symbols, Shape.entries, linkChild_append _ _ _ hok]
  | node i l r ihl ihr =>
    have hlp := l.symbols_pos
    have hrp := r.symbols_pos
    simp only [Shape.symbols, List.length_append] at hl hi
    rw [Shape.desc, List.cons_append, List.append_assoc, parseNodes_internal hs (by omega)]
    have hperm : (l.symbols ++ (r.symbols ++ p.seen)).Nodup := by
      simpa [Shape.symbols, List.append_assoc] using hd
    obtain ⟨hl1, hl2, hl3⟩ := List.nodup_append.mp hperm
    rw [ihl _ rfl (by simp [slotOk, Parse.addInternal]) (by simp [Parse.addInternal]; omega)
      (by simp [Parse.addInternal]; omega) ?_]
    · rw [ihr _ rfl ?_ ?_ ?_ ?_]
      · congr 1
        simp only [Parse.addInternal, Parse.filled, Shape.symbols, Shape.entries, List.length_append,
          linkChild_length, List.length_singleton, Shape.entries_length, Parse.mk.injEq, List.reverse_append,
          List.append_assoc, and_true]
        refine ⟨?_, by omega, by omega⟩
        rw [linkChild_append _ _ _ hok]
        generalize hpre : linkChild p.nodes p.nodes.length slot = pre
        have hlen : pre.length = p.nodes.length := by rw [← hpre, linkChild_length]
        rw [← hlen]
        simp only [linkChild, modify_append_mid, List.append_assoc, List.singleton_append]
        simp [internalNode, Nat.add_assoc]
      · simp only [slotOk, Parse.filled, Parse.addInternal, linkChild_length, List.length_append,
          List.length_singleton, Shape.entries_length]
        omega
      · simp [Parse.filled, Parse.addInternal]; omega
      · simp [Parse.filled, Parse.addInternal]; omega
      · simp only [Parse.filled, Parse.addInternal]
        rw [List.nodup_append] at hl2 ⊢
        refine ⟨hl2.1, ?_, ?_⟩
        · rw [List.nodup_append]
          refine ⟨List.nodup_reverse.mpr hl1, hl2.2.1, ?_⟩
          intro a ha b hb
          exact hl3 a (by simpa using ha) b (by simp [hb])
        · intro a ha b hb
          rcases List.mem_append.mp hb with hb | hb
          · exact fun he => hl3 b (by simpa using hb) a (by simp [ha]) he.symm
          · exact hl2.2.2 a ha b hb
    · simp only [Parse.addInternal]
      rw [List.nodup_append] at hl2 ⊢
      exact ⟨hl1, hl2.2.1, fun a ha b hb => hl3 a ha b (by simp [hb])⟩

/-- `get(k)` reads exactly the next `k` bits (R108). -/
theorem takeBits_append {k : Nat} {xs : List Bool} (h : xs.length = k) (tail : List Bool) :
    takeBits k (xs ++ tail) = some (xs, tail) := by
  subst h
  induction xs with
  | nil => rfl
  | cons x xs ih => simp [takeBits, ih]

theorem getBits_append {k : Nat} {xs : List Bool} (h : xs.length = k) (tail : List Bool) :
    getBits k (xs ++ tail) = some (num xs, tail) := by
  simp [getBits, takeBits_append h]

theorem takeBits_some {k : Nat} {bits xs rest : List Bool} (h : takeBits k bits = some (xs, rest)) :
    xs.length = k ∧ bits = xs ++ rest := by
  induction k generalizing bits xs rest with
  | zero => simp [takeBits] at h; simp [h]
  | succ k ih =>
    match bits with
    | [] => simp [takeBits] at h
    | b :: bits =>
      simp only [takeBits, Option.map_eq_some_iff, Prod.mk.injEq] at h
      obtain ⟨⟨ys, r⟩, h1, rfl, rfl⟩ := h
      obtain ⟨h2, rfl⟩ := ih h1
      simp [h2]

theorem getBits_some {k v : Nat} {bits rest : List Bool} (h : getBits k bits = some (v, rest)) :
    ∃ xs, xs.length = k ∧ bits = xs ++ rest ∧ v = num xs := by
  simp only [getBits, Option.map_eq_some_iff, Prod.mk.injEq] at h
  obtain ⟨⟨xs, r⟩, h1, rfl, rfl⟩ := h
  obtain ⟨h2, h3⟩ := takeBits_some h1
  exact ⟨xs, h2, h3, rfl⟩

/-- A `get(k)` fails exactly when fewer than `k` bits are left (R108). -/
theorem takeBits_eq_none_iff (k : Nat) (bits : List Bool) : takeBits k bits = none ↔ bits.length < k := by
  induction k generalizing bits with
  | zero => simp [takeBits]
  | succ k ih => cases bits <;> simp [takeBits, ih]

theorem getBits_eq_none_iff (k : Nat) (bits : List Bool) : getBits k bits = none ↔ bits.length < k := by
  simp [getBits, takeBits_eq_none_iff]

/-- What the parser accepts: one descriptor per open slot, of symbols that are new and distinct. -/
theorem parseNodes_sound {n : Nat} {bits rest : List Bool} {p p' : Parse}
    (h : parseNodes n bits p = .ok (p', rest)) (hd : p.seen.Nodup) (hl : p.leaves ≤ n) :
    ∃ ts : List Shape, ts.length = p.slots.length ∧ bits = ts.flatMap Shape.desc ++ rest ∧
      (ts.flatMap Shape.symbols ++ p.seen).Nodup ∧ p'.leaves = p.leaves + (ts.flatMap Shape.symbols).length ∧
      p'.leaves ≤ n := by
  induction hk : bits.length using Nat.strong_induction_on generalizing bits p with
  | _ k ih =>
    rw [parseNodes] at h
    split at h
    · rename_i hs
      simp only [Except.ok.injEq, Prod.mk.injEq] at h
      obtain ⟨rfl, rfl⟩ := h
      exact ⟨[], by simp [hs], by simp, by simpa using hd, by simp, hl⟩
    · rename_i slot slots hs
      split at h
      · simp at h
      · rename_i bits'
        split at h
        · simp at h
        · rename_i hne
          split at h
          · rename_i b7 b6 b5 b4 b3 b2 b1 b0 bits''
            simp only at h
            split at h
            · simp at h
            · rename_i hseen
              obtain ⟨ts, h1, h2, h3, h4, h5⟩ := ih bits''.length (by rw [← hk]; simp; omega) h
                (by simp [Parse.addLeaf]; exact ⟨hseen, hd⟩) (by simp [Parse.addLeaf]; omega) rfl
              refine ⟨.leaf 0 (BitVec.ofNat 8 (num [b7, b6, b5, b4, b3, b2, b1, b0])) :: ts, ?_, ?_, ?_, ?_, h5⟩
              · simp [hs, h1, Parse.addLeaf]
              · have := bitsOf_num [b7, b6, b5, b4, b3, b2, b1, b0]
                simp only [List.length_cons, List.length_nil, Nat.reduceAdd] at this
                simp only [List.flatMap_cons, Shape.desc, BitVec.toNat_ofNat]
                rw [bitsOf_mod _ (Nat.le_refl 8), this, h2]
                simp
              · simp only [Parse.addLeaf] at h3
                rw [List.flatMap_cons, Shape.symbols, List.singleton_append, List.cons_append]
                exact (List.perm_middle.nodup_iff).mp h3
              · rw [h4]; simp [Parse.addLeaf, Shape.symbols]; omega
          · simp at h
      · rename_i bits'
        split at h
        · simp at h
        · obtain ⟨ts, h1, h2, h3, h4, h5⟩ := ih bits'.length (by rw [← hk]; simp) h hd hl rfl
          match ts, h1 with
          | l :: r :: ts, h1 =>
            refine ⟨.node 0 l r :: ts, ?_, ?_, ?_, ?_, h5⟩
            · simp [hs] at h1 ⊢; simpa [Parse.addInternal] using h1
            · simp [h2, Shape.desc]
            · simpa [Shape.symbols, Parse.addInternal] using h3
            · simpa [Shape.symbols, Parse.addInternal] using h4

/-- ParseTree on the stream of a tree of `n` distinct symbols (R311, R319): the tree, numbered in preorder, and the
bits after it. -/
theorem parseTree_desc {n : Nat} (t : Shape) (hn : t.symbols.length = n) (h256 : n ≤ 256) (hd : t.symbols.Nodup)
    (tail : List Bool) :
    parseTree (bitsOf 9 n ++ (t.desc ++ tail)) =
      .ok { root := some 0, count := n, nodes := t.entries 0, rest := tail } := by
  have hpos := t.symbols_pos
  rw [parseTree, getBits_append (by simp), num_bitsOf (by omega)]
  simp only [show ¬ 256 < n by omega, show n ≠ 0 by omega, if_false]
  rw [parseNodes_desc t tail (slot := none) (rest := []) rfl trivial (by simp; omega) (by simp; omega) (by simpa using hd),
    parseNodes_done _ _ rfl]
  simp [Parse.filled, hn, linkChild]

theorem parseTree_zero (tail : List Bool) :
    parseTree (bitsOf 9 0 ++ tail) = .ok { root := none, count := 0, nodes := [], rest := tail } := by
  rw [parseTree, getBits_append (by simp), num_bitsOf (by omega)]
  simp

/-- ParseTree accepts nothing but the stream of a tree of distinct symbols, or the count 0 (R313 to R318). -/
theorem parseTree_sound {bits : List Bool} {pt : ParsedTree} (h : parseTree bits = .ok pt) :
    (bits = bitsOf 9 0 ++ pt.rest ∧ pt.root = none ∧ pt.count = 0 ∧ pt.nodes = []) ∨
    ∃ t : Shape, t.symbols.length = pt.count ∧ pt.count ≤ 256 ∧ t.symbols.Nodup ∧
      bits = bitsOf 9 pt.count ++ (t.desc ++ pt.rest) ∧ pt.root = some 0 ∧ pt.nodes = t.entries 0 := by
  have hparse := h
  rw [parseTree] at h
  split at h
  · simp at h
  · rename_i n bits' hg
    obtain ⟨xs, hx, rfl, rfl⟩ := getBits_some hg
    have hxs : bitsOf 9 (num xs) = xs := by rw [← hx]; exact bitsOf_num xs
    split at h
    · simp at h
    · split at h
      · rename_i h0
        simp only [Except.ok.injEq] at h
        subst h
        exact .inl ⟨by rw [← h0, hxs], rfl, rfl, rfl⟩
      · split at h
        · simp at h
        · rename_i p rest hp
          split at h
          · rename_i hleaves
            simp only [Except.ok.injEq] at h
            obtain ⟨ts, h1, h2, h3, h4, _⟩ := parseNodes_sound hp (by simp) (by simp)
            obtain ⟨t, rfl⟩ := List.length_eq_one_iff.mp h1
            simp only [List.flatMap_cons, List.flatMap_nil, List.append_nil] at h2 h3 h4
            have hcount : t.symbols.length = num xs := by rw [← hleaves, h4]; simp
            have := parseTree_desc t hcount (by omega) h3 rest
            rw [hxs, ← h2, hparse] at this
            cases this
            exact .inr ⟨t, hcount, by simp; omega, h3, by rw [hxs, h2], rfl, rfl⟩
          · simp at h

/-- The arena of a parsed tree of `n` distinct symbols satisfies R44 (R312). -/
theorem entries_isTree {n : Nat} (t : Shape) (hn : t.symbols.length = n) (h256 : n ≤ 256) (hd : t.symbols.Nodup) :
    IsTree n (arenaOf (t.entries 0)) (rootOf (some 0)) (t.numbered 0) := by
  have hsize := t.indices_length
  have hlen : (t.entries 0).length = 2 * n - 1 := by rw [Shape.entries_length, Shape.size]; omega
  refine ⟨?_, ?_, ?_, ?_, ?_, ?_⟩
  · have := t.numbered_builtIn [] []
    simp only [List.length_nil, List.nil_append, List.append_nil] at this
    exact Shape.heldIn_arenaOf (by omega) this
  · simp [rootOf]
  · rw [Shape.numbered_indices, ← List.range_eq_range', Shape.size]
    rw [show t.indices.length = 2 * n - 1 by omega]
  · rw [Shape.numbered_symbols, hn]
  · rw [Shape.numbered_symbols]; exact hd
  · intro i nd hge hi
    have hlt := (Vector.getElem?_eq_some_iff.mp hi).1
    rw [arenaOf_getElem? hlt, List.getD_eq_getElem?_getD, List.getElem?_eq_none (by omega)] at hi
    simpa using hi.symm

/-- Whatever ParseTree accepts satisfies R44 (R312). -/
theorem parseTree_treeOk {bits : List Bool} {pt : ParsedTree} (h : parseTree bits = .ok pt) :
    pt.count ≤ 256 ∧ TreeOk pt.count (arenaOf pt.nodes) (rootOf pt.root) := by
  rcases parseTree_sound h with ⟨_, h1, h2, h3⟩ | ⟨t, h1, h2, h3, _, h5, h6⟩
  · refine ⟨by omega, .inl ⟨h2, by rw [h1]; rfl, ?_⟩⟩
    intro i nd hi
    have hlt := (Vector.getElem?_eq_some_iff.mp hi).1
    rw [h3, arenaOf_getElem? hlt] at hi
    simpa using hi.symm
  · rw [h5, h6]
    exact ⟨h2, .inr ⟨by have := t.symbols_pos; omega, _, entries_isTree t h1 h2 h3⟩⟩

end Sys2Proof.Machine
end

