-- ==== Sys2Proof/Laws/Payload.lean ====
section
/-! SUPPORT. What PACK and UNPACK do with a payload: the packed bits are the input's codes (R150), the walk decodes them
(R281), and it decodes nothing else (R284). -/

namespace Sys2Proof.Machine

/-- `List.lookup` on distinct keys finds the pair. -/
theorem lookup_of_mem {codes : List (Byte × List Bool)} (hd : (codes.map Prod.fst).Nodup) {b : Byte} {c : List Bool}
    (h : (b, c) ∈ codes) : codes.lookup b = some c := by
  induction codes with
  | nil => simp at h
  | cons d codes ih =>
    obtain ⟨b', c'⟩ := d
    simp only [List.map_cons, List.nodup_cons] at hd
    rcases List.mem_cons.mp h with he | hm
    · cases he; simp [List.lookup]
    · have hne : b ≠ b' := by
        intro he
        subst he
        exact hd.1 (List.mem_map.mpr ⟨(b, c), hm, rfl⟩)
      simp only [List.lookup, beq_eq_false_iff_ne.mpr hne]
      exact ih hd.2 hm

theorem mem_of_lookup {codes : List (Byte × List Bool)} {b : Byte} {c : List Bool} (h : codes.lookup b = some c) :
    (b, c) ∈ codes := by
  induction codes with
  | nil => simp at h
  | cons d codes ih =>
    obtain ⟨b', c'⟩ := d
    simp only [List.lookup] at h
    split at h
    · rename_i he
      simp only [beq_iff_eq] at he
      simp_all
    · exact List.mem_cons_of_mem _ (ih h)

theorem encodeWith_cons_some {codes : List (Byte × List Bool)} {b : Byte} {bs : List Byte} {bits : List Bool}
    (h : encodeWith codes (b :: bs) = some bits) :
    ∃ c rest, (b, c) ∈ codes ∧ encodeWith codes bs = some rest ∧ bits = c ++ rest := by
  rw [encodeWith] at h
  split at h
  · simp at h
  · rename_i c hc
    obtain ⟨rest, h1, h2⟩ := Option.map_eq_some_iff.mp h
    exact ⟨c, rest, mem_of_lookup hc, h1, h2.symm⟩

theorem encodeWith_cons {codes : List (Byte × List Bool)} (hd : (codes.map Prod.fst).Nodup) {b : Byte} {bs : List Byte}
    {c rest : List Bool} (hc : (b, c) ∈ codes) (hr : encodeWith codes bs = some rest) :
    encodeWith codes (b :: bs) = some (c ++ rest) := by
  simp [encodeWith, lookup_of_mem hd hc, hr]

/-- With a table that holds the codes, the input's code bits are its encoding (R150, R270). -/
theorem codeBits_of_holds {ct : Vector CtEntry 256} {codes : List (Byte × List Bool)} (h : TableHolds ct codes)
    (hd : (codes.map Prod.fst).Nodup) {input : List Byte} (hv : ∀ b ∈ input, (ctOf ct b).valid = true) :
    encodeWith codes input = some (codeBits ct input) := by
  induction input with
  | nil => rfl
  | cons b bs ih =>
    obtain ⟨⟨b', c⟩, hc, rfl⟩ := List.mem_map.mp ((h.valid_iff b).mp (hv b (by simp)))
    rw [encodeWith_cons hd hc (ih fun x hx => hv x (by simp [hx]))]
    simp [codeBits, h.bits hc]

/-- `T` is the number of code bits (R150, R270). -/
theorem codeBits_length (ct : Vector CtEntry 256) (input : List Byte) :
    (codeBits ct input).length = codeLength ct input := by
  simp [codeBits, codeLength, List.length_flatMap, CtEntry.bits]

/-- The payload of an input that the table's sizes were counted on fills `ceil8(T)` bytes (R150). -/
theorem payloadBits_length (ct : Vector CtEntry 256) (input : List Byte) :
    (payloadBits ct input (padCount (codeLength ct input))).length = 8 * ceil8 (codeLength ct input) := by
  rw [payloadBits, List.length_append, codeBits_length, zeros_length, add_padCount]

theorem unput_length (draw n : Nat) (bits : List Bool) :
    ((bits ++ (List.range (8 * n - bits.length)).map fun j => Config.unputBit draw (bits.length + j)).take
      (8 * n)).length = 8 * n := by
  rw [List.length_take, List.length_append, List.length_map, List.length_range]
  omega

/-- The writer's output has the length the command reports (R47). -/
@[simp] theorem writtenBytes_length (draw n : Nat) (bits : List Bool) : (writtenBytes draw n bits).length = n :=
  packBytes_length _ (unput_length draw n bits)

/-- The bits that were put stand in the output in order, as far as it goes (R107). -/
theorem streamBits_writtenBytes (draw n : Nat) (bits : List Bool) :
    bits.take (8 * n) <+: streamBits (writtenBytes draw n bits) := by
  rw [writtenBytes, streamBits_packBytes _ (unput_length draw n bits), List.take_append]
  exact List.prefix_append _ _

/-- Output that fills its bytes is its bits and nothing else (R107). -/
theorem writtenBytes_of_length (draw : Nat) {n : Nat} {bits : List Bool} (h : bits.length = 8 * n) :
    writtenBytes draw n bits = packBytes bits := by
  rw [writtenBytes, h, Nat.sub_self, List.range_zero, List.map_nil, List.append_nil, ← h, List.take_length]

theorem putOutput_ok {n : Nat} {bits : List Bool} {s t : State} (h : s.putOutput n bits = .ok t) :
    ceil8 bits.length ≤ s.params.obufBytes ∧ t = s.setOutput (writtenBytes s.draws n bits) := by
  unfold State.putOutput at h
  split at h <;> cases h
  exact ⟨by omega, rfl⟩

theorem putOutput_error {n : Nat} {bits : List Bool} {s : State} {e : Stop} (h : s.putOutput n bits = .error e) :
    s.params.obufBytes < ceil8 bits.length ∧ e = .raised .outOverflow := by
  unfold State.putOutput at h
  split at h <;> cases h
  exact ⟨by omega, rfl⟩

/-- The writer's output when it fits. -/
theorem putOutput_of_fits {n : Nat} {bits : List Bool} {s : State} (h : ceil8 bits.length ≤ s.params.obufBytes) :
    s.putOutput n bits = .ok (s.setOutput (writtenBytes s.draws n bits)) := if_neg (by omega)

theorem putOutput_of_overflow {n : Nat} {bits : List Bool} {s : State} (h : s.params.obufBytes < ceil8 bits.length) :
    s.putOutput n bits = .error (.raised .outOverflow) := if_pos h

/-- Output that was counted rightly: the size check is the only one that can fail. -/
theorem putOutput_of_length {n : Nat} {bits : List Bool} {s : State} (hl : bits.length = 8 * n)
    (h : n ≤ s.params.obufBytes) : s.putOutput n bits = .ok (s.setOutput (packBytes bits)) := by
  rw [putOutput_of_fits (by rw [hl]; unfold ceil8; omega), writtenBytes_of_length _ hl]

/-- The walk of a tree with internal root decodes the codes of any bytes (R281). -/
theorem walkBits_encodeWith {nodes : Vector Node 511} {i : Nat} {l r : Shape} (h : (Shape.node i l r).heldIn nodes)
    {input : List Byte} {bits : List Bool} (he : encodeWith (Shape.node i l r).paths input = some bits) :
    walkBits nodes (BitVec.ofNat 9 i) bits (BitVec.ofNat 9 i) = .ok input := by
  induction input generalizing bits with
  | nil =>
    simp only [encodeWith, Option.some.injEq] at he
    rw [← he, walkBits, if_pos rfl]
  | cons b bs ih =>
    obtain ⟨c, rest, hc, hr, rfl⟩ := encodeWith_cons_some he
    rw [walkBits_path h hc, ih hr]

/-- The walk decodes the codes of any bytes, on every tree of R44 and on the EMPTY root (R281 to R283). -/
theorem walkSymbols_encodeWith {n : Nat} {nodes : Vector Node 511} {root : BitVec 9} {codes : List (Byte × List Bool)}
    (h : TreeCodes n nodes root codes) {input : List Byte} {bits : List Bool}
    (he : encodeWith codes input = some bits) : walkSymbols nodes root bits = .ok input := by
  rcases h with ⟨_, rfl, rfl⟩ | ⟨_, t, ht, rfl⟩
  · cases input with
    | nil =>
      simp only [encodeWith, Option.some.injEq] at he
      rw [← he, walkSymbols, if_pos rfl, if_pos rfl]
    | cons b bs => simp [encodeWith] at he
  · have hi := Shape.heldIn_idx_lt ht.held
    rw [walkSymbols, if_neg ht.root_ne_empty, ht.root_eq, nodeAt?_ofNat _ hi]
    cases t with
    | leaf i s =>
      obtain ⟨nd, hn, hnd⟩ := ht.held
      simp only [Shape.idx]
      rw [hn, hnd]
      simp only [leafNode, if_true]
      have : bits = input.map (fun _ => false) ∧ ∀ b ∈ input, b = s := by
        clear hn hnd ht hi
        induction input generalizing bits with
        | nil => simp [encodeWith] at he; simp [← he]
        | cons b bs ih =>
          obtain ⟨c, rest, hc, hr, rfl⟩ := encodeWith_cons_some he
          simp only [Shape.codes, List.mem_singleton, Prod.mk.injEq] at hc
          obtain ⟨rfl, rfl⟩ := hc
          obtain ⟨h1, h2⟩ := ih hr
          simp [h1]
          exact h2
      rw [this.1, if_neg (by simp), List.map_map]
      congr 1
      refine (List.map_congr_left fun x hx => ?_).trans (List.map_id input)
      simp [this.2 x hx]
    | node i l r =>
      obtain ⟨nd, nl, nr, hn, _, _, hnd, _, _⟩ := ht.held
      simp only [Shape.idx]
      rw [hn]
      simp only [hnd, internalNode, Bool.false_eq_true, if_false]
      exact walkBits_encodeWith ht.held he

/-- A step of the walk from an internal entry: it reaches one of the two children, which the arena holds. -/
theorem heldIn_child {nodes : Vector Node 511} {i : Nat} {l r : Shape} (h : (Shape.node i l r).heldIn nodes)
    (b : Bool) :
    ∃ nd nc, nodes[i]? = some nd ∧ (if b then nd.right else nd.left) = BitVec.ofNat 9 (if b then r else l).idx ∧
      nodes[(if b then r else l).idx]? = some nc ∧ (if b then r else l).heldIn nodes := by
  obtain ⟨nd, nl, nr, hn, hnl, hnr, he, hl, hr⟩ := h
  cases b
  · exact ⟨nd, nl, hn, by simp [he, internalNode], by simpa using hnl, by simpa using hl⟩
  · exact ⟨nd, nr, hn, by simp [he, internalNode], by simpa using hnr, by simpa using hr⟩

/-- The walk of a tree always has a result (R281), and what it decodes is what the bits encode (R284): it stops at the
root, and every code it followed is a path of the tree. -/
theorem walkBits_sound {nodes : Vector Node 511} {i : Nat} {l r : Shape} (h : (Shape.node i l r).heldIn nodes)
    (hroot : i ∉ l.indices ++ r.indices) (bits : List Bool) :
    ∀ {j : Nat} {ul ur : Shape}, (Shape.node j ul ur).heldIn nodes → i ∉ ul.indices ++ ur.indices →
    match walkBits nodes (BitVec.ofNat 9 i) bits (BitVec.ofNat 9 j) with
    | .ok out => (bits = [] ∧ out = [] ∧ j = i) ∨
        ∃ b p rest out', (b, p) ∈ (Shape.node j ul ur).paths ∧ bits = p ++ rest ∧ out = b :: out' ∧
          walkBits nodes (BitVec.ofNat 9 i) rest (BitVec.ofNat 9 i) = .ok out'
    | .error e => e = .raised .corruptStream := by
  have hi := Shape.heldIn_idx_lt h
  simp only [Shape.idx] at hi
  induction bits with
  | nil =>
    intro j ul ur hu _
    have hj := Shape.heldIn_idx_lt hu
    simp only [Shape.idx] at hj
    rw [walkBits]
    by_cases he : BitVec.ofNat 9 j = BitVec.ofNat 9 i
    · rw [if_pos he]
      have := congrArg BitVec.toNat he
      simp only [BitVec.toNat_ofNat] at this
      exact .inl ⟨rfl, rfl, by omega⟩
    · rw [if_neg he]
  | cons d bits ih =>
    intro j ul ur hu hju
    have hj := Shape.heldIn_idx_lt hu
    simp only [Shape.idx] at hj
    obtain ⟨nd, nc, hn, hc, hnc, hch⟩ := heldIn_child hu d
    have hci := Shape.heldIn_idx_lt hch
    have hpath : ∀ {b : Byte} {p : List Bool}, (b, p) ∈ (if d then ur else ul).paths →
        (b, d :: p) ∈ (Shape.node j ul ur).paths := by
      intro b p hp
      simp only [Shape.paths, List.mem_append, List.mem_map, Prod.mk.injEq, List.cons.injEq]
      cases d
      · exact .inl ⟨(b, p), by simpa using hp, by simp⟩
      · exact .inr ⟨(b, p), by simpa using hp, by simp⟩
    have hnot : i ∉ (if d then ur else ul).indices := by
      intro hm
      apply hju
      cases d <;> simp_all
    rw [walkBits, nodeAt?_ofNat _ hj, hn]
    simp only [hc, nodeAt?_ofNat _ hci, hnc]
    generalize (if d then ur else ul) = u at *
    cases u with
    | leaf k s =>
      obtain ⟨nd', hn', he'⟩ := hch
      simp only [Shape.idx] at hnc
      rw [hn'] at hnc
      cases hnc
      rw [he']
      simp only [leafNode, if_true]
      have := ih h hroot
      cases hw : walkBits nodes (BitVec.ofNat 9 i) bits (BitVec.ofNat 9 i) with
      | ok out =>
        exact .inr ⟨s, [d], bits, out, hpath (by simp [Shape.paths]), rfl, rfl, hw⟩
      | error e =>
        rw [hw] at this
        exact this
    | node k vl vr =>
      have hch' := hch
      obtain ⟨nd', _, _, hn', _, _, he', _, _⟩ := hch
      simp only [Shape.idx] at hnc ⊢
      rw [hn'] at hnc
      cases hnc
      rw [if_neg (by simp [he', internalNode])]
      simp only [Shape.indices, List.mem_cons, not_or] at hnot
      have := ih hch' hnot.2
      cases hw : walkBits nodes (BitVec.ofNat 9 i) bits (BitVec.ofNat 9 k) with
      | ok out =>
        rw [hw] at this
        rcases this with ⟨rfl, rfl, hk⟩ | ⟨b, p, rest, out', hp, rfl, rfl, hr⟩
        · exact absurd hk.symm hnot.1
        · exact .inr ⟨b, d :: p, rest, out', hpath hp, rfl, rfl, hr⟩
      | error e =>
        rw [hw] at this
        exact this

/-- From the root, a walk that succeeds has decoded the encoding of its output, and one that fails has met a corrupt
stream (R284). -/
theorem walkBits_root {nodes : Vector Node 511} {i : Nat} {l r : Shape} (h : (Shape.node i l r).heldIn nodes)
    (hroot : i ∉ l.indices ++ r.indices) (hd : (Shape.node i l r).symbols.Nodup) (bits : List Bool) :
    (∃ out, walkBits nodes (BitVec.ofNat 9 i) bits (BitVec.ofNat 9 i) = .ok out ∧
      encodeWith (Shape.node i l r).paths out = some bits) ∨
    walkBits nodes (BitVec.ofNat 9 i) bits (BitVec.ofNat 9 i) = .error (.raised .corruptStream) := by
  induction hk : bits.length using Nat.strong_induction_on generalizing bits with
  | _ k ih =>
    have hs := walkBits_sound h hroot bits h hroot
    cases hw : walkBits nodes (BitVec.ofNat 9 i) bits (BitVec.ofNat 9 i) with
    | error e =>
      rw [hw] at hs
      exact .inr (by rw [show e = _ from hs])
    | ok out =>
      rw [hw] at hs
      left
      rcases hs with ⟨rfl, rfl, _⟩ | ⟨b, p, rest, out', hp, rfl, rfl, hr⟩
      · exact ⟨[], rfl, rfl⟩
      · have hpos : 1 ≤ p.length := by
          simp only [Shape.paths, List.mem_append, List.mem_map, Prod.mk.injEq] at hp
          rcases hp with ⟨_, _, _, rfl⟩ | ⟨_, _, _, rfl⟩ <;> simp
        rcases ih rest.length (by rw [← hk]; simp; omega) rest rfl with ⟨o, ho, henc⟩ | hbad
        · rw [hr] at ho
          cases ho
          refine ⟨_, rfl, encodeWith_cons ?_ hp henc⟩
          rw [Shape.paths_symbols]
          exact hd
        · rw [hr] at hbad
          cases hbad

/-- On every tree of R44 and on the EMPTY root, the walk either decodes the encoding of its output or reports
CORRUPT_STREAM; it never lacks a result (R281 to R284). -/
theorem walkSymbols_cases {n : Nat} {nodes : Vector Node 511} {root : BitVec 9} {codes : List (Byte × List Bool)}
    (h : TreeCodes n nodes root codes) (bits : List Bool) :
    (∃ out, walkSymbols nodes root bits = .ok out ∧ encodeWith codes out = some bits) ∨
    walkSymbols nodes root bits = .error (.raised .corruptStream) := by
  rcases h with ⟨_, rfl, rfl⟩ | ⟨_, t, ht, rfl⟩
  · by_cases hb : bits = []
    · exact .inl ⟨[], by rw [walkSymbols, if_pos rfl, if_pos hb], by rw [hb]; rfl⟩
    · exact .inr (by rw [walkSymbols, if_pos rfl, if_neg hb])
  · have hi := Shape.heldIn_idx_lt ht.held
    rw [walkSymbols, if_neg ht.root_ne_empty, ht.root_eq, nodeAt?_ofNat _ hi]
    cases t with
    | leaf i s =>
      obtain ⟨nd, hn, hnd⟩ := ht.held
      simp only [Shape.idx]
      rw [hn, hnd]
      simp only [leafNode, if_true]
      by_cases hb : bits.any id = true
      · exact .inr (by rw [if_pos hb])
      · refine .inl ⟨_, by rw [if_neg hb], ?_⟩
        clear hn hnd ht hi
        induction bits with
        | nil => rfl
        | cons b bits ih =>
          simp only [List.any_cons, id, Bool.or_eq_true, not_or, Bool.not_eq_true] at hb
          obtain ⟨rfl, hb⟩ := hb
          rw [List.map_cons, encodeWith_cons (c := [false]) (rest := bits) (by simp [Shape.codes]) (by simp [Shape.codes])
            (ih (by simpa using hb))]
          rfl
    | node i l r =>
      have hnd' : (Shape.node i l r).indices.Nodup := ht.indices.nodup_iff.mpr List.nodup_range
      have := walkBits_root ht.held (List.nodup_cons.mp hnd').1 ht.distinct bits
      obtain ⟨nd, nl, nr, hn, _, _, hnd, _, _⟩ := ht.held
      simp only [Shape.idx]
      rw [hn]
      simp only [hnd, internalNode, Bool.false_eq_true, if_false]
      exact this

/-- No path of a tree is a prefix of another (R253). -/
theorem Shape.paths_prefix_free (t : Shape) {b b' : Byte} {p p' : List Bool} (h : (b, p) ∈ t.paths)
    (h' : (b', p') ∈ t.paths) (hp : p <+: p') : b = b' ∧ p = p' := by
  induction t generalizing p p' with
  | leaf i s => simp_all [Shape.paths]
  | node i l r ihl ihr =>
    simp only [Shape.paths, List.mem_append, List.mem_map, Prod.mk.injEq] at h h'
    rcases h with ⟨c, hc, rfl, rfl⟩ | ⟨c, hc, rfl, rfl⟩ <;> rcases h' with ⟨c', hc', rfl, rfl⟩ | ⟨c', hc', rfl, rfl⟩
    · obtain ⟨h1, h2⟩ := ihl hc hc' (by simpa using hp)
      exact ⟨h1, by rw [h2]⟩
    · simp at hp
    · simp at hp
    · obtain ⟨h1, h2⟩ := ihr hc hc' (by simpa using hp)
      exact ⟨h1, by rw [h2]⟩

/-- Kraft's equality, scaled: over the leaves, `Σ 2^(m - depth) = 2^m` for any `m` no path exceeds (R253). -/
theorem Shape.kraft (t : Shape) {m : Nat} (hm : t.height ≤ m + 1) :
    (t.paths.map fun c => 2 ^ (m - c.2.length)).sum = 2 ^ m := by
  induction t generalizing m with
  | leaf i s => simp [Shape.paths]
  | node i l r ihl ihr =>
    simp only [Shape.height] at hm
    have := l.height_pos
    have := r.height_pos
    obtain ⟨m, rfl⟩ : ∃ k, m = k + 1 := ⟨m - 1, by omega⟩
    have hl := ihl (m := m) (by omega)
    have hr := ihr (m := m) (by omega)
    simp only [Shape.paths, List.map_append, List.map_map, List.sum_append, Function.comp_def, List.length_cons,
      Nat.add_sub_add_right]
    rw [hl, hr, Nat.pow_succ]
    omega

end Sys2Proof.Machine
end

