-- ==== Sys2Proof/Laws/Commands.lean ====
section
/-! SUPPORT. What the commands' bodies leave: COUNT's table (R201), the sizes COMPRESS computes before it writes
  (R371,
R153), and, for each command with a body of its own, everything it can answer. -/

namespace Sys2Proof.Machine

theorem freq_get_tally (input : List Byte) (b : Byte) :
    (tally input)[b.toNat] = BitVec.ofNat 32 (input.count b) := by
  rw [tally, tabulate_getElem, List.count_eq_countP]
  congr 1
  apply List.countP_congr
  intro x _
  simp [BitVec.toNat_inj]

/-- No counter wraps when the input is short enough (R201). -/
theorem tally_toNat {input : List Byte} (h : input.length < 2 ^ 32) (b : Byte) :
    (tally input)[b.toNat].toNat = input.count b := by
  have := List.count_le_length (a := b) (l := input)
  rw [freq_get_tally, BitVec.toNat_ofNat, Nat.mod_eq_of_lt (by omega)]

theorem sum_ite_eq (n a : Nat) (f : Nat → Nat) :
    ((List.range n).map fun s => if a = s then f s else 0).sum = if a < n then f a else 0 := by
  induction n with
  | zero => simp
  | succ n ih =>
    rw [List.range_succ, List.map_append, List.sum_append, ih]
    by_cases h1 : a < n
    · simp [h1, show a < n + 1 by omega, show a ≠ n by omega]
    · by_cases h2 : a = n <;> simp [h1, h2]
      omega

/-- Each input byte increments exactly one counter (R201), so a weighted sum over the symbols is a sum over the
input. -/
theorem sum_count_mul (n : Nat) (input : List Byte) (hn : ∀ b ∈ input, b.toNat < n) (f : Nat → Nat) :
    ((List.range n).map fun s => (input.countP fun b => b.toNat == s) * f s).sum =
      (input.map fun b => f b.toNat).sum := by
  induction input with
  | nil => simp
  | cons b bs ih =>
    have hstep : ∀ s, ((b :: bs).countP fun b => b.toNat == s) * f s =
        (if b.toNat = s then f s else 0) + (bs.countP fun b => b.toNat == s) * f s := by
      intro s
      rw [List.countP_cons]
      by_cases h : b.toNat = s <;> simp [h, Nat.add_mul, Nat.add_comm]
    simp only [hstep, List.sum_map_add, List.map_cons, List.sum_cons]
    rw [sum_ite_eq, if_pos (hn b (by simp)), ih fun x hx => hn x (by simp [hx])]

/-- A counter modulo 2^32 is the count itself, entry by entry (R201). -/
theorem counters_eq {n : Nat} {input : List Byte} (h : input.length < 2 ^ 32) (f : Nat → Nat) :
    ((List.range n).map fun s => (BitVec.ofNat 32 (input.countP fun b => b.toNat == s)).toNat * f s).sum =
      ((List.range n).map fun s => (input.countP fun b => b.toNat == s) * f s).sum := by
  refine congrArg List.sum (List.map_congr_left fun s _ => ?_)
  have := List.countP_le_length (p := fun b : Byte => b.toNat == s) (l := input)
  rw [BitVec.toNat_ofNat, Nat.mod_eq_of_lt (by omega)]

/-- A weighted sum over the counters is a sum over the input (R201, R371). -/
theorem tally_weighted {input : List Byte} (h : input.length < 2 ^ 32) (f : Nat → Nat) :
    ((List.range 256).map fun s => (BitVec.ofNat 32 (input.countP fun b => b.toNat == s)).toNat * f s).sum =
      (input.map fun b => f b.toNat).sum :=
  (counters_eq h f).trans (sum_count_mul 256 input (fun b _ => b.isLt) f)

/-- The sum of all 256 counters is the number of input bytes (R201). -/
theorem tally_sum {input : List Byte} (h : input.length < 2 ^ 32) :
    ((tally input).toList.map BitVec.toNat).sum = input.length := by
  have hs := tally_weighted h fun _ => 1
  rw [tally, tabulate_toList, List.map_map]
  simp only [Nat.mul_one] at hs
  refine Eq.trans hs ?_
  rw [List.map_const', List.sum_replicate, smul_eq_mul, Nat.mul_one]

/-- A vector's list as a list of its entries by index. -/
theorem toList_eq_map {α : Type} {n : Nat} (v : Vector α n) (d : α) :
    v.toList = (List.range n).map fun s => v.toList.getD s d := by
  apply List.ext_getElem
  · rw [List.length_map, List.length_range, Vector.length_toList]
  · intro i h1 h2
    rw [List.getElem_map, List.getElem_range, List.getD_eq_getElem?_getD, List.getElem?_eq_getElem h1,
      Option.getD_some]

theorem zip_map_same {α β γ : Type} (l : List α) (f : α → β) (g : α → γ) :
    (l.map f).zip (l.map g) = l.map fun x => (f x, g x) := by
  induction l with
  | nil => rfl
  | cons x xs ih => simp [ih]

/-- `T` computed from the table is the number of code bits of the input (R371). -/
theorem weightedLength_tally {input : List Byte} (h : input.length < 2 ^ 32) (ct : Vector CtEntry 256) :
    weightedLength (tally input) ct = codeLength ct input := by
  have hs := tally_weighted h fun s => (ct.toList.getD s CtEntry.invalid).len.toNat
  rw [weightedLength, toList_eq_map ct CtEntry.invalid, tally, tabulate_toList, zip_map_same, List.map_map]
  refine Eq.trans hs (congrArg List.sum (List.map_congr_left fun b _ => ?_))
  have hb : b.toNat < ct.toList.length := by rw [Vector.length_toList]; exact b.isLt
  rw [ctOf_eq_getElem, List.getD_eq_getElem?_getD, List.getElem?_eq_getElem hb, Option.getD_some,
    Vector.getElem_toList]

/-- The number of input bytes is IN_LEN (R46). -/
@[simp] theorem inputBytes_length (s : State) : s.inputBytes.length = s.inLen.toNat := by
  simp [State.inputBytes, State.inputPass]

@[simp] theorem inputPass_length (s : State) (k : Nat) : (s.inputPass k).length = s.inLen.toNat := by
  simp [State.inputPass]

/-- Where the host has written the input, every loop over it reads the same bytes (R609). -/
theorem inputPass_written {s : State} (h : s.inputWritten) (k : Nat) : s.inputPass k = s.inputBytes := by
  refine List.map_congr_left fun i hi => ?_
  obtain ⟨b, hb⟩ := Option.isSome_iff_exists.mp (h i (List.mem_range.mp hi))
  simp [State.ibufRead, hb]

/-- A symbol occurs in the leaves exactly when its counter is not 0 (R223). -/
theorem mem_occurring {freq : Vector Word 256} (b : Byte) : b ∈ occurring freq ↔ freq[b.toNat].toNat ≠ 0 := by
  constructor
  · intro h
    obtain ⟨nd, hnd, rfl⟩ := List.mem_map.mp h
    obtain ⟨b, rfl, hb⟩ := mem_leaves hnd
    exact hb
  · intro h
    unfold occurring leaves
    rw [List.map_map, List.mem_map]
    have hb := b.isLt
    refine ⟨(freq[b.toNat], b.toNat), List.mem_filter.mpr ⟨?_, by simpa using h⟩, by simp [leafNode]⟩
    rw [List.mem_zipIdx_iff_getElem?]
    simp [hb]

/-- Every byte of the input has a code in the tree built from its own table (R272, R371). -/
theorem occurring_tally {input : List Byte} (h : input.length < 2 ^ 32) (b : Byte) :
    b ∈ occurring (tally input) ↔ b ∈ input := by
  rw [mem_occurring, tally_toNat h]
  exact (List.count_pos_iff (a := b) (l := input)) |> fun e => by rw [← e]; omega

/-- COUNT counts the distinct byte values of the input (R200). -/
theorem distinct_tally {input : List Byte} (h : input.length < 2 ^ 32) : distinct
    (tally input) = input.dedup.length := by
  have h1 : (occurring (tally input)).length = distinct (tally input) := by unfold occurring; rw [List.length_map,
    leaves_length]
  rw [← h1]
  apply List.Perm.length_eq
  rw [List.perm_ext_iff_of_nodup (occurring_nodup _) (List.nodup_dedup _)]
  intro b
  rw [occurring_tally h, List.mem_dedup]

/-- Every code length is at most 255 (R58). -/
theorem codeLength_le (ct : Vector CtEntry 256) (input : List Byte) : codeLength ct input ≤ 255 * input.length := by
  unfold codeLength
  induction input with
  | nil => simp
  | cons b bs ih =>
    simp only [List.map_cons, List.sum_cons, List.length_cons]
    have := (ctOf ct b).len.isLt
    omega

end Sys2Proof.Machine
end

