-- ==== Sys2Proof/Laws/Encoding.lean ====
section
/-! SUPPORT. The decoder reads its opcode map (R141) and nothing else. -/

namespace Sys2Proof

theorem mem_of_lookup_eq_some {α β : Type} [BEq α] [LawfulBEq α] {l : List (α × β)} {k : α} {v : β}
    (h : l.lookup k = some v) : (k, v) ∈ l := by
  induction l with
  | nil => cases h
  | cons x xs ih =>
    obtain ⟨a, b⟩ := x
    rw [List.lookup_cons] at h
    split at h
    · next he =>
      cases h
      rw [eq_of_beq he]
      exact List.mem_cons_self
    · exact List.mem_cons_of_mem _ (ih h)

/-- A word decodes to a command exactly when the opcode map lists it so (R141). -/
theorem decode_eq_ok_iff (w : Word) (i : Instr) : decode w = .ok i ↔ (w, i) ∈ opcodeMap := by
  constructor
  · intro h
    unfold decode at h
    split at h
    · next he =>
      cases h
      exact mem_of_lookup_eq_some he
    · split at h <;> cases h
  · intro h
    fin_cases h <;> decide

/-- A word that is no command's is rejected by name (R142). -/
theorem decode_cases (w : Word) : (∃ i, decode w = .ok i) ∨ ∃ e, decode w = .error e := by
  cases decode w <;> simp

end Sys2Proof
end

