-- ==== Sys2Proof/Laws/Exec.lean ====
section
/-! SUPPORT. What `exec` can answer, once for all eleven commands (R34, R501 to R503),
  and what each command's body can do
to the state. -/

namespace Sys2Proof.Machine

/-- The "Writes" and "Flags" lines of each command that can raise an execution error. -/
def commandWrites : Instr → Writes
  | .pack => Writes.pack
  | .tdec => Writes.tdec
  | .unpack => Writes.unpack
  | .compress => Writes.compress
  | .decompress => Writes.decompress
  | .nop | .clear | .count | .build | .gencodes | .tenc => Writes.none

/-- The pseudocode of each command. -/
def commandBody : Instr → State → Except Stop State
  | .nop => .ok
  | .clear => fun s => .ok (clearDerived s)
  | .count => fun s => .ok (countInput s)
  | .build => fun s => .ok (buildTree s)
  | .gencodes => genCodes
  | .tenc => encodeTree
  | .pack => packInput
  | .tdec => decodeTree
  | .unpack => unpackInput
  | .compress => compressInput
  | .decompress => decompressInput

/-- Every command is a completion with the pre-checks of R501 and its own body. -/
theorem exec_eq (i : Instr) (s : State) :
    exec i s = completion (readsIbuf i) (neededFlag i) (commandWrites i) (commandBody i) s := by
  cases i <;> rfl

/-- A command whose pre-checks pass ends as its body says. -/
theorem exec_of_ready {i : Instr} {s : State}
    (hl : readsIbuf i = true → s.inLen.toNat ≤ s.params.ibufBytes)
    (hf : ∀ f, neededFlag i = some f → s.flag f = true) :
    exec i s = finish (commandWrites i) s (commandBody i s) := by
  rw [exec_eq, completion_of_ready ((precheck_eq_none_iff _ _ _).mpr ⟨hl, hf⟩)]

/-- Everything a command that answers a next state can have done. -/
theorem exec_next {i : Instr} {s t : State} (h : exec i s = .next t) :
    (∃ e, precheck (readsIbuf i) (neededFlag i) s = some e ∧ t = s.complete e) ∨
    (precheck (readsIbuf i) (neededFlag i) s = none ∧
      ((∃ u, commandBody i s = .ok u ∧ t = u.complete .noError) ∨
       (∃ e, commandBody i s = .error (.raised e) ∧ t = s.abort (commandWrites i) e))) := by
  rw [exec_eq] at h
  exact completion_next h

theorem genCodes_ok {s t : State} (h : genCodes s = .ok t) :
    ∃ codes, codesOf s.nodes s.root = some codes ∧ t = { s with ct := tableOf codes, ctValid := true } := by
  unfold genCodes at h
  split at h <;> cases h
  exact ⟨_, by assumption, rfl⟩

theorem encodeTree_ok {s t : State} (h : encodeTree s = .ok t) :
    ∃ desc, descOf s.nodes s.root = some desc ∧ (treeStream s.symcount desc).length ≤ s.params.obufBytes ∧
      t = s.setOutput (treeStream s.symcount desc) := by
  unfold encodeTree at h
  split at h
  · cases h
  · split at h <;> cases h
    exact ⟨_, by assumption, by omega, rfl⟩

theorem packInput_ok {s t : State} (h : packInput s = .ok t) :
    let t' := codeLength s.ct (s.inputPass 1)
    (∀ b ∈ s.inputPass 0, (ctOf s.ct b).valid = true) ∧ ceil8 t' ≤ s.params.obufBytes ∧
      ceil8 (payloadBits s.ct (s.inputPass 2) (padCount t')).length ≤ s.params.obufBytes ∧
      t = ((s.setOutput (writtenBytes s.draws (ceil8 t') (payloadBits s.ct (s.inputPass 2) (padCount t')))).setPadOut
        (padCount t')).setTotalBits t' := by
  unfold packInput at h
  split at h
  · cases h
  · simp only at h
    split at h
    · cases h
    · split at h <;> cases h
      rename_i hn _ _ _ hp
      obtain ⟨h1, rfl⟩ := putOutput_ok hp
      exact ⟨by simpa using hn, by omega, h1, rfl⟩

/-- What PACK does where its loops read the same bytes: the size check is the writer's only one (R271, R273). -/
theorem packInput_written {s : State} (hw : s.inputWritten) (hv : ∀ b ∈ s.inputBytes, (ctOf s.ct b).valid = true) :
    packInput s =
      let t := codeLength s.ct s.inputBytes
      if s.params.obufBytes < ceil8 t then .error (.raised .outOverflow)
      else .ok (((s.setOutput (packBytes (payloadBits s.ct s.inputBytes (padCount t)))).setPadOut
        (padCount t)).setTotalBits t) := by
  unfold packInput
  rw [if_neg (by simpa [inputPass_written hw] using hv)]
  simp only [inputPass_written hw]
  split
  · rfl
  · rw [putOutput_of_length (payloadBits_length _ _) (by omega)]

theorem decodeTree_ok {s t : State} (h : decodeTree s = .ok t) :
    ∃ pt, parseTree (streamBits s.inputBytes) = .ok pt ∧
      t = { s.setTree pt with ftValid := false, ctValid := false, treeValid := true } := by
  unfold decodeTree at h
  split at h <;> cases h
  exact ⟨_, by assumption, rfl⟩

/-- A walk that succeeds has read `M` meaningful bits and decoded bytes that fit (R281). -/
theorem walk_ok {nodes : Vector Node 511} {root : BitVec 9} {obufBytes : Nat} {payload : List Byte} {pad m : Nat}
    {out : List Byte} (h : walk nodes root obufBytes payload pad = .ok (out, m)) :
    pad ≤ 8 * payload.length ∧ m = 8 * payload.length - pad ∧ out.length ≤ obufBytes ∧
      walkSymbols nodes root ((streamBits payload).take m) = .ok out := by
  unfold walk at h
  split at h
  · cases h
  · simp only at h
    split at h
    · cases h
    · split at h <;> cases h
      exact ⟨by omega, rfl, by omega, by assumption⟩

theorem unpackInput_ok {s t : State} (h : unpackInput s = .ok t) :
    ∃ out m, walk s.nodes s.root s.params.obufBytes s.inputBytes s.padIn.toNat = .ok (out, m) ∧
      t = (s.setOutput out).setTotalBits m := by
  unfold unpackInput at h
  split at h <;> cases h
  exact ⟨_, _, by assumption, rfl⟩

theorem writeContainer_ok {s t : State} (h : writeContainer s = .ok t) :
    ∃ desc, descOf s.nodes s.root = some desc ∧
      let t' := weightedLength s.freq s.ct
      let h := ceil8 (9 + desc.length + 3)
      let bits := headerBits s.symcount desc (padCount t') ++ payloadBits s.ct (s.inputPass 1) (padCount t')
      h + ceil8 t' ≤ s.params.obufBytes ∧ ceil8 bits.length ≤ s.params.obufBytes ∧
      t = ((s.setOutput (writtenBytes s.draws (h + ceil8 t') bits)).setPadOut (padCount t')).setTotalBits t' := by
  unfold writeContainer at h
  split at h
  · cases h
  · simp only at h
    split at h
    · cases h
    · split at h <;> cases h
      rename_i hp
      obtain ⟨h1, rfl⟩ := putOutput_ok hp
      exact ⟨_, by assumption, by omega, h1, rfl⟩

theorem compressInput_ok {s t : State} (h : compressInput s = .ok t) :
    ∃ u, genCodes (buildTree (countInput s)) = .ok u ∧ writeContainer u = .ok t := by
  unfold compressInput at h
  split at h
  · cases h
  · exact ⟨_, by assumption, h⟩

theorem decompressInput_ok {s t : State} (h : decompressInput s = .ok t) :
    ∃ pt pad rest out m, parseTree (streamBits s.inputBytes) = .ok pt ∧ getBits 3 pt.rest = some (pad, rest) ∧
      walk (arenaOf pt.nodes) (rootOf pt.root) s.params.obufBytes
        (s.inputBytes.drop (headerLength (streamBits s.inputBytes) rest)) pad = .ok (out, m) ∧
      t = { ((((s.setTree pt).setOutput out).setPadOut pad).setTotalBits m) with
        ftValid := false, ctValid := false, treeValid := true } := by
  unfold decompressInput at h
  split at h
  · cases h
  · split at h
    · cases h
    · simp only at h
      split at h <;> cases h
      exact ⟨_, _, _, _, _, by assumption, by assumption, by assumption, rfl⟩

/-- A walk raises CORRUPT_STREAM and nothing else. -/
theorem walkBits_raised {nodes : Vector Node 511} {root : BitVec 9} {bits : List Bool} {cur : BitVec 9} {e : ErrCode}
    (h : walkBits nodes root bits cur = .error (.raised e)) : e = .corruptStream := by
  induction bits generalizing cur with
  | nil =>
    unfold walkBits at h
    split at h <;> cases h
    rfl
  | cons b bits ih =>
    unfold walkBits at h
    split at h
    · cases h
    · split at h
      · cases h
      · split at h
        · split at h
          · cases h
          · next he =>
            cases h
            exact ih he
        · exact ih h

theorem walk_raised {nodes : Vector Node 511} {root : BitVec 9} {obufBytes : Nat} {payload : List Byte} {pad : Nat}
    {e : ErrCode} (h : walk nodes root obufBytes payload pad = .error (.raised e)) :
    e = .corruptStream ∨ e = .outOverflow := by
  unfold walk at h
  split at h
  · cases h
    exact .inl rfl
  · simp only at h
    split at h
    · next he =>
      cases h
      unfold walkSymbols at he
      split at he
      · split at he <;> cases he
        exact .inl rfl
      · split at he
        · cases he
        · split at he
          · split at he <;> cases he
            exact .inl rfl
          · exact .inl (walkBits_raised he)
    · split at h <;> cases h
      exact .inr rfl

/-- The parser raises INVALID_HEADER or CORRUPT_STREAM and nothing else (R311). -/
theorem parseNodes_error {n : Nat} {bits : List Bool} {p : Parse} {e : ErrCode} (h : parseNodes n bits p = .error e) :
    e = .invalidHeader ∨ e = .corruptStream := by
  induction bits, p using parseNodes.induct (n := n) <;> unfold parseNodes at h <;> simp_all
  all_goals grind

theorem parseTree_error {bits : List Bool} {e : ErrCode} (h : parseTree bits = .error e) :
    e = .invalidHeader ∨ e = .corruptStream := by
  unfold parseTree at h
  split at h
  · cases h
    exact .inl rfl
  · split at h
    · cases h
      exact .inr rfl
    · split at h
      · cases h
      · split at h
        · cases h
          exact parseNodes_error (by assumption)
        · split at h <;> cases h
          exact .inr rfl

/-- Which command's body can raise which execution error (R502). -/
theorem commandBody_raised {i : Instr} {s : State} {e : ErrCode} (h : commandBody i s = .error (.raised e)) :
    canRaise i e = true := by
  cases i <;> simp only [commandBody] at h
  · cases h
  · cases h
  · cases h
  · cases h
  · unfold genCodes at h
    split at h <;> cases h
  · unfold encodeTree at h
    split at h
    · cases h
    · split at h <;> cases h
  · unfold packInput at h
    split at h
    · cases h
      rfl
    · simp only at h
      split at h
      · cases h
        rfl
      · split at h <;> cases h
        next he => cases (putOutput_error he).2; rfl
  · unfold decodeTree at h
    split at h <;> cases h
    next he => rcases parseTree_error he with rfl | rfl <;> rfl
  · unfold unpackInput at h
    split at h <;> cases h
    next he => rcases walk_raised he with rfl | rfl <;> rfl
  · unfold compressInput genCodes at h
    split at h
    · next he => split at he <;> cases he; cases h
    · unfold writeContainer at h
      split at h
      · cases h
      · simp only at h
        split at h
        · cases h
          rfl
        · split at h <;> cases h
          next he => cases (putOutput_error he).2; rfl
  · unfold decompressInput at h
    split at h
    · next he =>
      cases h
      rcases parseTree_error he with rfl | rfl <;> rfl
    · split at h
      · cases h
        rfl
      · simp only at h
        split at h
        · next he =>
          cases h
          rcases walk_raised he with rfl | rfl <;> rfl
        · cases h

/-- No body writes what the host owns, nor the model's own bookkeeping, nor the completion's STATUS fields (R46, R49,
  R53,
R54, R61). -/
theorem commandBody_frame {i : Instr} {s u : State} (h : commandBody i s = .ok u) :
    u = { s with
      drop := u.drop, ftValid := u.ftValid, treeValid := u.treeValid, ctValid := u.ctValid, outLen := u.outLen,
      symcount := u.symcount, padOut := u.padOut, padOutUnspec := u.padOutUnspec, totalBits := u.totalBits,
      totalBitsUnspec := u.totalBitsUnspec, root := u.root, freq := u.freq, ct := u.ct, nodes := u.nodes,
      obuf := u.obuf } := by
  cases i <;> simp only [commandBody] at h
  · cases h; rfl
  · cases h; rfl
  · cases h; rfl
  · cases h; rfl
  · obtain ⟨_, _, rfl⟩ := genCodes_ok h; rfl
  · obtain ⟨_, _, _, rfl⟩ := encodeTree_ok h; rfl
  · obtain ⟨_, _, _, rfl⟩ := packInput_ok h; rfl
  · obtain ⟨_, _, rfl⟩ := decodeTree_ok h; rfl
  · obtain ⟨_, _, _, rfl⟩ := unpackInput_ok h; rfl
  · obtain ⟨_, hg, hw⟩ := compressInput_ok h
    obtain ⟨_, _, rfl⟩ := genCodes_ok hg
    obtain ⟨_, _, _, _, rfl⟩ := writeContainer_ok hw
    rfl
  · obtain ⟨_, _, _, _, _, _, _, _, rfl⟩ := decompressInput_ok h; rfl

theorem treeStream_length (symcount : BitVec 9) (desc : List Bool) :
    (treeStream symcount desc).length = ceil8 (9 + desc.length) := by
  unfold treeStream
  rw [packBytes_length _ (align_length _)]
  simp

theorem streamBits_treeStream (symcount : BitVec 9) (desc : List Bool) :
    streamBits (treeStream symcount desc) =
      bitsOf 9 symcount.toNat ++ desc ++ zeros (padCount (9 + desc.length)) := by
  unfold treeStream
  rw [streamBits_packBytes _ (align_length _)]
  simp [align]

/-- A walk of a tree never leaves it (R44). -/
theorem walk_ne_broken {n : Nat} {nodes : Vector Node 511} {root : BitVec 9} (h : TreeOk n nodes root) (obufBytes :
    Nat)
    (payload : List Byte) (pad : Nat) : walk nodes root obufBytes payload pad ≠ .error .broken := by
  obtain ⟨codes, hc⟩ := h.treeCodes
  unfold walk
  split
  · simp
  · simp only
    rcases walkSymbols_cases hc ((streamBits payload).take (8 * payload.length - pad)) with ⟨out, ho, _⟩ | ho <;>
      rw [ho]
    · simp only
      split <;> simp
    · simp

theorem genCodes_of_treeCodes {s : State} {n : Nat} {codes : List (Byte × List Bool)}
    (h : TreeCodes n s.nodes s.root codes) : genCodes s = .ok { s with ct := tableOf codes, ctValid := true } := by
  unfold genCodes
  rw [codesOf_treeCodes h]

theorem buildTree_treeOk (s : State) : TreeOk (distinct s.freq) (buildTree s).nodes (buildTree s).root :=
  huffman_treeOk s.freq

/-- Where what the flags vouch for holds (R43, R44), every command's pseudocode has a result. -/
theorem commandBody_ne_broken {i : Instr} {s : State} (hp : s.params.wf = true)
    (ht : s.treeValid = true → TreeOk s.symcount.toNat s.nodes s.root)
    (hr : precheck (readsIbuf i) (neededFlag i) s = none) : commandBody i s ≠ .error .broken := by
  obtain ⟨_, hf⟩ := (precheck_eq_none_iff _ _ _).mp hr
  simp only [Params.wf, Bool.and_eq_true, beq_iff_eq, decide_eq_true_eq] at hp
  cases i <;> simp only [commandBody]
  · simp
  · simp
  · simp
  · simp
  · obtain ⟨codes, hc⟩ := (ht (hf .tree rfl)).treeCodes
    rw [genCodes_of_treeCodes hc]
    simp
  · obtain ⟨desc, hd⟩ := (ht (hf .tree rfl)).treeDesc
    obtain ⟨h1, h2, h3⟩ := hd.length
    unfold encodeTree
    rw [descOf_treeDesc hd]
    simp only
    have hl := treeStream_length s.symcount desc
    rw [if_neg]
    · simp
    · rw [hl]
      unfold ceil8
      omega
  · unfold packInput
    simp only
    split
    · simp
    · split
      · simp
      · split
        · next he => cases (putOutput_error he).2; simp
        · simp
  · unfold decodeTree
    split <;> simp
  · unfold unpackInput
    have := walk_ne_broken (ht (hf .tree rfl)) s.params.obufBytes s.inputBytes s.padIn.toNat
    split <;> simp_all
  · unfold compressInput
    obtain ⟨codes, hc⟩ := (buildTree_treeOk (countInput s)).treeCodes
    rw [genCodes_of_treeCodes hc]
    simp only
    unfold writeContainer
    obtain ⟨desc, hd⟩ := (buildTree_treeOk (countInput s)).treeDesc
    rw [show descOf _ _ = some desc from descOf_treeDesc hd]
    simp only
    split
    · simp
    · split
      · next he => cases (putOutput_error he).2; simp
      · simp
  · unfold decompressInput
    split
    · simp
    · next pt hpt =>
      split
      · simp
      · next pad rest _ =>
        simp only
        have := walk_ne_broken (parseTree_treeOk hpt).2 s.params.obufBytes
          (s.inputBytes.drop (headerLength (streamBits s.inputBytes) rest)) pad
        split <;> simp_all

/-- A command whose pre-checks pass and whose body succeeds. -/
theorem exec_of_body {i : Instr} {s u : State} (hl : readsIbuf i = true → s.inLen.toNat ≤ s.params.ibufBytes)
    (hf : ∀ f, neededFlag i = some f → s.flag f = true) (hb : commandBody i s = .ok u) : exec i s = .next
      (u.complete .noError) := by
  rw [exec_of_ready hl hf, hb]; rfl

/-- A command whose pre-checks pass and whose body raises an error (R503). -/
theorem exec_of_raise {i : Instr} {s : State} {e : ErrCode} (hl : readsIbuf i = true →
    s.inLen.toNat ≤ s.params.ibufBytes)
    (hf : ∀ f, neededFlag i = some f → s.flag f = true) (hb : commandBody i s = .error (.raised e)) : exec i s = .next
      (s.abort (commandWrites i) e) := by
  rw [exec_of_ready hl hf, hb]; rfl

end Sys2Proof.Machine
end

