-- ==== Sys2Proof/Laws/Step.lean ====
section
/-! SUPPORT. Whose step it is: the engine's, the boundary's, or none (R34, R112, R515, R600, R611),
  and everything one step
can do. -/

namespace Sys2Proof.Machine

theorem counted_next_iff {o : Host.Outcome State Fault Refusal} {t : State} :
    counted o = .next t ↔ ∃ u, o = .next u ∧ t = { u with draws := u.draws + 1 } := by
  cases o <;> simp [counted, eq_comm]

theorem phase_cases (s : State) : s.phase = .idle ∨ s.phase = .busy := by
  cases s.phase <;> simp

theorem inputs_cases (s : State) : s.inputs = [] ∨ ∃ i rest, s.inputs = i :: rest := by
  cases s.inputs <;> simp

theorem turn_reset {s : State} (hr : s.inReset = true) : turn s = .next (serveNextInReset s) := if_pos hr

theorem turn_idle {s : State} (hr : s.inReset = false) (hp : s.phase = .idle) : turn s = serveNext s := by
  unfold turn
  rw [if_neg (by rw [hr]; decide), hp]

theorem turn_due {s : State} (hr : s.inReset = false) (hp : s.phase = .busy) (hd : s.delay = 0) :
    turn s = runPending s := by
  unfold turn
  rw [if_neg (by rw [hr]; decide), hp, hd]

theorem turn_waiting {s : State} (hr : s.inReset = false) (hp : s.phase = .busy) {d : Nat} (hd : s.delay = d + 1) :
    turn s = serveNext { s with delay := d } := by
  unfold turn
  rw [if_neg (by rw [hr]; decide), hp, hd]

theorem serveNext_cons {s : State} {i : Input} {rest : List Input} (h : s.inputs = i :: rest) :
    serveNext s = State.serve { s with inputs := rest } i := by
  unfold serveNext
  rw [h]

theorem serveNext_nil {s : State} (h : s.inputs = []) : serveNext s = .next s := by
  unfold serveNext
  rw [h]

theorem serveNextInReset_cons {s : State} {i : Input} {rest : List Input} (h : s.inputs = i :: rest) :
    serveNextInReset s = State.serveInReset { s with inputs := rest } i := by
  unfold serveNextInReset
  rw [h]

theorem serveNextInReset_nil {s : State} (h : s.inputs = []) : serveNextInReset s = s := by
  unfold serveNextInReset
  rw [h]

/-- When a completion is due, the step is that completion (R34). -/
theorem step_of_due {s : State} (h : s.completionDue) : step s = counted (runPending s) := by
  rw [step, turn_due h.1 h.2.1 h.2.2]

/-- The completion of a legal command is its meaning (R34, R141). -/
theorem runPending_of_decode {s : State} {i : Instr} (h : decode s.pending = .ok i) : runPending s = exec i s := by
  unfold runPending
  rw [h]

/-- The completion of an illegal word (R142, R501). -/
theorem runPending_of_illegal {s : State} {e : DecodeError} (h : decode s.pending = .error e) :
    runPending s = .next (s.complete .badCommand) := by
  unfold runPending
  rw [h]

/-- When no completion is due and reset is not asserted, the boundary moves, with one step less to wait while BUSY
(R611). -/
theorem turn_of_boundary {s : State} (hr : s.inReset = false) (hd : ¬ s.completionDue) :
    ∃ d, (s.phase = .idle → d = s.delay) ∧ (s.phase = .busy → d + 1 = s.delay) ∧
      turn s = serveNext { s with delay := d } := by
  rcases phase_cases s with hp | hp
  · exact ⟨s.delay, fun _ => rfl, fun h => (by rw [hp] at h; cases h), turn_idle hr hp⟩
  · obtain ⟨d, hk⟩ := Nat.exists_eq_succ_of_ne_zero fun hk => hd ⟨hr, hp, hk⟩
    exact ⟨d, fun h => (by rw [hp] at h; cases h), fun _ => hk.symm, turn_waiting hr hp hk⟩

theorem step_of_serve {s : State} {i : Input} {rest : List Input} (hr : s.inReset = false)
    (hd : ¬ s.completionDue) (hi : s.inputs = i :: rest) :
    ∃ d, (s.phase = .idle → d = s.delay) ∧ (s.phase = .busy → d + 1 = s.delay) ∧
      step s = counted (State.serve { s with inputs := rest, delay := d } i) := by
  obtain ⟨d, h1, h2, h⟩ := turn_of_boundary hr hd
  exact ⟨d, h1, h2, by rw [step, h, serveNext_cons (s := { s with delay := d }) hi]⟩

/-- With no event waiting and no completion due, nothing happens (R515) but that time passes. -/
theorem step_of_quiet {s : State} (hr : s.inReset = false) (hd : ¬ s.completionDue) (hi : s.inputs = []) :
    ∃ d, (s.phase = .idle → d = s.delay) ∧ (s.phase = .busy → d + 1 = s.delay) ∧
      step s = .next { s with delay := d, draws := s.draws + 1 } := by
  obtain ⟨d, h1, h2, h⟩ := turn_of_boundary hr hd
  exact ⟨d, h1, h2, by rw [step, h, serveNext_nil (s := { s with delay := d }) hi]; rfl⟩

/-- While reset is asserted the step serves the next event, if there is one, and the engine does not move (R600,
R602). -/
theorem step_of_reset {s : State} (hr : s.inReset = true) :
    (s.inputs = [] ∧ step s = .next { s with draws := s.draws + 1 }) ∨
    (∃ i rest, s.inputs = i :: rest ∧
      step s = counted (.next (State.serveInReset { s with inputs := rest } i))) := by
  rw [step, turn_reset hr]
  rcases inputs_cases s with hi | ⟨i, rest, hi⟩
  · exact .inl ⟨hi, by rw [serveNextInReset_nil hi]; rfl⟩
  · exact .inr ⟨i, rest, hi, by rw [serveNextInReset_cons hi]⟩

/-- Everything a step that answers a next state can have been. -/
theorem step_cases {s t : State} (h : step s = .next t) :
    (s.completionDue ∧ ∃ u, runPending s = .next u ∧ t = { u with draws := u.draws + 1 }) ∨
    (s.inReset = false ∧ ¬ s.completionDue ∧ ∃ d i rest u, (s.phase = .idle → d = s.delay) ∧
      (s.phase = .busy → d + 1 = s.delay) ∧ s.inputs = i :: rest ∧
      State.serve { s with inputs := rest, delay := d } i = .next u ∧ t = { u with draws := u.draws + 1 }) ∨
    (s.inReset = false ∧ ¬ s.completionDue ∧ s.inputs = [] ∧ ∃ d, (s.phase = .idle → d = s.delay) ∧
      (s.phase = .busy → d + 1 = s.delay) ∧ t = { s with delay := d, draws := s.draws + 1 }) ∨
    (s.inReset = true ∧ ∃ i rest, s.inputs = i :: rest ∧
      t = { State.serveInReset { s with inputs := rest } i with
        draws := (State.serveInReset { s with inputs := rest } i).draws + 1 }) ∨
    (s.inReset = true ∧ s.inputs = [] ∧ t = { s with draws := s.draws + 1 }) := by
  rcases Bool.eq_false_or_eq_true s.inReset with hr | hr
  · rcases step_of_reset hr with ⟨hi, hs⟩ | ⟨i, rest, hi, hs⟩ <;> rw [hs] at h
    · exact .inr (.inr (.inr (.inr ⟨hr, hi, (Host.Outcome.next.inj h).symm⟩)))
    · obtain ⟨u, hu, rfl⟩ := counted_next_iff.mp h
      cases hu
      exact .inr (.inr (.inr (.inl ⟨hr, i, rest, hi, rfl⟩)))
  · by_cases hd : s.completionDue
    · rw [step_of_due hd] at h
      exact .inl ⟨hd, counted_next_iff.mp h⟩
    · rcases inputs_cases s with hi | ⟨i, rest, hi⟩
      · obtain ⟨d, h1, h2, hs⟩ := step_of_quiet hr hd hi
        rw [hs] at h
        exact .inr (.inr (.inl ⟨hr, hd, hi, d, h1, h2, (Host.Outcome.next.inj h).symm⟩))
      · obtain ⟨d, h1, h2, hs⟩ := step_of_serve hr hd hi
        rw [hs] at h
        obtain ⟨u, hu, rfl⟩ := counted_next_iff.mp h
        exact .inr (.inl ⟨hr, hd, d, i, rest, u, h1, h2, hi, hu, rfl⟩)

theorem run_succ_of_core (M : Host.Core) {s t : M.State} (k : Nat) (h : M.step s = .next t) :
    M.run (k + 1) s = M.run k t := by
  rw [Host.Core.run.eq_def]
  simp only [h]

/-- A run's first step. -/
theorem run_succ {s t : State} (k : Nat) (h : step s = .next t) : core.run (k + 1) s = core.run k t :=
  run_succ_of_core core k h

theorem run_zero (s : State) : core.run 0 s = .next s := rfl

/-- Everything one boundary event can do. -/
theorem serve_frame {s t : State} {i : Input} (h : State.serve s i = .next t) :
    (∃ addr w, i = .write addr w ∧ s.hostWrite addr w = .next t) ∨
    (∃ addr, i = .read addr ∧ t = s.respond (s.hostRead addr)) ∨
    (i = .wait ∧ t = s.polled s.status) ∨ (i = .assertReset ∧ t = { s with inReset := true }) ∨ (i = .releaseReset ∧
      t = s) := by
  cases i <;> simp_all [State.serve, eq_comm]

/-- A command that completes ends BUSY and sets DONE (R34). -/
theorem exec_done {i : Instr} {s t : State} (h : exec i s = .next t) : t.done = true ∧ t.phase = .idle := by
  rcases exec_next h with ⟨e, _, rfl⟩ | ⟨_, ⟨u, _, rfl⟩ | ⟨e, _, rfl⟩⟩ <;> exact ⟨rfl, rfl⟩

/-- So does an illegal word (R142). -/
theorem runPending_done {s t : State} (h : runPending s = .next t) : t.done = true ∧ t.phase = .idle := by
  rcases decode_cases s.pending with ⟨i, hi⟩ | ⟨e, he⟩
  · rw [runPending_of_decode hi] at h; exact exec_done h
  · rw [runPending_of_illegal he] at h; cases h; exact ⟨rfl, rfl⟩

/-- The step of an idle block serves the first event. -/
theorem step_idle {s : State} (hr : s.inReset = false) (hp : s.phase = .idle) {i : Input} {rest : List Input} (hi :
    s.inputs = i :: rest) :
    step s = counted (State.serve { s with inputs := rest } i) := by
  rw [step, turn_idle hr hp, serveNext_cons hi]

/-- Two steps. -/
theorem run_two {s t u : State} (h : step s = .next t) (h' : step t = .next u) : core.run 2 s = .next u := by
  rw [run_succ 1 h, run_succ 0 h', run_zero]

end Sys2Proof.Machine
end

