-- ==== Sys2Proof/Laws/Invariant.lean ====
section
/-! SUPPORT. The invariant of the state under the shared operations, the commands and the host's writes. -/

namespace Sys2Proof.Machine

/-- The part of the invariant about OBUF and OUT_LEN. -/
structure OutInv (s : State) : Prop where
  obufWf : s.obuf.wf
  obufBound : ∀ c ∈ s.obuf, c.1 < s.params.obufBytes
  outLen : ∀ i, i < s.outLen.toNat → (s.obuf.read? i).isSome

/-- A written result meets it (R47, R62). -/
theorem outInv_setOutput {s : State} {bytes : List Byte} (hw : s.params.wf = true) (h :
    bytes.length ≤ s.params.obufBytes) (t : State)
    (h1 : t.obuf = Memory.ofBytes 0 bytes) (h2 : t.outLen = BitVec.ofNat 32 bytes.length) (h3 : t.params = s.params) :
      OutInv t := by
  simp only [Params.wf, Bool.and_eq_true, beq_iff_eq, decide_eq_true_eq] at hw
  refine ⟨?_, ?_, ?_⟩
  · rw [h1]; exact Memory.ofBytes_wf _ _
  · rw [h1, h3]; intro c hc; have := Memory.ofBytes_indices 0 bytes hc; omega
  · intro i hi
    rw [h2, BitVec.toNat_ofNat, Nat.mod_eq_of_lt (by omega)] at hi
    rw [h1, Memory.read?_ofBytes]
    simp [hi]

/-- The invariant of a state with the same parameters and IBUF, from its parts. -/
theorem inv_of {s t : State} (hs : s.Inv) (hp : t.params = s.params) (hib : t.ibuf = s.ibuf)
    (ho : OutInv t) (htb : t.totalBitsUnspec = false → t.totalBits.toNat < 2 ^ 38) (hb : t.phase = .busy →
      t.done = false ∧ t.err = .noError)
    (hf : t.ftValid = true → FreqOk t.params.ibufBytes t.freq t.symcount) (htr : t.treeValid = true →
      TreeOk t.symcount.toNat t.nodes t.root)
    (hct : t.ctValid = true → t.treeValid = true ∧ ∃ codes, TreeCodes t.symcount.toNat t.nodes t.root codes ∧
      TableHolds t.ct codes) : t.Inv :=
  ⟨hp ▸ hs.params, hib ▸ hs.ibufWf, by rw [hib, hp]; exact hs.ibufBound, ho.obufWf, ho.obufBound, ho.outLen, htb, hb,
    hf, htr, hct⟩

theorem OutInv.of {s : State} (h : s.Inv) : OutInv s := ⟨h.obufWf, h.obufBound, h.outLen⟩

theorem OutInv.same {s t : State} (h : OutInv s) (h1 : t.obuf = s.obuf) (h2 : t.outLen = s.outLen) (h3 :
    t.params = s.params) : OutInv t :=
  ⟨by rw [h1]; exact h.obufWf, by rw [h1, h3]; exact h.obufBound, by rw [h1, h2]; exact h.outLen⟩

theorem outInv_empty {t : State} (h1 : t.obuf = []) (h2 : t.outLen = 0) : OutInv t := by
  refine ⟨by rw [h1]; exact List.Pairwise.nil, by simp [h1], by simp [h2]⟩

theorem ofNat64_lt {n : Nat} (h : n < 2 ^ 38) : (BitVec.ofNat 64 n).toNat < 2 ^ 38 := by
  rw [BitVec.toNat_ofNat]; exact lt_of_le_of_lt (Nat.mod_le _ _) h

/-- What COUNT leaves meets what FT_VALID vouches for (R43, R201). -/
theorem freqOk_count {s : State} (h : s.inLen.toNat ≤ s.params.ibufBytes) : FreqOk s.params.ibufBytes
    (countInput s).freq (countInput s).symcount := by
  have hl := s.inLen.isLt
  refine ⟨?_, ?_⟩
  · show (BitVec.ofNat 9 (distinct (tally s.inputBytes))).toNat = distinct (tally s.inputBytes)
    have := distinct_le (tally s.inputBytes)
    rw [BitVec.toNat_ofNat, Nat.mod_eq_of_lt (by omega)]
  · show ((tally s.inputBytes).toList.map BitVec.toNat).sum ≤ _
    rw [tally_sum (by simpa using hl)]
    simpa using h

/-- A state whose only news are OBUF, PAD_OUT and TOTAL_BITS keeps the invariant. -/
theorem pack_inv {s : State} (hs : s.Inv) (bytes : List Byte) (pad t : Nat) (hb : bytes.length ≤ s.params.obufBytes)
    (ht : t < 2 ^ 38) :
    ((((s.setOutput bytes).setPadOut pad).setTotalBits t).complete .noError).Inv :=
  inv_of hs rfl rfl (outInv_setOutput hs.params hb _ rfl rfl rfl) (fun _ => ofNat64_lt ht)
    (fun h => nomatch h) hs.freqOk hs.treeOk hs.ctOk

/-- A state whose only news are OBUF and TOTAL_BITS keeps the invariant. -/
theorem unpack_inv {s : State} (hs : s.Inv) (bytes : List Byte) (t : Nat) (hb : bytes.length ≤ s.params.obufBytes)
    (ht : t < 2 ^ 38) :
    (((s.setOutput bytes).setTotalBits t).complete .noError).Inv :=
  inv_of hs rfl rfl (outInv_setOutput hs.params hb _ rfl rfl rfl) (fun _ => ofNat64_lt ht)
    (fun h => nomatch h) hs.freqOk hs.treeOk hs.ctOk

/-- A command's success keeps the invariant. -/
theorem body_inv {i : Instr} {s u : State} (hs : s.Inv) (hr : precheck (readsIbuf i) (neededFlag i) s = none) (hu :
    commandBody i s = .ok u) :
    (u.complete .noError).Inv := by
  obtain ⟨hl, hf⟩ := (precheck_eq_none_iff _ _ _).mp hr
  have hw := hs.params
  simp only [Params.wf, Bool.and_eq_true, beq_iff_eq, decide_eq_true_eq] at hw
  have hlen : s.inputBytes.length = s.inLen.toNat := inputBytes_length s
  cases i <;> simp only [commandBody] at hu
  · cases hu
    exact inv_of hs rfl rfl ((OutInv.of hs).same rfl rfl rfl) hs.totalBits
      (fun h => nomatch h) hs.freqOk hs.treeOk hs.ctOk
  · cases hu
    refine inv_of hs rfl rfl ⟨hs.obufWf, hs.obufBound, fun i hi => ?_⟩ (fun _ => show (0#64).toNat < 2 ^ 38 by decide)
      (fun h => nomatch h) (fun h => nomatch h) (fun h => nomatch h) (fun h => nomatch h)
    exact absurd hi (Nat.not_lt_zero i)
  · cases hu
    exact inv_of hs rfl rfl ((OutInv.of hs).same rfl rfl rfl) hs.totalBits (fun h => nomatch h) (fun _ => freqOk_count
      (hl rfl)) (fun h => nomatch h) (fun h => nomatch h)
  · cases hu
    have hfo := hs.freqOk (hf .ft rfl)
    refine inv_of hs rfl rfl ((OutInv.of hs).same rfl rfl rfl) hs.totalBits (fun h => nomatch h) hs.freqOk
      (fun _ => ?_) (fun h => nomatch h)
    have := buildTree_treeOk s
    rw [← hfo.size] at this
    exact this
  · obtain ⟨codes, hc, rfl⟩ := genCodes_ok hu
    have ht := hs.treeOk (hf .tree rfl)
    obtain ⟨codes', hc'⟩ := ht.treeCodes
    have : codes = codes' := by have := codesOf_treeCodes hc'; rw [hc] at this; exact Option.some.inj this
    subst this
    exact inv_of hs rfl rfl ((OutInv.of hs).same rfl rfl rfl) hs.totalBits (fun h => nomatch h) hs.freqOk hs.treeOk
      (fun _ => ⟨hf .tree rfl, codes, hc', hc'.tableOf_holds⟩)
  · obtain ⟨desc, hd, hle, rfl⟩ := encodeTree_ok hu
    exact inv_of hs rfl rfl (outInv_setOutput hs.params hle _ rfl rfl rfl) hs.totalBits
      (fun h => nomatch h) hs.freqOk hs.treeOk hs.ctOk
  · obtain ⟨_, hle, _, rfl⟩ := packInput_ok hu
    have h1 := codeLength_le s.ct (s.inputPass 1)
    have h2 := hl rfl
    rw [inputPass_length] at h1
    exact pack_inv hs _ _ _ (by rw [writtenBytes_length]; exact hle) (by omega)
  · obtain ⟨pt, hpt, rfl⟩ := decodeTree_ok hu
    obtain ⟨h1, h2⟩ := parseTree_treeOk hpt
    refine inv_of hs rfl rfl ((OutInv.of hs).same rfl rfl rfl) hs.totalBits (fun h => nomatch h) (fun h => nomatch h)
      (fun _ => ?_) (fun h => nomatch h)
    show TreeOk (BitVec.ofNat 9 pt.count).toNat _ _
    rw [BitVec.toNat_ofNat, Nat.mod_eq_of_lt (by omega)]
    exact h2
  · obtain ⟨out, m, hwk, rfl⟩ := unpackInput_ok hu
    obtain ⟨h1, h2, h3, _⟩ := walk_ok hwk
    have := hl rfl
    exact unpack_inv hs _ _ h3 (by omega)
  · obtain ⟨g, hg, hwc⟩ := compressInput_ok hu
    obtain ⟨codes', hc'⟩ := (buildTree_treeOk (countInput s)).treeCodes
    rw [genCodes_of_treeCodes hc'] at hg
    cases hg
    obtain ⟨desc, hd, hle, _, rfl⟩ := writeContainer_ok hwc
    have hfo := freqOk_count (hl rfl)
    have hto := buildTree_treeOk (countInput s)
    have hl' : s.inputBytes.length < 2 ^ 32 := by rw [hlen]; exact s.inLen.isLt
    have hwl : weightedLength (tally s.inputBytes) (tableOf codes') = codeLength (tableOf codes') s.inputBytes :=
      weightedLength_tally hl' _
    have hsz : (countInput s).symcount.toNat = distinct (countInput s).freq := hfo.size
    have hg : ({ buildTree (countInput s) with ct := tableOf codes', ctValid := true } : State).Inv := by
      refine inv_of hs rfl rfl ((OutInv.of hs).same rfl rfl rfl) hs.totalBits hs.busy (fun _ => hfo) (fun _ => ?_)
        (fun _ => ⟨rfl, codes', ?_, hc'.tableOf_holds⟩)
      · show TreeOk (countInput s).symcount.toNat _ _
        rw [hsz]; exact hto
      · show TreeCodes (countInput s).symcount.toNat _ _ _
        rw [hsz]; exact hc'
    refine pack_inv hg _ _ _ ?_ ?_
    · rw [writtenBytes_length]
      exact hle
    · have h1 := codeLength_le (tableOf codes') s.inputBytes
      have h2 := hl rfl
      show weightedLength (tally s.inputBytes) (tableOf codes') < _
      rw [hwl]; omega
  · obtain ⟨pt, pad, rest, out, m, hpt, hg, hwk, rfl⟩ := decompressInput_ok hu
    obtain ⟨h1, h2⟩ := parseTree_treeOk hpt
    obtain ⟨w1, w2, w3, _⟩ := walk_ok hwk
    have hdl : (s.inputBytes.drop (headerLength (streamBits s.inputBytes) rest)).length ≤ s.inputBytes.length :=
      by simp
    have := hl rfl
    have hm : m < 2 ^ 38 := by omega
    generalize hout : out = bytes at *
    refine inv_of hs rfl rfl (outInv_setOutput hs.params w3 _ rfl rfl rfl) (fun _ => ofNat64_lt hm)
      (fun h => nomatch h) (fun h => nomatch h) (fun _ => ?_) (fun h => nomatch h)
    show TreeOk (BitVec.ofNat 9 pt.count).toNat _ _
    rw [BitVec.toNat_ofNat, Nat.mod_eq_of_lt (by omega)]
    exact h2

/-- A pre-check error keeps the invariant. -/
theorem complete_inv {s : State} (hs : s.Inv) (e : ErrCode) : (s.complete e).Inv :=
  inv_of hs rfl rfl ((OutInv.of hs).same rfl rfl rfl) hs.totalBits (fun h => nomatch h) hs.freqOk hs.treeOk hs.ctOk

/-- The abort rule keeps the invariant (R503). -/
theorem abort_inv {s : State} (hs : s.Inv) {i : Instr} {e : ErrCode} (h : commandBody i s = .error (.raised e)) :
    (s.abort (commandWrites i) e).Inv := by
  have hc := commandBody_raised h
  have key : commandWrites i = Writes.pack ∨ commandWrites i = Writes.unpack ∨ (commandWrites i).flags = true := by
    cases i <;> simp_all [canRaise, commandWrites, Writes.tdec, Writes.compress, Writes.decompress]
  rcases key with k | k | k
  · rw [k]
    exact inv_of hs rfl rfl (outInv_empty rfl rfl) (fun h => nomatch h)
      (fun h => nomatch h) hs.freqOk hs.treeOk hs.ctOk
  · rw [k]
    exact inv_of hs rfl rfl (outInv_empty rfl rfl) (fun h => nomatch h)
      (fun h => nomatch h) hs.freqOk hs.treeOk hs.ctOk
  · refine inv_of hs rfl rfl (outInv_empty rfl rfl) (fun h => ?_) (fun h => nomatch h) (fun h => ?_) (fun h => ?_)
      (fun h => ?_)
    · simp [State.abort] at h
      simp [State.abort, h]; exact hs.totalBits h.2
    all_goals simp [State.abort, k] at h

/-- Every command keeps the invariant. -/
theorem exec_inv {i : Instr} {s t : State} (hs : s.Inv) (h : exec i s = .next t) : t.Inv := by
  rcases exec_next h with ⟨e, _, rfl⟩ | ⟨hr, ⟨u, hu, rfl⟩ | ⟨e, he, rfl⟩⟩
  · exact complete_inv hs e
  · exact body_inv hs hr hu
  · exact abort_inv hs he

/-- A step that leaves the results alone keeps the invariant. -/
theorem inv_frame {s t : State} (hs : s.Inv) (h1 : t.params = s.params) (h2 : t.ibuf = s.ibuf) (h3 : t.obuf = s.obuf)
    (h4 : t.outLen = s.outLen)
   (h5 : t.totalBits = s.totalBits) (h6 : t.totalBitsUnspec = s.totalBitsUnspec) (h7 : t.phase = .busy →
     t.done = false ∧ t.err = .noError)
   (h8 : t.ftValid = s.ftValid) (h9 : t.treeValid = s.treeValid) (h10 : t.ctValid = s.ctValid) (h11 : t.freq = s.freq)
     (h12 : t.symcount = s.symcount)
   (h13 : t.nodes = s.nodes) (h14 : t.root = s.root) (h15 : t.ct = s.ct) : t.Inv := by
  refine inv_of hs h1 h2 ((OutInv.of hs).same h3 h4 h1) (by rw [h5, h6]; exact hs.totalBits) h7 ?_ ?_ ?_
  · rw [h8, h1, h11, h12]; exact hs.freqOk
  · rw [h9, h12, h13, h14]; exact hs.treeOk
  · rw [h10, h9, h12, h13, h14, h15]; exact hs.ctOk

/-- A read of WAIT keeps the invariant. -/
theorem polled_inv {s : State} (hs : s.Inv) (w : Word) : (s.polled w).Inv := by
  rcases polled_cases w s with ⟨_, hp⟩ | ⟨_,
    hp⟩ <;> rw [hp] <;> exact inv_frame hs rfl rfl rfl rfl rfl rfl hs.busy rfl rfl rfl rfl rfl rfl rfl rfl

theorem writeWord_bound {m : Memory} {n i : Nat} {w : Word} (h : ∀ c ∈ m, c.1 < n) (hi : i + 3 < n) :
    ∀ c ∈ m.writeWord i w, c.1 < n := by
  intro c hc
  unfold Memory.writeWord at hc
  rcases Memory.write_indices _ _ _ hc with rfl | hc
  · simpa using hi
  rcases Memory.write_indices _ _ _ hc with rfl | hc
  · simp; omega
  rcases Memory.write_indices _ _ _ hc with rfl | hc
  · simp; omega
  rcases Memory.write_indices _ _ _ hc with rfl | hc
  · simp; omega
  · exact h c hc

/-- A host write keeps the invariant. -/
theorem hostWrite_inv {s t : State} (hs : s.Inv) {addr w : Word} (h : s.hostWrite addr w = .next t) : t.Inv := by
  have hw := hs.params
  simp only [Params.wf, Bool.and_eq_true, beq_iff_eq, decide_eq_true_eq] at hw
  rcases hostWrite_next h with ⟨hc, ⟨hp, rfl⟩ | ⟨hp, rfl⟩⟩ | ⟨hp, ⟨_, rfl⟩ | ⟨_, rfl⟩ | ⟨_, rfl⟩ | ⟨_, rfl⟩ | ⟨i, hi,
    rfl⟩⟩ | ⟨_, hne, rfl⟩
  · exact inv_frame hs rfl rfl rfl rfl rfl rfl hs.busy rfl rfl rfl rfl rfl rfl rfl rfl
  · exact inv_frame hs rfl rfl rfl rfl rfl rfl (fun _ => ⟨rfl, rfl⟩) rfl rfl rfl rfl rfl rfl rfl rfl
  · exact inv_frame hs rfl rfl rfl rfl rfl rfl hs.busy rfl rfl rfl rfl rfl rfl rfl rfl
  · exact inv_frame hs rfl rfl rfl rfl rfl rfl hs.busy rfl rfl rfl rfl rfl rfl rfl rfl
  · exact inv_frame hs rfl rfl rfl rfl rfl rfl hs.busy rfl rfl rfl rfl rfl rfl rfl rfl
  · exact inv_frame hs rfl rfl rfl rfl rfl rfl hs.busy rfl rfl rfl rfl rfl rfl rfl rfl
  · refine ⟨hs.params, Memory.writeWord_wf _ _ _ hs.ibufWf, writeWord_bound hs.ibufBound ?_, hs.obufWf, hs.obufBound,
      hs.outLen, hs.totalBits, hs.busy, hs.freqOk, hs.treeOk, hs.ctOk⟩
    have : aligned addr % 4 = 0 := by unfold aligned; omega
    rcases regionOf_cases s.params addr with ⟨h, hr'⟩ | ⟨h1, h2, hr'⟩ | ⟨h1, _, h3, hr'⟩ | ⟨h1, h2, _,
      hr'⟩ <;> rw [hr'] at hi <;> simp at hi
    subst hi
    show _ + 3 < s.params.ibufBytes
    omega
  · exact hs

/-- Where the invariant holds every command answers a next state. -/
theorem exec_total {i : Instr} {s : State} (hs : s.Inv) : ∃ t, exec i s = .next t := by
  rw [exec_eq]
  rcases completion_cases (readsIbuf i) (neededFlag i) (commandWrites i) (commandBody i) s with ⟨e, _, h⟩ | ⟨hr, ⟨t,
    _, h⟩ | ⟨e, _, h⟩ | ⟨hb, h⟩⟩
  · exact ⟨_, h⟩
  · exact ⟨_, h⟩
  · exact ⟨_, h⟩
  · exact absurd hb (commandBody_ne_broken hs.params hs.treeOk hr)

end Sys2Proof.Machine
end

