-- ==== Sys2Proof/Laws/Merge.lean ====
section
/-! SUPPORT. The order in which the tree builder joins entries (R221 to R224) and what its sums are (R228):
  the queue is
sorted, it holds exactly the entries that wait, and its total never changes. -/

namespace Sys2Proof.Machine

/-- `waitingAt` for an arena that is still a list. -/
def waitsIn (arena : List Node) (k c : Nat) : Prop :=
  c < k ∧ ∀ (j : Nat) (nd : Node), j < k → arena[j]? = some nd → nd.leaf = false →
    nd.left.toNat ≠ c ∧ nd.right.toNat ≠ c

/-- `keyBefore` for an arena that is still a list. -/
def keyBeforeIn (arena : List Node) (i j : Nat) : Prop :=
  (freqAt arena i).toNat < (freqAt arena j).toNat ∨ ((freqAt arena i).toNat = (freqAt arena j).toNat ∧ i < j)

/-- Entry `k` joins the two lowest entries that wait when it is made (R224), and its sum does not wrap while the total
`w` is below 2^32. -/
def MadeIn (w : Nat) (arena : List Node) (k : Nat) : Prop :=
  ∃ a b na nb, arena[a]? = some na ∧ arena[b]? = some nb ∧
    arena[k]? = some (internalNode a b (na.freq + nb.freq)) ∧ a < 512 ∧ b < 512 ∧
    waitsIn arena k a ∧ waitsIn arena k b ∧ keyBeforeIn arena a b ∧
    (∀ c, waitsIn arena k c → c ≠ a → c ≠ b → keyBeforeIn arena b c) ∧
    (w < 2 ^ 32 → na.freq.toNat + nb.freq.toNat < 2 ^ 32)

/-- The total of the queue's frequencies. -/
def queueTotal (pq : List QueueEntry) : Nat := (pq.map fun e => e.freq.toNat).sum

/-- What the queue is, between two merges (R222, R224). -/
structure QueueOk (arena : List Node) (pq : List QueueEntry) : Prop where
  sorted : pq.Pairwise fun a b => keyLt a b = true
  held : ∀ e ∈ pq, e.seq < arena.length ∧ e.freq = freqAt arena e.seq
  waits : ∀ c, waitsIn arena arena.length c ↔ c ∈ pq.map QueueEntry.seq
  older : ∀ (j : Nat) (nd : Node), arena[j]? = some nd → nd.leaf = false →
    nd.left.toNat < arena.length ∧ nd.right.toNat < arena.length

theorem keyLt_iff (a b : QueueEntry) :
    keyLt a b = true ↔ a.freq.toNat < b.freq.toNat ∨ (a.freq.toNat = b.freq.toNat ∧ a.seq < b.seq) := by
  simp [keyLt]

theorem keyLt_trans {a b c : QueueEntry} (h1 : keyLt a b = true) (h2 : keyLt b c = true) : keyLt a c = true := by
  rw [keyLt_iff] at *
  omega

/-- Sorted insertion keeps the queue sorted (R222). -/
theorem insertEntry_sorted {k : QueueEntry} {pq : List QueueEntry} (h : pq.Pairwise fun a b => keyLt a b = true)
    (hs : ∀ e ∈ pq, e.seq < k.seq) : (insertEntry k pq).Pairwise fun a b => keyLt a b = true := by
  induction pq with
  | nil => simp [insertEntry]
  | cons x xs ih =>
    obtain ⟨hx, hxs⟩ := List.pairwise_cons.mp h
    unfold insertEntry
    split
    · next hk =>
      refine List.pairwise_cons.mpr ⟨fun e he => ?_, h⟩
      rcases List.mem_cons.mp he with rfl | he
      · exact hk
      · exact keyLt_trans hk (hx e he)
    · next hk =>
      refine List.pairwise_cons.mpr ⟨fun e he => ?_, ih hxs fun e he => hs e (List.mem_cons_of_mem _ he)⟩
      rcases List.mem_cons.mp ((insertEntry_perm k xs).subset he) with rfl | he
      · rw [keyLt_iff] at hk ⊢
        have := hs x List.mem_cons_self
        omega
      · exact hx e he

theorem queueTotal_perm {p q : List QueueEntry} (h : p.Perm q) : queueTotal p = queueTotal q :=
  (h.map _).sum_eq

theorem queueTotal_insert (k : QueueEntry) (pq : List QueueEntry) :
    queueTotal (insertEntry k pq) = k.freq.toNat + queueTotal pq := by
  rw [queueTotal_perm (insertEntry_perm k pq)]
  simp [queueTotal]

theorem waitsIn_append {arena : List Node} {k c : Nat} (h : k ≤ arena.length) (more : List Node) :
    waitsIn (arena ++ more) k c ↔ waitsIn arena k c := by
  unfold waitsIn
  refine and_congr_right fun _ => forall_congr' fun j => forall_congr' fun nd => imp_congr_right fun hj => ?_
  rw [List.getElem?_append_left (by omega)]

theorem keyBeforeIn_append {arena : List Node} {i j : Nat} (hi : i < arena.length) (hj : j < arena.length)
    (more : List Node) : keyBeforeIn (arena ++ more) i j ↔ keyBeforeIn arena i j := by
  unfold keyBeforeIn
  rw [freqAt_append hi, freqAt_append hj]

theorem MadeIn.append {w : Nat} {arena : List Node} {k : Nat} (h : MadeIn w arena k) (more : List Node) :
    MadeIn w (arena ++ more) k := by
  obtain ⟨a, b, na, nb, h1, h2, h3, h4, h5, h6, h7, h8, h9, h10⟩ := h
  have ha := (List.getElem?_eq_some_iff.mp h1).1
  have hb := (List.getElem?_eq_some_iff.mp h2).1
  have hk := (List.getElem?_eq_some_iff.mp h3).1
  refine ⟨a, b, na, nb, ?_, ?_, ?_, h4, h5, (waitsIn_append hk.le _).mpr h6, (waitsIn_append hk.le _).mpr h7,
    (keyBeforeIn_append ha hb _).mpr h8, fun c hc hca hcb => ?_, h10⟩
  · rw [List.getElem?_append_left ha, h1]
  · rw [List.getElem?_append_left hb, h2]
  · rw [List.getElem?_append_left hk, h3]
  · have hc' := (waitsIn_append hk.le _).mp hc
    have : c < arena.length := lt_trans hc'.1 hk
    exact (keyBeforeIn_append hb this _).mpr (h9 c hc' hca hcb)

/-- One merge (R224). -/
theorem QueueOk.merge {arena : List Node} {a b : QueueEntry} {pq : List QueueEntry}
    (h : QueueOk arena (a :: b :: pq)) (hl : arena.length ≤ 511) :
    QueueOk (arena ++ [internalNode a.seq b.seq (a.freq + b.freq)])
      (insertEntry ⟨a.freq + b.freq, arena.length⟩ pq) ∧
    MadeIn (queueTotal (a :: b :: pq)) (arena ++ [internalNode a.seq b.seq (a.freq + b.freq)]) arena.length := by
  set new := internalNode a.seq b.seq (a.freq + b.freq) with hnew
  obtain ⟨hla, hfa⟩ := h.held a (by simp)
  obtain ⟨hlb, hfb⟩ := h.held b (by simp)
  have hpq : ∀ e ∈ pq, e.seq < arena.length ∧ e.freq = freqAt arena e.seq := fun e he => h.held e (by simp [he])
  obtain ⟨hsa, hsbp⟩ := List.pairwise_cons.mp h.sorted
  obtain ⟨hsb, hsp⟩ := List.pairwise_cons.mp hsbp
  have hlen : (arena ++ [new]).length = arena.length + 1 := by simp
  have hleft : new.left.toNat = a.seq := by
    rw [hnew, internalNode, BitVec.toNat_ofNat, Nat.mod_eq_of_lt (by omega)]
  have hright : new.right.toNat = b.seq := by
    rw [hnew, internalNode, BitVec.toNat_ofNat, Nat.mod_eq_of_lt (by omega)]
  have hat : (arena ++ [new])[arena.length]? = some new := by simp
  -- an entry later in the queue has another seq
  have hdiff : ∀ x y : QueueEntry, keyLt x y = true → x.freq = freqAt arena x.seq → y.freq = freqAt arena y.seq →
      x.seq ≠ y.seq := by
    intro x y hk hx hy he
    rw [keyLt_iff, hx, hy, he] at hk
    omega
  have hne : ∀ e ∈ pq, e.seq ≠ a.seq ∧ e.seq ≠ b.seq := fun e he =>
    ⟨(hdiff a e (hsa e (by simp [he])) hfa (hpq e he).2).symm, (hdiff b e (hsb e he) hfb (hpq e he).2).symm⟩
  refine ⟨⟨?_, ?_, ?_, ?_⟩, ?_⟩
  · exact insertEntry_sorted hsp fun e he => (hpq e he).1
  · intro e he
    rcases List.mem_cons.mp ((insertEntry_perm _ pq).subset he) with rfl | he
    · refine ⟨by simp, ?_⟩
      simp [freqAt, List.getD_eq_getElem?_getD, hnew, internalNode]
    · exact ⟨by rw [hlen]; have := (hpq e he).1; omega, by rw [freqAt_append (hpq e he).1]; exact (hpq e he).2⟩
  · intro c
    rw [((insertEntry_perm _ pq).map QueueEntry.seq).mem_iff, List.map_cons, List.mem_cons, hlen]
    constructor
    · rintro ⟨hc, hw⟩
      rcases Nat.lt_succ_iff_lt_or_eq.mp hc with hc | rfl
      · right
        have : waitsIn arena arena.length c := by
          rw [← waitsIn_append (Nat.le_refl _) [new]]
          exact ⟨hc, fun j nd hj => hw j nd (by omega)⟩
        rcases List.mem_cons.mp ((h.waits c).mp this) with rfl | hm
        · exact absurd hleft (hw arena.length new (by omega) hat rfl).1
        · rcases List.mem_cons.mp hm with rfl | hm
          · exact absurd hright (hw arena.length new (by omega) hat rfl).2
          · exact hm
      · exact .inl rfl
    · rintro (rfl | hc)
      · refine ⟨by simp, fun j nd hj hnd hl' => ?_⟩
        show _ ≠ arena.length ∧ _ ≠ arena.length
        rcases Nat.lt_succ_iff_lt_or_eq.mp hj with hj | rfl
        · -- an older node's children are older than itself
          rw [List.getElem?_append_left hj] at hnd
          have := h.older j nd hnd hl'
          omega
        · rw [hat] at hnd
          cases hnd
          omega
      · obtain ⟨e, he, rfl⟩ := List.mem_map.mp hc
        have hw := (h.waits e.seq).mpr (by simp only [List.map_cons, List.mem_cons]; exact .inr (.inr hc))
        refine ⟨by have := (hpq e he).1; omega, fun j nd hj hnd hl' => ?_⟩
        rcases Nat.lt_succ_iff_lt_or_eq.mp hj with hj | rfl
        · rw [List.getElem?_append_left hj] at hnd
          exact hw.2 j nd hj hnd hl'
        · rw [hat] at hnd
          cases hnd
          rw [hleft, hright]
          exact ⟨fun h => (hne e he).1 h.symm, fun h => (hne e he).2 h.symm⟩
  · intro j nd hj hl'
    rw [hlen]
    rcases Nat.lt_succ_iff_lt_or_eq.mp (hlen ▸ (List.getElem?_eq_some_iff.mp hj).1 :
      j < arena.length + 1) with hlt | rfl
    · rw [List.getElem?_append_left hlt] at hj
      have := h.older j nd hj hl'
      omega
    · rw [hat] at hj
      cases hj
      omega
  · have wa := (h.waits a.seq).mpr (by simp)
    have wb := (h.waits b.seq).mpr (by simp)
    refine ⟨a.seq, b.seq, arena.getD a.seq Node.unused, arena.getD b.seq Node.unused, ?_, ?_, ?_, by omega, by omega,
      (waitsIn_append (Nat.le_refl _) _).mpr wa, (waitsIn_append (Nat.le_refl _) _).mpr wb,
      (keyBeforeIn_append hla hlb _).mpr ?_, ?_, ?_⟩
    · rw [List.getElem?_append_left hla, getElem?_of_lt hla]
    · rw [List.getElem?_append_left hlb, getElem?_of_lt hlb]
    · rw [hat, hnew, hfa, hfb]; rfl
    · have := hsa b (by simp)
      rw [keyLt_iff, hfa, hfb] at this
      exact this
    · intro c hc hca hcb
      have hc' := (waitsIn_append (Nat.le_refl _) _).mp hc
      have hm := (h.waits c).mp hc'
      simp only [List.map_cons, List.mem_cons] at hm
      rcases hm with rfl | rfl | hm
      · exact absurd rfl hca
      · exact absurd rfl hcb
      · obtain ⟨e, he, rfl⟩ := List.mem_map.mp hm
        refine (keyBeforeIn_append hlb (hpq e he).1 _).mpr ?_
        have := hsb e he
        rw [keyLt_iff, hfb, (hpq e he).2] at this
        exact this
    · intro hw
      simp only [queueTotal, List.map_cons, List.sum_cons, hfa, hfb] at hw
      show (freqAt arena a.seq).toNat + (freqAt arena b.seq).toNat < _
      omega

/-- The merge loop (R224, R225): it only adds entries, each of them made from the two lowest that wait,
  and it keeps the
total. -/
theorem QueueOk.mergeLoop {fuel : Nat} {arena : List Node} {pq : List QueueEntry} (h : QueueOk arena pq)
    (hl : arena.length + pq.length ≤ 512) :
    (∃ more, (mergeLoop fuel arena pq).1 = arena ++ more) ∧
    (∀ k, arena.length ≤ k → k < (mergeLoop fuel arena pq).1.length →
      MadeIn (queueTotal pq) (mergeLoop fuel arena pq).1 k) ∧
    QueueOk (mergeLoop fuel arena pq).1 (mergeLoop fuel arena pq).2 ∧
    (queueTotal pq < 2 ^ 32 → queueTotal (mergeLoop fuel arena pq).2 = queueTotal pq) := by
  have stop : (∃ more, arena = arena ++ more) ∧ (∀ k, arena.length ≤ k → k < arena.length →
      MadeIn (queueTotal pq) arena k) ∧ QueueOk arena pq ∧ (queueTotal pq < 2 ^ 32 → queueTotal pq = queueTotal pq) :=
    ⟨⟨[], by simp⟩, fun k h1 h2 => by omega, h, fun _ => rfl⟩
  induction fuel generalizing arena pq with
  | zero => simpa only [Machine.mergeLoop] using stop
  | succ fuel ih =>
    match pq, h, hl, stop with
    | [], _, _, stop => simpa only [Machine.mergeLoop] using stop
    | [_], _, _, stop => simpa only [Machine.mergeLoop] using stop
    | a :: b :: pq, h, hl, _ =>
      simp only [List.length_cons] at hl
      obtain ⟨hq, hm⟩ := h.merge (by omega)
      have hl' : (arena ++ [internalNode a.seq b.seq (a.freq + b.freq)]).length +
          (insertEntry ⟨a.freq + b.freq, arena.length⟩ pq).length ≤ 512 := by
        simp only [List.length_append, List.length_singleton, insertEntry_length]
        omega
      obtain ⟨⟨more, h1⟩, h2, h3, h4⟩ := ih hq hl'
        ⟨⟨[], by simp⟩, fun k h1 h2 => by omega, hq, fun _ => rfl⟩
      simp only [Machine.mergeLoop]
      have htot : queueTotal (a :: b :: pq) < 2 ^ 32 →
          queueTotal (insertEntry ⟨a.freq + b.freq, arena.length⟩ pq) = queueTotal (a :: b :: pq) := by
        intro hw
        simp only [queueTotal, List.map_cons, List.sum_cons] at hw
        rw [queueTotal_insert, queueTotal, queueTotal]
        simp only [List.map_cons, List.sum_cons, BitVec.toNat_add]
        rw [Nat.mod_eq_of_lt (by omega)]
        omega
      have hmore := h1
      rw [List.append_assoc] at h1
      refine ⟨⟨_, h1⟩, fun k hk1 hk2 => ?_, h3, fun hw => (h4 (by rw [htot hw]; exact hw)).trans (htot hw)⟩
      rcases Nat.lt_or_eq_of_le hk1 with hk1 | rfl
      · obtain ⟨x, y, nx, ny, g1, g2, g3, g4, g5, g6, g7, g8, g9, g10⟩ := h2 k (by simpa using hk1) hk2
        exact ⟨x, y, nx, ny, g1, g2, g3, g4, g5, g6, g7, g8, g9, fun hw => g10 (by rw [htot hw]; exact hw)⟩
      · rw [hmore]
        exact hm.append more

/-- The queue before the first merge (R220, R222). -/
theorem queueOk_leaves (freq : Vector Word 256) : QueueOk (leaves freq) (leafQueue (leaves freq)) := by
  set ls := leaves freq with hls
  have hleaf : ∀ (j : Nat) (nd : Node), ls[j]? = some nd → nd.leaf = true := by
    intro j nd hj
    obtain ⟨b, hb, _⟩ := mem_leaves (List.mem_of_getElem? hj)
    rw [hb]; rfl
  have key : ∀ (ps : List (Node × Nat)) (k : Nat) (acc : List QueueEntry), ps.map Prod.snd = List.range' k ps.length →
      (acc.Pairwise fun a b => keyLt a b = true) → (∀ e ∈ acc, e.seq < k) →
      ((ps.foldl (fun pq p => insertEntry ⟨p.1.freq, p.2⟩ pq) acc).Pairwise fun a b => keyLt a b = true) ∧
      (ps.foldl (fun pq p => insertEntry ⟨p.1.freq, p.2⟩ pq) acc).Perm
        ((ps.map fun p => (⟨p.1.freq, p.2⟩ : QueueEntry)) ++ acc) := by
    intro ps
    induction ps with
    | nil => intro k acc _ h _; exact ⟨h, List.Perm.refl _⟩
    | cons p ps ih =>
      intro k acc hk h hacc
      simp only [List.map_cons, List.length_cons, List.range'_succ, List.cons.injEq] at hk
      obtain ⟨hp, hk⟩ := hk
      rw [List.foldl_cons]
      obtain ⟨h1, h2⟩ := ih (k + 1) (insertEntry ⟨p.1.freq, p.2⟩ acc) hk
        (insertEntry_sorted h fun e he => by have := hacc e he; simp only; omega)
        (fun e he => by
          rcases List.mem_cons.mp ((insertEntry_perm _ acc).subset he) with rfl | he
          · simp only; omega
          · have := hacc e he; omega)
      refine ⟨h1, h2.trans ?_⟩
      exact ((insertEntry_perm _ _).append_left _).trans (by simp)
  obtain ⟨h1, h2⟩ := key ls.zipIdx 0 [] (by rw [List.zipIdx_map_snd]; simp) List.Pairwise.nil (by simp)
  have hq : (leafQueue ls).Perm (ls.zipIdx.map fun p => (⟨p.1.freq, p.2⟩ : QueueEntry)) :=
    by simpa [leafQueue] using h2
  refine ⟨h1, fun e he => ?_, fun c => ?_, fun j nd hj hl => ?_⟩
  · obtain ⟨p, hp, rfl⟩ := List.mem_map.mp (hq.subset he)
    have hi := List.mem_zipIdx_iff_getElem?.mp hp
    exact ⟨(List.getElem?_eq_some_iff.mp hi).1, by simp [freqAt, List.getD_eq_getElem?_getD, hi]⟩
  · rw [(hq.map QueueEntry.seq).mem_iff, List.map_map,
      show (QueueEntry.seq ∘ fun p : Node × Nat => (⟨p.1.freq, p.2⟩ : QueueEntry)) = Prod.snd from rfl,
      List.zipIdx_map_snd, ← List.range_eq_range', List.mem_range]
    refine ⟨fun h => h.1, fun h => ⟨h, fun j nd _ hj hl => ?_⟩⟩
    rw [hleaf j nd hj] at hl
    cases hl
  · rw [hleaf j nd hj] at hl
    cases hl

theorem queueTotal_leafQueue (freq : Vector Word 256) :
    queueTotal (leafQueue (leaves freq)) = (freq.toList.map BitVec.toNat).sum := by
  have hq : (leafQueue (leaves freq)).Perm
      ((leaves freq).zipIdx.map fun p => (⟨p.1.freq, p.2⟩ : QueueEntry)) := by
    have : ∀ (ps : List (Node × Nat)) (acc : List QueueEntry),
        (ps.foldl (fun pq p => insertEntry ⟨p.1.freq, p.2⟩ pq) acc).Perm
          ((ps.map fun p => (⟨p.1.freq, p.2⟩ : QueueEntry)) ++ acc) := by
      intro ps
      induction ps with
      | nil => intro acc; exact List.Perm.refl _
      | cons p ps ih =>
        intro acc
        exact (ih _).trans (((insertEntry_perm _ _).append_left _).trans (by simp))
    simpa [leafQueue] using this (leaves freq).zipIdx []
  rw [queueTotal_perm hq, queueTotal, List.map_map]
  have h1 : ((fun e : QueueEntry => e.freq.toNat) ∘ fun p : Node × Nat => (⟨p.1.freq, p.2⟩ : QueueEntry)) =
      (fun nd : Node => nd.freq.toNat) ∘ Prod.fst := rfl
  rw [h1, ← List.map_map, List.zipIdx_map_fst, leaves, List.map_map]
  have h2 : ((fun nd : Node => nd.freq.toNat) ∘ fun p : Word × Nat => leafNode (BitVec.ofNat 8 p.2) p.1) =
      BitVec.toNat ∘ Prod.fst := rfl
  rw [h2]
  have h3 : ∀ ps : List (Word × Nat), ((ps.filter fun p => p.1.toNat != 0).map (BitVec.toNat ∘ Prod.fst)).sum =
      (ps.map (BitVec.toNat ∘ Prod.fst)).sum := by
    intro ps
    induction ps with
    | nil => rfl
    | cons p ps ih =>
      rw [List.filter_cons]
      split
      · simp only [List.map_cons, List.sum_cons, ih]
      · next h =>
        have : p.1.toNat = 0 := by simpa using h
        simp only [List.map_cons, List.sum_cons, ih, Function.comp_apply, this, Nat.zero_add]
  rw [h3, ← List.map_map, List.zipIdx_map_fst]

/-- BUILD's arena (R223 to R225, R228): the leaves first, then the merges; the last entry of the queue, and its
frequency. -/
theorem huffman_merges (freq : Vector Word 256) :
    (∃ more, (huffman freq).1 = leaves freq ++ more) ∧
    (∀ k, distinct freq ≤ k → k < (huffman freq).1.length →
      MadeIn (freq.toList.map BitVec.toNat).sum (huffman freq).1 k) ∧
    ((freq.toList.map BitVec.toNat).sum < 2 ^ 32 → ∀ r, (huffman freq).2 = some r →
      (freqAt (huffman freq).1 r).toNat = (freq.toList.map BitVec.toNat).sum) := by
  have hle := distinct_le freq
  have hlen := leaves_length freq
  obtain ⟨h1, h2, h3, h4⟩ := (queueOk_leaves freq).mergeLoop (fuel := (leafQueue (leaves freq)).length)
    (by rw [leafQueue_length]; omega)
  rw [queueTotal_leafQueue] at h2 h4
  refine ⟨h1, fun k hk => h2 k (by omega), fun hw r hr => ?_⟩
  obtain ⟨ts, hts⟩ := forest_leaves freq
  obtain ⟨_, hone, _⟩ := hts.mergeLoop (Nat.le_refl _)
  have h4 := h4 hw
  unfold huffman at hr
  simp only at hr
  match hq : (mergeLoop (leafQueue (leaves freq)).length (leaves freq) (leafQueue (leaves freq))).2, hone, hr with
  | [], _, hr => simp at hr
  | [e], _, hr =>
    rw [hq] at h4 h3
    simp only [List.head?_cons, Option.map_some, Option.some.injEq] at hr
    subst hr
    rw [huffman_arena, ← (h3.held e (by simp)).2]
    simpa [queueTotal] using h4

/-- NODE's entries in use are the builder's (R60). -/
theorem getElem_arenaOf {l : List Node} (hl : l.length ≤ 511) {k : Nat} (hk : k < l.length) :
    (arenaOf l)[k]? = l[k]? := by
  rw [arenaOf_getElem? (by omega), getElem?_of_lt hk]

/-- An entry that is in use is one of the builder's (R60). -/
theorem arenaOf_used {l : List Node} {k : Nat} {nd : Node} (h : (arenaOf l)[k]? = some nd) (hu : nd.used = true) :
    k < l.length ∧ l[k]? = some nd := by
  have hk : k < 511 := (Vector.getElem?_eq_some_iff.mp h).1
  rw [arenaOf_getElem? hk] at h
  by_cases hlt : k < l.length
  · exact ⟨hlt, by rw [getElem?_of_lt hlt, h]⟩
  · rw [List.getD_eq_getElem?_getD, List.getElem?_eq_none (by omega)] at h
    cases h; cases hu

/-- The number of entries in use (R225). -/
theorem huffman_length (f : Vector Word 256) : (huffman f).1.length = 2 * distinct f - 1 := by
  by_cases h : distinct f = 0
  · rw [(huffman_spec f).1 h, h]; rfl
  · obtain ⟨_, _, _, _, h, _⟩ := (huffman_spec f).2 (by omega); exact h

theorem nodeFreq_arenaOf {l : List Node} (hl : l.length ≤ 511) {k : Nat} (hk : k < l.length) : nodeFreq
    (arenaOf l) k = (freqAt l k).toNat := by
  unfold nodeFreq freqAt
  rw [arenaOf, tabulate_toList, List.getD_eq_getElem?_getD, List.getElem?_map, List.getElem?_range (by omega)]
  rfl

theorem waits_arenaOf {l : List Node} (hl : l.length ≤ 511) {k c : Nat} (hk : k ≤ l.length) : waitingAt
    (arenaOf l) k c ↔ waitsIn l k c := by
  unfold waitingAt waitsIn
  refine and_congr_right fun _ => forall_congr' fun j => forall_congr' fun nd => imp_congr_right fun hj => ?_
  rw [getElem_arenaOf hl (by omega)]

end Sys2Proof.Machine
end

