-- ==== Sys2Proof/Laws/Reject.lean ====
section
/-! SUPPORT. What the tree-shape parser refuses (R313 to R318): more data never change a verdict it has given, a whole
descriptor never ends as a truncated one does, and a descriptor is determined by its bits. -/

namespace Sys2Proof.Machine

/-- Bits after the ones the parser has seen do not change its verdict, unless it ran out (R311, R317). -/
theorem parseNodes_more {n : Nat} {bits : List Bool} {p : Parse} (more : List Bool) :
    (∀ p' rest, parseNodes n bits p = .ok (p', rest) → parseNodes n (bits ++ more) p = .ok (p', rest ++ more)) ∧
    (parseNodes n bits p = .error .corruptStream → parseNodes n (bits ++ more) p = .error .corruptStream) := by
  induction bits, p using parseNodes.induct (n := n) with
  | case1 bits p hs =>
    refine ⟨fun p' rest h => ?_, fun h => ?_⟩
    · rw [parseNodes_done _ _ hs] at h ⊢
      cases h; rfl
    · rw [parseNodes_done _ _ hs] at h; cases h
  | case2 p slot rest hs =>
    refine ⟨fun p' rest h => ?_, fun h => ?_⟩ <;>
      (rw [parseNodes] at h; simp [hs] at h)
  | case3 p slot rest hs bits hn =>
    refine ⟨fun p' rest h => ?_, fun h => ?_⟩
    · rw [parseNodes] at h; simp [hs, hn] at h
    · rw [List.cons_append, parseNodes]; simp [hs, hn]
  | case4 p slot rest hs hn b7 b6 b5 b4 b3 b2 b1 b0 bits sym hseen =>
    refine ⟨fun p' rest h => ?_, fun h => ?_⟩
    · rw [parseNodes] at h; simp only [hs, hn, if_false] at h
      rw [if_pos hseen] at h; cases h
    · simp only [List.cons_append]
      rw [parseNodes]; simp only [hs, hn, if_false]
      rw [if_pos hseen]
  | case5 p slot rest hs hn b7 b6 b5 b4 b3 b2 b1 b0 bits sym hseen ih =>
    have e : ∀ tail, parseNodes n (true :: b7 :: b6 :: b5 :: b4 :: b3 :: b2 :: b1 :: b0 :: tail) p =
        parseNodes n tail (p.addLeaf slot rest sym) := by
      intro tail
      rw [parseNodes]; simp only [hs, hn, if_false]
      rw [if_neg hseen]
    simp only [List.cons_append, e]
    exact ih
  | case6 p slot rest hs bits hn hb =>
    refine ⟨fun p' rest h => ?_, fun h => ?_⟩ <;>
    · rw [parseNodes] at h
      simp only [hs, hn, if_false] at h
      cases h
  | case7 p slot rest hs bits hn =>
    refine ⟨fun p' rest h => ?_, fun h => ?_⟩
    · rw [parseNodes] at h; simp [hs, hn] at h
    · rw [List.cons_append, parseNodes]; simp [hs, hn]
  | case8 p slot rest hs bits hn ih =>
    have e : ∀ tail, parseNodes n (false :: tail) p = parseNodes n tail (p.addInternal slot rest) := by
      intro tail
      rw [parseNodes]; simp only [hs, hn, if_false]
    simp only [List.cons_append, e]
    exact ih

theorem Shape.desc_leaf (i : Nat) (s : Byte) : (Shape.leaf i s).desc =
    [true, s.toNat.testBit 7, s.toNat.testBit 6, s.toNat.testBit 5, s.toNat.testBit 4, s.toNat.testBit 3,
      s.toNat.testBit 2, s.toNat.testBit 1, s.toNat.testBit 0] := rfl

/-- A descriptor is determined by the bits it begins (R147). -/
theorem Shape.desc_inj {t u : Shape} {a b : List Bool} (h : t.desc ++ a = u.desc ++ b) :
    t.desc = u.desc ∧ t.symbols = u.symbols ∧ a = b := by
  induction t generalizing u a b with
  | leaf i s =>
    cases u with
    | leaf j s' =>
      have hs : bitsOf 8 s.toNat ++ a = bitsOf 8 s'.toNat ++ b := (List.cons.inj h).2
      obtain ⟨h1, h2⟩ := List.append_inj hs (by simp)
      have : s = s' := by
        apply BitVec.eq_of_toNat_eq
        have := congrArg num h1
        rwa [num_bitsOf s.isLt, num_bitsOf s'.isLt] at this
      subst this
      exact ⟨rfl, rfl, h2⟩
    | node j l r => simp [Shape.desc] at h
  | node i l r ihl ihr =>
    cases u with
    | leaf j s' => simp [Shape.desc] at h
    | node j l' r' =>
      have h' : l.desc ++ (r.desc ++ a) = l'.desc ++ (r'.desc ++ b) := by
        have := (List.cons.inj h).2
        simpa [List.append_assoc] using this
      obtain ⟨h1, h2, h3⟩ := ihl h'
      obtain ⟨h4, h5, h6⟩ := ihr h3
      exact ⟨by simp [Shape.desc, h1, h4], by simp [Shape.symbols, h2, h5], h6⟩

/-- A parser that has a whole descriptor for each open slot does not run out of data (R317). -/
theorem parseNodes_whole {n : Nat} (k : Nat) (ts : List Shape) (hk : (ts.flatMap Shape.desc).length = k)
    (tail : List Bool) (p : Parse) (h : ts.length = p.slots.length) :
    parseNodes n (ts.flatMap Shape.desc ++ tail) p ≠ .error .invalidHeader := by
  induction k using Nat.strong_induction_on generalizing ts p with
  | _ k ih =>
    match ts, hs : p.slots, h with
    | [], [], _ => rw [parseNodes_done _ _ hs]; simp
    | .leaf i s :: ts, slot :: slots, h =>
      rw [List.flatMap_cons, Shape.desc_leaf]
      simp only [List.cons_append, List.nil_append]
      rw [parseNodes]
      simp only [hs]
      split
      · simp
      · split
        · simp
        · refine ih _ ?_ ts rfl _ ?_
          · rw [← hk]; simp [Shape.desc]
          · simp only [Parse.addLeaf]; simpa [hs] using h
    | .node i l r :: ts, slot :: slots, h =>
      rw [List.flatMap_cons, Shape.desc]
      simp only [List.cons_append]
      rw [parseNodes]
      simp only [hs]
      split
      · simp
      · have e : l.desc ++ r.desc ++ ts.flatMap Shape.desc ++ tail = (l :: r :: ts).flatMap Shape.desc ++ tail := by
          simp
        rw [e]
        refine ih _ ?_ (l :: r :: ts) rfl _ ?_
        · rw [← hk]; simp [Shape.desc]
        · simp only [Parse.addInternal, List.length_cons]; simp at h; omega

/-- A count above 256 (R313). -/
theorem parseTree_large {n : Nat} (h1 : 256 < n) (h2 : n < 512) (rest : List Bool) :
    parseTree (bitsOf 9 n ++ rest) = .error .corruptStream := by
  rw [parseTree, getBits_append (by simp), num_bitsOf (by omega)]
  simp [h1]

/-- A whole descriptor that disagrees with its count or repeats a symbol (R314 to R316, R318). -/
theorem parseTree_inconsistent {n : Nat} (t : Shape) (h1 : 1 ≤ n) (h256 : n ≤ 256) (rest : List Bool)
    (h : t.symbols.length ≠ n ∨ ¬ t.symbols.Nodup) :
    parseTree (bitsOf 9 n ++ (t.desc ++ rest)) = .error .corruptStream := by
  cases hp : parseTree (bitsOf 9 n ++ (t.desc ++ rest)) with
  | ok pt =>
    exfalso
    rcases parseTree_sound hp with ⟨h2, _⟩ | ⟨u, h2, h3, h4, h5, _⟩
    · have := congrArg num (List.append_inj h2 (by simp)).1
      rw [num_bitsOf (by omega), num_bitsOf (by omega)] at this
      omega
    · obtain ⟨e1, e2⟩ := List.append_inj h5 (by simp)
      have e1 := congrArg num e1
      rw [num_bitsOf (by omega), num_bitsOf (by omega)] at e1
      obtain ⟨_, e3, _⟩ := Shape.desc_inj e2
      rw [e3, e1] at h
      rcases h with h | h
      · exact h h2
      · exact h h4
  | error e =>
    rw [parseTree, getBits_append (by simp), num_bitsOf (by omega)] at hp
    simp only [show ¬ 256 < n by omega, show n ≠ 0 by omega, if_false] at hp
    have hw := parseNodes_whole (n := n) _ [t] rfl rest
      { nodes := [], leaves := 0, internals := 0, seen := [], slots := [none] } rfl
    simp only [List.flatMap_cons, List.flatMap_nil, List.append_nil] at hw
    split at hp
    · rename_i e' he
      cases hp
      rw [he] at hw
      have := parseNodes_error he
      rcases this with rfl | rfl
      · exact absurd rfl hw
      · rfl
    · split at hp <;> cases hp
      rfl

/-- A run of internal flags within the count opens one more slot each (R311). -/
theorem parseNodes_internals {n k : Nat} (tail : List Bool) {p : Parse} (hs : p.slots ≠ [])
    (hi : p.internals + k ≤ n - 1) :
    ∃ q : Parse, parseNodes n (List.replicate k false ++ tail) p = parseNodes n tail q ∧
      q.slots.length = p.slots.length + k ∧ q.internals = p.internals + k ∧ q.leaves = p.leaves ∧ q.seen = p.seen := by
  induction k generalizing p with
  | zero => exact ⟨p, rfl, rfl, rfl, rfl, rfl⟩
  | succ k ih =>
    match hp : p.slots, hs with
    | slot :: rest, _ =>
      rw [List.replicate_succ, List.cons_append, parseNodes_internal hp (by omega)]
      obtain ⟨q, h1, h2, h3, h4, h5⟩ := ih (p := p.addInternal slot rest) (by simp [Parse.addInternal])
        (by simp [Parse.addInternal]; omega)
      refine ⟨q, h1, ?_, ?_, h4, h5⟩
      · rw [h2]; simp [Parse.addInternal]; omega
      · rw [h3]; simp [Parse.addInternal]; omega

/-- One internal flag too many (R315), whatever follows. -/
theorem parseTree_internals {n : Nat} (h1 : 1 ≤ n) (h256 : n ≤ 256) (rest : List Bool) :
    parseTree (bitsOf 9 n ++ (List.replicate n false ++ rest)) = .error .corruptStream := by
  rw [parseTree, getBits_append (by simp), num_bitsOf (by omega)]
  simp only [show ¬ 256 < n by omega, show n ≠ 0 by omega, if_false]
  obtain ⟨m, rfl⟩ : ∃ m, n = m + 1 := ⟨n - 1, by omega⟩
  obtain ⟨q, h2, h3, h4, _⟩ := parseNodes_internals (n := m + 1) (k := m) (false :: rest)
    (p := { nodes := [], leaves := 0, internals := 0, seen := [], slots := [none] }) (by simp) (by simp)
  have e : List.replicate (m + 1) false ++ rest = List.replicate m false ++ (false :: rest) := by
    rw [List.replicate_succ']; simp
  rw [e, h2]
  match hq : q.slots, h3 with
  | [], h3 => simp at h3; omega
  | slot :: slots, _ =>
    rw [parseNodes]
    simp only [hq]
    rw [if_pos (by rw [h4]; simp)]

/-- A repeated symbol (R316), whatever follows. -/
theorem parseTree_repeated {n : Nat} (h2 : 2 ≤ n) (h256 : n ≤ 256) (sym : Byte) (rest : List Bool) :
    parseTree (bitsOf 9 n ++ (List.replicate (n - 1) false ++ (true :: (bitsOf 8 sym.toNat ++
      (true :: (bitsOf 8 sym.toNat ++ rest)))))) = .error .corruptStream := by
  rw [parseTree, getBits_append (by simp), num_bitsOf (by omega)]
  simp only [show ¬ 256 < n by omega, show n ≠ 0 by omega, if_false]
  obtain ⟨q, h3, h4, _, h6, h7⟩ := parseNodes_internals (n := n) (k := n - 1)
    (true :: (bitsOf 8 sym.toNat ++ (true :: (bitsOf 8 sym.toNat ++ rest))))
    (p := { nodes := [], leaves := 0, internals := 0, seen := [], slots := [none] }) (by simp) (by simp)
  rw [h3]
  simp only [List.length_singleton] at h4
  match hq : q.slots, h4 with
  | [], h4 => simp at h4; omega
  | [_], h4 => simp at h4; omega
  | slot :: slot' :: slots, h4 =>
    rw [parseNodes_leaf hq (by rw [h6]; simp; omega) (by rw [h7]; simp)]
    have hsym : (BitVec.ofNat 8 (num (bitsOf 8 sym.toNat)) : Byte) = sym := by
      rw [num_bitsOf sym.isLt]; simp
    rw [bitsOf_eight] at hsym ⊢
    rw [parseNodes]
    simp only [Parse.addLeaf, List.cons_append, List.nil_append, hsym, h6]
    rw [if_neg (by omega)]
    simp

/-- A stream that ends inside the count or the descriptor of a tree (R317). -/
theorem parseTree_truncated {n : Nat} (t : Shape) (hn : t.symbols.length = n) (h256 : n ≤ 256) (hd : t.symbols.Nodup)
    {bits more : List Bool} (hm : more ≠ []) (h : bits ++ more = bitsOf 9 n ++ t.desc) :
    parseTree bits = .error .invalidHeader := by
  by_cases hl : bits.length < 9
  · rw [parseTree, (getBits_eq_none_iff 9 bits).mpr hl]
  · have hfull := parseTree_desc t hn h256 hd []
    rw [List.append_nil] at hfull
    obtain ⟨pre, rfl⟩ : ∃ pre, bits = bitsOf 9 n ++ pre := by
      refine ⟨bits.drop 9, ?_⟩
      have := congrArg (List.take 9) h
      rw [List.take_append_of_le_length (by omega), List.take_left' (by simp)] at this
      rw [← this, List.take_append_drop]
    rw [List.append_assoc] at h
    have hpre := (List.append_inj h (by simp)).2
    have hpos := t.symbols_pos
    have hone := hfull
    rw [← hpre] at hone
    rw [parseTree, getBits_append (by simp), num_bitsOf (by omega)] at hone ⊢
    simp only [show ¬ 256 < n by omega, show n ≠ 0 by omega, if_false] at hone ⊢
    obtain ⟨hmo, hmc⟩ := parseNodes_more (n := n) (bits := pre)
      (p := { nodes := [], leaves := 0, internals := 0, seen := [], slots := [none] }) more
    cases hp : parseNodes n pre { nodes := [], leaves := 0, internals := 0, seen := [], slots := [none] } with
    | ok q =>
      exfalso
      obtain ⟨p', rest⟩ := q
      rw [hmo p' rest hp] at hone
      simp only at hone
      split at hone
      · simp only [Except.ok.injEq, ParsedTree.mk.injEq, List.append_eq_nil_iff] at hone
        exact hm hone.2.2.2.2
      · cases hone
    | error e =>
      have := parseNodes_error hp
      rcases this with rfl | rfl
      · rfl
      · rw [hmc hp] at hone
        cases hone

end Sys2Proof.Machine
end

