-- ==== Sys2Proof/Laws/Container.lean ====
section
/-! SUPPORT. The streams of the compound commands: what the parser, Walk,
  COMPRESS and DECOMPRESS do with a described tree. -/

namespace Sys2Proof.Machine

/-- A sum over the VALID entries of a code table is the sum over the codes (R45). -/
theorem filter_valid_sum {ct : Vector CtEntry 256} {codes : List (Byte × List Bool)} (h : TableHolds ct codes) (hd :
    (codes.map Prod.fst).Nodup) (f : Nat → Nat) :
    ((ct.toList.filter CtEntry.valid).map fun e => f e.len.toNat).sum = (codes.map fun c => f c.2.length).sum := by
  have h1 : ct.toList = (List.range 256).map fun s => ct.toList.getD s CtEntry.invalid := toList_eq_map ct _
  have h2 : ct.toList = ((List.finRange 256).map fun i => ctOf ct (BitVec.ofFin i)) := by
    apply List.ext_getElem
    · simp
    · intro i h1 h2
      simp [ctOf]
      rfl
  have h3 : ((List.finRange 256).filter fun i => (ctOf ct (BitVec.ofFin i)).valid).Perm
    (codes.map fun c => c.1.toFin) := by
    rw [List.perm_ext_iff_of_nodup]
    · intro i
      rw [List.mem_filter]
      simp only [List.mem_finRange, true_and]
      rw [h.valid_iff]
      simp only [List.mem_map]
      constructor
      · rintro ⟨c, hc, e⟩; exact ⟨c, hc, by rw [e]⟩
      · rintro ⟨c, hc, e⟩; exact ⟨c, hc, by rw [← e]⟩
    · exact (List.nodup_finRange 256).filter _
    · have := hd.map (f := BitVec.toFin) (fun a b h => BitVec.eq_of_toFin_eq h)
      rwa [List.map_map] at this
  rw [h2, List.filter_map, List.map_map]
  have h4 := (h3.map fun i => f (ctOf ct (BitVec.ofFin i)).len.toNat).sum_eq
  refine Eq.trans ?_ (h4.trans ?_)
  · rfl
  · rw [List.map_map]
    refine congrArg List.sum (List.map_congr_left fun c hc => ?_)
    obtain ⟨_, h5, _⟩ := (h c.1).1 c.2 hc
    simp only [Function.comp]
    rw [show BitVec.ofFin c.1.toFin = c.1 from rfl, h5]

/-- At most 256 symbols (R313). -/
theorem described_le {n desc codes} (h : Described n desc codes) : n ≤ 256 := by
  rcases h with ⟨rfl, _, _⟩ | ⟨t, ht, hd, _, _⟩
  · omega
  · have := (hd.map (f := BitVec.toFin) (fun a b h => BitVec.eq_of_toFin_eq h)).length_le_card
    simp at this; omega

/-- ParseTree on a described tree's stream: everything it returns (R311, R312). -/
theorem parse_described {n desc codes} (h : Described n desc codes) (rest : List Bool) :
    ∃ pt, parseTree (bitsOf 9 n ++ desc ++ rest) = .ok pt ∧ pt.rest = rest ∧ pt.count = n ∧
      TreeOk n (arenaOf pt.nodes) (rootOf pt.root) ∧ TreeCodes n (arenaOf pt.nodes) (rootOf pt.root) codes ∧
        TreeDesc n (arenaOf pt.nodes) (rootOf pt.root) desc ∧
      (1 ≤ n → rootOf pt.root = 0 ∧ ∃ shape, IsTree n (arenaOf pt.nodes) (rootOf pt.root) shape ∧
        shape.indices = List.range (2 * n - 1)) ∧
      (∀ nd ∈ (arenaOf pt.nodes).toList, nd.freq = 0) := by
  have hle := described_le h
  rcases h with ⟨rfl, rfl, rfl⟩ | ⟨t, ht, hd, rfl, rfl⟩
  · refine ⟨_, by rw [List.append_nil]; exact parseTree_zero rest, rfl, rfl, ?_, .inl ⟨rfl, rfl, rfl⟩, .inl ⟨rfl, rfl,
      rfl⟩, fun h => by omega, ?_⟩
    · refine .inl ⟨rfl, rfl, ?_⟩
      intro i nd hi
      have : i < 511 := (Vector.getElem?_eq_some_iff.mp hi).1
      rw [arenaOf_getElem? this] at hi
      simpa using hi.symm
    · intro nd hnd
      rw [arenaOf, tabulate_toList, List.mem_map] at hnd
      obtain ⟨i, _, rfl⟩ := hnd
      rfl
  · have hit := entries_isTree t ht hle hd
    have h1 : 1 ≤ n := by rw [← ht]; exact t.symbols_pos
    refine ⟨⟨some 0, n, t.entries 0, rest⟩, by rw [List.append_assoc]; exact parseTree_desc t ht hle hd rest, rfl,
      rfl, ?_⟩
    show TreeOk n (arenaOf (t.entries 0)) (rootOf (some 0)) ∧ TreeCodes n (arenaOf (t.entries 0)) (rootOf
      (some 0)) t.codes ∧ TreeDesc n (arenaOf (t.entries 0)) (rootOf (some 0)) t.desc ∧
      (1 ≤ n → rootOf (some 0) = 0 ∧ ∃ shape, IsTree n (arenaOf (t.entries 0)) (rootOf (some 0)) shape ∧
        shape.indices = List.range (2 * n - 1)) ∧
      (∀ nd ∈ (arenaOf (t.entries 0)).toList, nd.freq = 0)
    refine ⟨.inr ⟨h1, _, hit⟩, .inr ⟨h1, _, hit, (Shape.numbered_codes t 0).symm⟩, .inr ⟨h1, _, hit,
      (Shape.numbered_desc t 0).symm⟩, ?_, ?_⟩
    · intro _
      refine ⟨show BitVec.ofNat 9 0 = 0 from rfl, _, hit, ?_⟩
      rw [Shape.numbered_indices, List.range_eq_range']
      have := t.indices_length
      congr 1
      unfold Shape.size; omega
    · intro nd hnd
      have hz : ∀ (t : Shape) k, ∀ nd ∈ t.entries k, nd.freq = 0 := by
        intro t
        induction t with
        | leaf i s => intro k nd h; simp [Shape.entries] at h; subst h; rfl
        | node i l r ihl ihr =>
          intro k nd h
          simp only [Shape.entries, List.mem_cons, List.mem_append] at h
          rcases h with rfl | h | h
          · rfl
          · exact ihl _ _ h
          · exact ihr _ _ h
      rw [arenaOf, tabulate_toList, List.mem_map] at hnd
      obtain ⟨i, _, rfl⟩ := hnd
      rw [List.getD_eq_getElem?_getD]
      cases hg : (t.entries 0)[i]? with
      | none => rfl
      | some nd => exact hz t 0 nd (List.mem_of_getElem? hg)

/-- The tree in NODE is described by its descriptor and its codes (R147). -/
theorem described_of_tree {n nodes root codes desc} (hc : TreeCodes n nodes root codes) (hd :
    TreeDesc n nodes root desc) : Described n desc codes := by
  rcases hd with ⟨rfl, hr, rfl⟩ | ⟨h1, t, ht, rfl⟩
  · rcases hc with ⟨_, _, rfl⟩ | ⟨h, _⟩
    · exact .inl ⟨rfl, rfl, rfl⟩
    · omega
  · have := codesOf_treeCodes hc
    rw [codesOf_isTree ht] at this
    exact .inr ⟨t, ht.count, ht.distinct, rfl, (Option.some.inj this).symm⟩

/-- Walk on the codes of a byte string (R281). -/
theorem walk_out {n nodes root codes} (hc : TreeCodes n nodes root codes) {obuf : Nat} {payload : List Byte} {pad :
    Nat} {out : List Byte}
    (hp : pad ≤ 8 * payload.length) (he : encodeWith codes out = some ((streamBits payload).take
      (8 * payload.length - pad))) :
    walk nodes root obuf payload pad = if obuf < out.length then .error (.raised .outOverflow) else .ok (out,
      8 * payload.length - pad) := by
  unfold walk
  rw [if_neg (by omega)]
  simp only
  rw [walkSymbols_encodeWith hc he]

/-- TDEC and DECOMPRESS raise the error of the parser they share (R380). -/
theorem tdec_err {s : State} {e} (hl : s.inLen.toNat ≤ s.params.ibufBytes) (h : parseTree
    (streamBits s.inputBytes) = .error e) :
   exec .tdec s = .next (s.abort Writes.tdec e) ∧ exec .decompress s = .next (s.abort Writes.decompress e) := by
  refine ⟨exec_of_raise (i := .tdec) (fun _ => hl) (by simp [neededFlag]) ?_, exec_of_raise (i := .decompress)
    (fun _ => hl) (by simp [neededFlag]) ?_⟩
  · simp only [commandBody]; unfold decodeTree; rw [h]
  · simp only [commandBody]; unfold decompressInput; rw [h]

/-- Whole bytes are dropped as their bits are. -/
theorem drop_bits {xs ys : List Byte} {hd : List Bool} {k : Nat} (h : streamBits xs = hd ++ streamBits ys) (hk :
    hd.length = 8 * k) : xs.drop k = ys := by
  have h1 : packBytes (streamBits xs) = packBytes hd ++ packBytes (streamBits ys) := by rw [h,
    packBytes_append _ _ hk]
  rw [packBytes_streamBits, packBytes_streamBits] at h1
  rw [h1, List.drop_left' (packBytes_length _ hk)]

/-- DECOMPRESS is Walk of the payload on the parsed tree, which is TDEC's (R380). -/
theorem decompress_body {s : State} {n pad : Nat} {desc align payload : List Bool} {codes} (h :
    Described n desc codes) (hpad : pad < 8)
    (ha : align.length = (8 - (9 + desc.length + 3) % 8) % 8)
    (hb : streamBits s.inputBytes = bitsOf 9 n ++ desc ++ bitsOf 3 pad ++ align ++ payload) :
    ∃ pt bytes, streamBits bytes = payload ∧ 8 * bytes.length = payload.length ∧ pt.count = n ∧
      parseTree (streamBits s.inputBytes) = .ok pt ∧
      TreeOk n (arenaOf pt.nodes) (rootOf pt.root) ∧ TreeCodes n (arenaOf pt.nodes) (rootOf pt.root) codes ∧
      (TreeDesc n (arenaOf pt.nodes) (rootOf pt.root) desc ∧
        (1 ≤ n → rootOf pt.root = 0 ∧ ∃ shape, IsTree n (arenaOf pt.nodes) (rootOf pt.root) shape ∧
          shape.indices = List.range (2 * n - 1)) ∧
        ∀ nd ∈ (arenaOf pt.nodes).toList, nd.freq = 0) ∧
      commandBody .decompress s = match walk (arenaOf pt.nodes) (rootOf pt.root) s.params.obufBytes bytes pad with
      | .error e => .error e
      | .ok (out, m) => .ok { ((((s.setTree pt).setOutput out).setPadOut pad).setTotalBits m) with
          ftValid := false, ctValid := false, treeValid := true } := by
  have hb' : streamBits s.inputBytes = bitsOf 9 n ++ desc ++ (bitsOf 3 pad ++ (align ++ payload)) := by simp [hb]
  obtain ⟨pt, hpt, hr, hc, h1, h2, h3⟩ := parse_described h (bitsOf 3 pad ++ (align ++ payload))
  have hlen := congrArg List.length hb
  simp only [List.length_append, bitsOf_length, streamBits_length, ha] at hlen
  have hpl : payload.length = 8 * (payload.length / 8) := by omega
  have hs : streamBits (packBytes payload) = payload := streamBits_packBytes (n := payload.length / 8) _ hpl
  refine ⟨pt, packBytes payload, hs, ?_, hc, by rw [hb', hpt], h1, h2, h3, ?_⟩
  · rw [packBytes_length (n := payload.length / 8) _ hpl]; omega
  · simp only [commandBody]; unfold decompressInput
    rw [hb', hpt]
    simp only
    rw [hr, getBits_append (by simp), num_bitsOf (by omega)]
    simp only
    have hh : headerLength (bitsOf 9 n ++ desc ++ (bitsOf 3 pad ++ (align ++ payload))) (align ++ payload) = ceil8
      (9 + desc.length + 3) := by
      unfold headerLength
      congr 1
      simp only [List.length_append, bitsOf_length]; omega
    rw [hh]
    have hdrop : s.inputBytes.drop (ceil8 (9 + desc.length + 3)) = packBytes payload := by
      refine drop_bits (hd := bitsOf 9 n ++ desc ++ bitsOf 3 pad ++ align) (by rw [hb, hs]) ?_
      simp only [List.length_append, bitsOf_length, ha]; unfold ceil8; omega
    rw [hdrop]
    all_goals rfl

/-- Every byte of the input has a code in the table built from it (R371). -/
theorem input_coded {s : State} {codes} (hl : s.inputBytes.length < 2 ^ 32)
   (hc : TreeCodes (distinct (tally s.inputBytes)) (arenaOf (huffman (tally s.inputBytes)).1) (rootOf (huffman
     (tally s.inputBytes)).2) codes) :
   ∀ b ∈ s.inputBytes, (ctOf (tableOf codes) b).valid = true := by
  intro b hb
  rw [hc.tableOf_holds.valid_iff, huffman_codes_iff hc, occurring_tally hl]
  exact hb

/-- Everything COMPRESS does (R370 to R372), whatever its second loop over the input reads. -/
theorem compress_main {s : State} (hl : s.inLen.toNat ≤ s.params.ibufBytes) :
    ∃ desc codes,
     let g : State := { buildTree (countInput s) with ct := tableOf codes, ctValid := true }
     TreeDesc (distinct (tally s.inputBytes)) g.nodes g.root desc ∧ TreeCodes (distinct
       (tally s.inputBytes)) g.nodes g.root codes ∧
     g.symcount.toNat = distinct (tally s.inputBytes) ∧
     (∀ b ∈ s.inputBytes, (ctOf (tableOf codes) b).valid = true) ∧
     encodeWith codes s.inputBytes = some (codeBits (tableOf codes) s.inputBytes) ∧
     commandBody .compress s = (
       let t := codeLength (tableOf codes) s.inputBytes
       if s.params.obufBytes < ceil8 (9 + desc.length + 3) + ceil8 t then .error (.raised .outOverflow) else
        match g.putOutput (ceil8 (9 + desc.length + 3) + ceil8 t)
            (headerBits g.symcount desc (padCount t) ++ payloadBits (tableOf codes) (s.inputPass 1) (padCount t)) with
        | .error e => .error e
        | .ok u => .ok ((u.setPadOut (padCount t)).setTotalBits t)) := by
  have hlt : s.inputBytes.length < 2 ^ 32 := by rw [inputBytes_length]; exact s.inLen.isLt
  have hok := buildTree_treeOk (countInput s)
  obtain ⟨codes, hc⟩ := hok.treeCodes
  obtain ⟨desc, hd⟩ := hok.treeDesc
  refine ⟨desc, codes, hd, hc, (freqOk_count hl).size, input_coded hlt hc, codeBits_of_holds hc.tableOf_holds hc.nodup
    (input_coded hlt hc), ?_⟩
  simp only [commandBody]; unfold compressInput
  rw [genCodes_of_treeCodes hc]
  simp only
  unfold writeContainer
  rw [show descOf ({ buildTree (countInput s) with ct := tableOf codes, ctValid := true } :
    State).nodes _ = some desc from descOf_treeDesc hd]
  simp only
  rw [show weightedLength (buildTree (countInput s)).freq (tableOf codes) = codeLength
    (tableOf codes) s.inputBytes from weightedLength_tally hlt _]
  rfl

/-- The header fills whole bytes (R151). -/
theorem headerBits_length (n : BitVec 9) (desc pad) : (headerBits n desc pad).length = 8 * ceil8
    (9 + desc.length + 3) := by
  unfold headerBits; rw [align_length]; simp only [List.length_append, bitsOf_length]

/-- The container of an input that the table was counted on fills `H + ceil8(T)` bytes (R153). -/
theorem container_length (n : BitVec 9) (desc ct input) :
    (headerBits n desc (padCount (codeLength ct input)) ++
      payloadBits ct input (padCount (codeLength ct input))).length =
      8 * (ceil8 (9 + desc.length + 3) + ceil8 (codeLength ct input)) := by
  rw [List.length_append, headerBits_length, payloadBits_length, Nat.mul_add]

/-- What COMPRESS writes where its two loops read the same bytes (R370 to R372). -/
theorem container_written {s g : State} (hw : s.inputWritten) (n : BitVec 9) (desc : List Bool)
    (ct : Vector CtEntry 256)
    (h : ceil8 (9 + desc.length + 3) + ceil8 (codeLength ct s.inputBytes) ≤ g.params.obufBytes) :
    g.putOutput (ceil8 (9 + desc.length + 3) + ceil8 (codeLength ct s.inputBytes))
      (headerBits n desc (padCount (codeLength ct s.inputBytes)) ++
        payloadBits ct (s.inputPass 1) (padCount (codeLength ct s.inputBytes))) =
      .ok (g.setOutput (packBytes (headerBits n desc (padCount (codeLength ct s.inputBytes)) ++
        payloadBits ct s.inputBytes (padCount (codeLength ct s.inputBytes))))) := by
  rw [inputPass_written hw, putOutput_of_length (container_length n desc ct s.inputBytes) h]

/-- Everything COMPRESS does where its two loops read the same bytes: the size check is the writer's only one. -/
theorem compress_written {s : State} (hl : s.inLen.toNat ≤ s.params.ibufBytes) (hw : s.inputWritten) :
    ∃ desc codes,
      let g : State := { buildTree (countInput s) with ct := tableOf codes, ctValid := true }
      let t := codeLength (tableOf codes) s.inputBytes
      TreeDesc (distinct (tally s.inputBytes)) g.nodes g.root desc ∧
      TreeCodes (distinct (tally s.inputBytes)) g.nodes g.root codes ∧
      g.symcount.toNat = distinct (tally s.inputBytes) ∧
      (∀ b ∈ s.inputBytes, (ctOf (tableOf codes) b).valid = true) ∧
      encodeWith codes s.inputBytes = some (codeBits (tableOf codes) s.inputBytes) ∧
      commandBody .compress s =
        if s.params.obufBytes < ceil8 (9 + desc.length + 3) + ceil8 t then .error (.raised .outOverflow)
        else .ok (((g.setOutput (packBytes (headerBits g.symcount desc (padCount t) ++
          payloadBits (tableOf codes) s.inputBytes (padCount t)))).setPadOut (padCount t)).setTotalBits t) := by
  obtain ⟨desc, codes, h1, h2, h3, h4, h5, hb⟩ := compress_main hl
  refine ⟨desc, codes, h1, h2, h3, h4, h5, hb.trans ?_⟩
  simp only
  split
  · rfl
  · rw [container_written hw _ desc (tableOf codes)
      (g := { buildTree (countInput s) with ct := tableOf codes, ctValid := true })
      (show _ ≤ s.params.obufBytes by omega)]

end Sys2Proof.Machine
end

