-- ==== Sys2Proof/Laws/PerInstr.lean ====
section
/-! SUPPORT. What holds of every command as syntax, one lemma per constructor. -/

namespace Sys2Proof.Laws.Encoding

/-- The command is well formed (R143), its word has RSVD = 0 and its own opcode (R140, R141), and the decoder reads it
back, from the register's word and from the table's bits. -/
def Statement (i : Instr) : Prop :=
  i.wf = true ∧ (encode i).extractLsb' 8 24 = 0 ∧ (encode i).extractLsb' 0 8 = opcode i ∧
    decode (encode i) = .ok i ∧ decodeTableWord 32 (encode i).toNat = some i

theorem nop : Statement .nop := by unfold Statement; decide
theorem clear : Statement .clear := by unfold Statement; decide
theorem count : Statement .count := by unfold Statement; decide
theorem build : Statement .build := by unfold Statement; decide
theorem gencodes : Statement .gencodes := by unfold Statement; decide
theorem tenc : Statement .tenc := by unfold Statement; decide
theorem pack : Statement .pack := by unfold Statement; decide
theorem tdec : Statement .tdec := by unfold Statement; decide
theorem unpack : Statement .unpack := by unfold Statement; decide
theorem compress : Statement .compress := by unfold Statement; decide
theorem decompress : Statement .decompress := by unfold Statement; decide

end Sys2Proof.Laws.Encoding
end

