-- ==== Sys2Proof/Tests/Slice0.lean ====
section
/-! SUPPORT. The model's own tests. Every expected value is from the spec: the rule is named at each test. The second half
gives, for every statement with hypotheses, a state and operands that meet them, one for each clause at a boundary. -/

namespace Sys2Proof.Tests

open Sys2Proof.Machine

set_option Elab.async false

/-! ### Small states -/

/-- The reset state after LOAD of `bytes` (R146). -/
def loaded (bytes : List Byte) : State :=
  { State.reset with ibuf := Memory.ofBytes 0 bytes, inLen := BitVec.ofNat 32 bytes.length }

/-- The state a command leaves. -/
def after (i : Instr) (s : State) : State :=
  match exec i s with
  | .next t => t
  | _ => s

/-- The command has a next state. -/
def finishes (i : Instr) (s : State) : Bool :=
  match exec i s with
  | .next _ => true
  | _ => false

theorem next_after {i : Instr} {s : State} (h : finishes i s = true) : exec i s = .next (after i s) := by
  unfold finishes at h
  unfold after
  split at h
  · rename_i heq
    rw [heq]
  · cases h

/-- The state a step leaves. -/
def stepped (s : State) : State :=
  match step s with
  | .next t => t
  | _ => s

/-- `s` with `i` accepted and its completion due. -/
def due (i : Instr) (s : State) : State := s.placeCommand (encode i)

/-- `s` BUSY with a completion that is not due. -/
def running (s : State) : State := { s with phase := .busy, delay := 1 }

/-- `s` with host events waiting. -/
def given (inputs : List Input) (s : State) : State := { s with inputs := inputs }

/-- The bytes of a text by their ASCII codes (R9). -/
def a : Byte := 0x61
def b : Byte := 0x62
def c : Byte := 0x63
def abracadabra : List Byte := [0x61, 0x62, 0x72, 0x61, 0x63, 0x61, 0x64, 0x61, 0x62, 0x72, 0x61]
def skewed : List Byte := [a, a, a, a, a, a, a, a, b]

/-- Every byte of the input is one the host has written. -/
theorem written_of_ofBytes {s : State} {bytes : List Byte} (hi : s.ibuf = Memory.ofBytes 0 bytes)
    (hl : s.inLen.toNat ≤ bytes.length) : s.inputWritten := by
  intro i h
  rw [hi, Memory.read?_ofBytes, if_pos (Nat.zero_le i), Nat.sub_zero, List.getElem?_eq_getElem (by omega)]
  rfl

theorem loaded_written (bytes : List Byte) : (loaded bytes).inputWritten :=
  written_of_ofBytes rfl (by
    show (BitVec.ofNat 32 bytes.length).toNat ≤ bytes.length
    rw [BitVec.toNat_ofNat]
    exact Nat.mod_le _ _)

/-- What COUNT, BUILD and GENCODES leave of `bytes`. -/
def counted (bytes : List Byte) : State := after .count (loaded bytes)
def built (bytes : List Byte) : State := after .build (counted bytes)
def coded (bytes : List Byte) : State := after .gencodes (built bytes)

/-! ### The parameters' checks refuse what R6 does not allow -/

theorem test_wf_accepts_vectors : Params.vectors.wf = true := by decide
theorem test_wf_accepts_smallest : Params.wf { ibufBytes := 4, obufBytes := 324 } = true := by decide
theorem test_wf_accepts_largest : Params.wf { ibufBytes := 2 ^ 30, obufBytes := 2 ^ 30 } = true := by decide
theorem test_wf_ibuf_not_multiple : Params.wf { ibufBytes := 6, obufBytes := 324 } = false := by decide
theorem test_wf_ibuf_too_small : Params.wf { ibufBytes := 0, obufBytes := 324 } = false := by decide
theorem test_wf_ibuf_too_large : Params.wf { ibufBytes := 2 ^ 30 + 4, obufBytes := 324 } = false := by decide
theorem test_wf_obuf_not_multiple : Params.wf { ibufBytes := 4, obufBytes := 326 } = false := by decide
theorem test_wf_obuf_too_small : Params.wf { ibufBytes := 4, obufBytes := 320 } = false := by decide
theorem test_wf_obuf_too_large : Params.wf { ibufBytes := 4, obufBytes := 2 ^ 30 + 4 } = false := by decide

/-! ### Decoding: the words of R141, bit by bit, and words of R142 -/

theorem test_decode_nop : decode 0b00000000000000000000000000000000 = .ok .nop := by decide
theorem test_decode_clear : decode 0b00000000000000000000000000000001 = .ok .clear := by decide
theorem test_decode_count : decode 0b00000000000000000000000000010000 = .ok .count := by decide
theorem test_decode_build : decode 0b00000000000000000000000000010001 = .ok .build := by decide
theorem test_decode_gencodes : decode 0b00000000000000000000000000010010 = .ok .gencodes := by decide
theorem test_decode_tenc : decode 0b00000000000000000000000000010011 = .ok .tenc := by decide
theorem test_decode_pack : decode 0b00000000000000000000000000010100 = .ok .pack := by decide
theorem test_decode_tdec : decode 0b00000000000000000000000000100000 = .ok .tdec := by decide
theorem test_decode_unpack : decode 0b00000000000000000000000000100001 = .ok .unpack := by decide
theorem test_decode_compress : decode 0b00000000000000000000000000110000 = .ok .compress := by decide
theorem test_decode_decompress : decode 0b00000000000000000000000000110001 = .ok .decompress := by decide
theorem test_decode_reserved_opcode : decode 0x00000015 = .error .reservedOpcode := by decide
theorem test_decode_reserved_bits : decode 0x80000010 = .error .reservedBits := by decide
theorem test_table_word : decodeTableWord 32 0x31 = some .decompress := by decide
theorem test_table_word_too_wide : decodeTableWord 32 0x100000000 = none := by decide

/-! ### Commands: the spec's worked examples -/

/-- R400, corner case. -/
theorem test_nop_keeps_drop :
    (after .nop { State.reset with drop := true }).drop = true ∧ (after .nop State.reset).done = true := by
  decide +kernel

/-- R402, example. -/
theorem test_clear_after_compress :
    (after .clear (after .compress (loaded [a, a, a, a]))).hostRead 0x008 = 0x00000002 ∧
    (after .clear (after .compress (loaded [a, a, a, a]))).outLen = 0 ∧
    (after .clear (after .compress (loaded [a, a, a, a]))).root = 0x1FF := by decide +kernel

/-- R200, example. -/
theorem test_count_abracadabra :
    (counted abracadabra).freq[0x61] = 5 ∧ (counted abracadabra).freq[0x62] = 2 ∧
    (counted abracadabra).freq[0x63] = 1 ∧ (counted abracadabra).freq[0x72] = 2 ∧
    (counted abracadabra).freq[0x65] = 0 ∧ (counted abracadabra).symcount = 5 := by decide +kernel

/-- R200, error. -/
theorem test_count_bad_length :
    (after .count { State.reset with inLen := 1025 }).err = .badLength ∧
    (after .count { State.reset with inLen := 1025 }).ftValid = false := by decide +kernel

/-- R220, example. -/
theorem test_build_skewed :
    (built skewed).nodes[0] = leafNode a 8 ∧ (built skewed).nodes[1] = leafNode b 1 ∧
    (built skewed).nodes[2] = internalNode 1 0 9 ∧ (built skewed).root = 2 := by decide +kernel

/-- R231, example: a leaf wins a tie against an internal node. -/
theorem test_build_tie :
    (built [a, b, c, c]).nodes[3] = internalNode 0 1 2 ∧ (built [a, b, c, c]).nodes[4] = internalNode 2 3 4 ∧
    (built [a, b, c, c]).root = 4 := by decide +kernel

/-- R251, example. -/
theorem test_gencodes_abracadabra :
    ctOf (coded abracadabra).ct 0x61 = { valid := true, len := 1, code := 0b0 } ∧
    ctOf (coded abracadabra).ct 0x64 = { valid := true, len := 3, code := 0b101 } ∧
    ctOf (coded abracadabra).ct 0x62 = { valid := true, len := 3, code := 0b110 } ∧
    ctOf (coded abracadabra).ct 0x65 = CtEntry.invalid := by decide +kernel

/-- R251, corner case: the single-symbol tree. -/
theorem test_gencodes_single :
    ctOf (coded [a, a]).ct a = { valid := true, len := 1, code := 0 } := by decide +kernel

/-- R300, example. -/
theorem test_tenc_skewed :
    (after .tenc (built skewed)).obuf = Memory.ofBytes 0 [0x01, 0x2C, 0x56, 0x10] ∧
    (after .tenc (built skewed)).outLen = 4 := by decide +kernel

/-- R300, corner case: the empty tree. -/
theorem test_tenc_empty : (after .tenc (built [])).obuf = Memory.ofBytes 0 [0x00, 0x00] := by decide +kernel

/-- R270, example. -/
theorem test_pack_skewed :
    (after .pack (coded skewed)).obuf = Memory.ofBytes 0 [0xFF, 0x00] ∧ (after .pack (coded skewed)).padOut = 7 ∧
    (after .pack (coded skewed)).totalBits = 9 := by decide +kernel

/-- R272: NO_CODE, and the abort rule R503. -/
theorem test_pack_no_code :
    (after .pack { coded skewed with ibuf := [(0, c)], inLen := 1 }).err = .noCode ∧
    (after .pack { coded skewed with ibuf := [(0, c)], inLen := 1 }).ctValid = true ∧
    (after .pack { coded skewed with ibuf := [(0, c)], inLen := 1 }).outLen = 0 := by decide +kernel

/-- R310, example. -/
theorem test_tdec_example :
    (after .tdec (loaded [0x01, 0x2C, 0x56, 0x10])).nodes[0] = internalNode 1 2 0 ∧
    (after .tdec (loaded [0x01, 0x2C, 0x56, 0x10])).nodes[1] = leafNode b 0 ∧
    (after .tdec (loaded [0x01, 0x2C, 0x56, 0x10])).nodes[2] = leafNode a 0 ∧
    (after .tdec (loaded [0x01, 0x2C, 0x56, 0x10])).symcount = 2 := by decide +kernel

/-- R315 (a count of 1 followed by flag 0) and R317 (one byte is no count). -/
theorem test_tdec_errors :
    (after .tdec (loaded [0x00, 0x80])).err = .corruptStream ∧ (after .tdec (loaded [0x00])).err = .invalidHeader := by
  decide +kernel

/-- R280, example. -/
theorem test_unpack_skewed :
    (after .unpack { built skewed with ibuf := Memory.ofBytes 0 [0xFF, 0x00], inLen := 2, padIn := 7 }).obuf =
      Memory.ofBytes 0 skewed ∧
    (after .unpack { built skewed with ibuf := Memory.ofBytes 0 [0xFF, 0x00], inLen := 2, padIn := 7 }).totalBits = 9 :=
  by decide +kernel

/-- R282 (a 1 bit in a single-symbol stream) and R285 (padding against an empty payload). -/
theorem test_unpack_errors :
    (after .unpack { built [a] with ibuf := Memory.ofBytes 0 [0x10], inLen := 1 }).err = .corruptStream ∧
    (after .unpack { built [a] with inLen := 0, padIn := 1 }).err = .corruptStream := by decide +kernel

/-- R370, example. -/
theorem test_compress_aaaa :
    (after .compress (loaded [a, a, a, a])).obuf = Memory.ofBytes 0 [0x00, 0xD8, 0x60, 0x00] ∧
    (after .compress (loaded [a, a, a, a])).padOut = 4 ∧ (after .compress (loaded [a, a, a, a])).totalBits = 4 := by
  decide +kernel

/-- R370, corner case: the empty input. -/
theorem test_compress_empty : (after .compress (loaded [])).obuf = Memory.ofBytes 0 [0x00, 0x00] := by decide +kernel

/-- R380, example. -/
theorem test_decompress_aaaa :
    (after .decompress (loaded [0x00, 0xD8, 0x60, 0x00])).obuf = Memory.ofBytes 0 [a, a, a, a] ∧
    (after .decompress (loaded [0x00, 0xD8, 0x60, 0x00])).padOut = 4 ∧
    (after .decompress (loaded [0x00, 0xD8, 0x60, 0x00])).root = 0 := by decide +kernel

/-- R383, example: a truncation that is not detected. -/
theorem test_decompress_truncated :
    (after .decompress (loaded [0x01, 0x2C, 0x36, 0x20, 0x55])).obuf = Memory.ofBytes 0 [a, b, a, b, a, b, a, b] ∧
    (after .decompress (loaded [0x01, 0x2C, 0x36, 0x20, 0x55])).err = .noError := by decide +kernel

/-! ### The host's side and single steps -/

/-- R36, R55. -/
theorem test_read_constants :
    State.reset.hostRead 0x000 = 0x48554646 ∧ State.reset.hostRead 0x063 = 1024 ∧
    State.reset.hostRead 0x064 = 1024 := by decide +kernel

/-- R102: the little-endian lanes, read back through the window. -/
theorem test_ibuf_lanes :
    (stepped (given [.write 0x40000004 0x64636261] State.reset)).ibuf =
      [(4, 0x61), (5, 0x62), (6, 0x63), (7, 0x64)] ∧
    (stepped (given [.write 0x40000004 0x64636261] State.reset)).hostRead 0x40000006 = 0x64636261 := by
  decide +kernel

/-- R33: acceptance. -/
theorem test_cmd_accepted :
    (stepped (given [cmd .count] { State.reset with done := true, err := .noCode })).pending = 0x10 ∧
    (stepped (given [cmd .count] { State.reset with done := true, err := .noCode })).phase = .busy ∧
    (stepped (given [cmd .count] { State.reset with done := true, err := .noCode })).done = false ∧
    (stepped (given [cmd .count] { State.reset with done := true, err := .noCode })).err = .noError := by
  decide +kernel

/-- R41: a CMD write while BUSY. -/
theorem test_cmd_dropped :
    (stepped (given [cmd .count] (running State.reset))).drop = true ∧
    (stepped (given [cmd .count] (running State.reset))).pending = 0 := by decide +kernel

/-- R37: CMD reads as 0, while BUSY too, whatever PENDING holds. -/
theorem test_cmd_reads_zero :
    State.reset.hostRead 0x004 = 0 ∧ (due .decompress State.reset).hostRead 0x004 = 0 ∧
    (running State.reset).hostRead 0x007 = 0 := by decide +kernel

/-- R606: a hazard write is refused. -/
theorem test_hazard_refused :
    step (given [.write 0x00C 1] (running State.reset)) = .refused (.hostWriteWhileBusy 0x00C) := by rfl

/-- R34: the step that completes COUNT. -/
theorem test_step_completes_count :
    (stepped ((loaded abracadabra).withFetchWord 32 0x10)).symcount = 5 ∧
    (stepped ((loaded abracadabra).withFetchWord 32 0x10)).phase = .idle ∧
    (stepped ((loaded abracadabra).withFetchWord 32 0x10)).hostRead 0x008 = 0x00000102 := by decide +kernel

/-- R142, R501: an illegal word. -/
theorem test_step_bad_command :
    (stepped (State.reset.withFetchWord 32 0x100)).err = .badCommand ∧
    (stepped (State.reset.withFetchWord 32 0x100)).hostRead 0x008 = 0x00000032 := by decide +kernel

/-- R602: the release of reset abandons the running command. -/
theorem test_reset_while_busy :
    (stepped (given [.releaseReset] { due .nop State.reset with inReset := true })).phase = .idle ∧
    (stepped (given [.releaseReset] { due .nop State.reset with inReset := true })).done = false := by decide +kernel

/-- R146: LOAD of five bytes. -/
theorem test_load : load [1, 2, 3, 4, 5] =
    [.write 0x40000000 0x04030201, .write 0x40000004 0x00000005, .write 0x0000000C 5] := by decide

/-! ### Witnesses: the hypotheses of the statements can be met -/

theorem witness_DecodeInvertsEncode : Instr.decompress.wf = true := by decide

theorem witness_IllegalWordIsBadCommand :
    (due .nop State.reset).completionDue ∧
    (∃ s : State, s.completionDue ∧ s.pending = 0xFFFFFFFF ∧ ∀ i, decode 0xFFFFFFFF ≠ .ok i) ∧
    ∃ s : State, s.completionDue ∧ s.pending = 0x00000002 ∧ ∀ i, decode 0x00000002 ≠ .ok i := by
  refine ⟨⟨rfl, rfl, rfl⟩, ⟨State.reset.placeCommand 0xFFFFFFFF, ⟨rfl, rfl, rfl⟩, rfl, fun i => ?_⟩,
    ⟨State.reset.placeCommand 0x00000002, ⟨rfl, rfl, rfl⟩, rfl, fun i => ?_⟩⟩
  · rw [show decode 0xFFFFFFFF = .error .reservedBits by decide]; exact nofun
  · rw [show decode 0x00000002 = .error .reservedOpcode by decide]; exact nofun

theorem witness_StepRunsThePendingCommand :
    (due .decompress State.reset).completionDue ∧ decode (due .decompress State.reset).pending = .ok .decompress :=
  ⟨⟨rfl, rfl, rfl⟩, by decide⟩

theorem not_due_of_idle {s : State} (h : s.phase = .idle) : ¬ s.completionDue := by
  rintro ⟨_, h', _⟩
  rw [h] at h'
  cases h'

theorem not_due_running (inputs : List Input) (s : State) : ¬ (given inputs (running s)).completionDue := by
  rintro ⟨_, _, h⟩
  cases h

theorem not_due_in_reset {s : State} (h : s.inReset = true) : ¬ s.completionDue := by
  rintro ⟨h', _, _⟩
  rw [h] at h'
  cases h'

/-- Both clauses, at the first and the last address of CMD's word. -/
theorem witness_CmdWriteIsAcceptedOrDropped :
    aligned 0x004 = 0x004 ∧ aligned 0x007 = 0x004 ∧
    (let s := given [.write 0x004 0] State.reset
     s.inReset = false ∧ ¬ s.completionDue ∧ s.inputs = [.write 0x004 0] ∧ s.phase = .idle) ∧
    let s := given [.write 0x007 0xFFFFFFFF] (running State.reset)
    s.inReset = false ∧ ¬ s.completionDue ∧ s.inputs = [.write 0x007 0xFFFFFFFF] ∧ s.phase = .busy :=
  ⟨by decide, by decide, ⟨rfl, not_due_of_idle rfl, rfl, rfl⟩, rfl, not_due_running _ _, rfl, rfl⟩

/-- A BUSY state with nothing computed meets the invariant. -/
theorem inv_of_plain (s : State) (hp : s.params.wf = true) (hi : s.ibuf = []) (ho : s.obuf = []) (hl : s.outLen = 0)
    (ht : s.totalBits = 0) (hb : s.done = false ∧ s.err = .noError) (hf : s.ftValid = false) (htr : s.treeValid = false)
    (hc : s.ctValid = false) : s.Inv where
  params := hp
  ibufWf := by rw [hi]; exact List.Pairwise.nil
  ibufBound := by simp [hi]
  obufWf := by rw [ho]; exact List.Pairwise.nil
  obufBound := by simp [ho]
  outLen := by simp [hl]
  totalBits := by simp [ht]
  busy := fun _ => hb
  freqOk := by simp [hf]
  treeOk := by simp [htr]
  ctOk := by simp [hc]

theorem witness_CompletionEndsBusy :
    (due .compress State.reset).Inv ∧ (due .compress State.reset).completionDue ∧
    decode (due .compress State.reset).pending = .ok .compress :=
  ⟨inv_of_plain _ rfl rfl rfl rfl rfl ⟨rfl, rfl⟩ rfl rfl rfl, ⟨rfl, rfl, rfl⟩, by decide⟩

/-- A step with a completion due, one that accepts, one that only reads, and one that releases reset. -/
theorem witness_DoneAndErrChangeOnlySo :
    (∃ t, step (due .nop State.reset) = .next t ∧ (due .nop State.reset).completionDue) ∧
    (∃ t, step (given [.write 0x004 0] State.reset) = .next t ∧
      ¬ (given [.write 0x004 0] State.reset).completionDue) ∧
    (∃ t, step (given [.read 0x008] State.reset) = .next t ∧ ¬ (given [.read 0x008] State.reset).completionDue) ∧
    ∃ t, step (given [.releaseReset] { State.reset with inReset := true }) = .next t ∧
      ¬ (given [.releaseReset] { State.reset with inReset := true }).completionDue :=
  ⟨⟨_, rfl, rfl, rfl, rfl⟩, ⟨_, rfl, not_due_of_idle rfl⟩, ⟨_, rfl, not_due_of_idle rfl⟩,
    ⟨_, rfl, not_due_in_reset rfl⟩⟩

/-- DROP set by a CMD write, cleared by CLEAR, cleared by reset. -/
theorem witness_DropIsSticky :
    (∃ t, step (given [.write 0x006 0] (running State.reset)) = .next t ∧ t.drop = true ∧
      (running State.reset).drop = false ∧ aligned 0x006 = 0x004 ∧
      ¬ (given [.write 0x006 0] (running State.reset)).completionDue) ∧
    (∃ t, step { due .clear State.reset with drop := true } = .next t ∧ t.drop = false ∧
      (due .clear State.reset).completionDue ∧ decode (due .clear State.reset).pending = .ok .clear) ∧
    ∃ t, step (given [.releaseReset] { State.reset with inReset := true, drop := true }) = .next t ∧ t.drop = false :=
  ⟨⟨_, rfl, rfl, rfl, by decide, not_due_running _ _⟩, ⟨_, rfl, rfl, ⟨rfl, rfl, rfl⟩, by decide⟩, ⟨_, rfl, rfl⟩⟩

theorem witness_ReadsHaveNoSideEffect :
    (let s := given [.read 0xFFFFFFFF] State.reset
     s.inReset = false ∧ ¬ s.completionDue ∧ s.inputs = [.read 0xFFFFFFFF]) ∧
    (let s := given [.wait] State.reset
     s.inReset = false ∧ ¬ s.completionDue ∧ s.inputs = [.wait] ∧ s.phase = .idle) ∧
    let s := given [.wait] (running State.reset)
    s.inReset = false ∧ ¬ s.completionDue ∧ s.inputs = [.wait] ∧ s.phase = .busy :=
  ⟨⟨rfl, not_due_of_idle rfl, rfl⟩, ⟨rfl, not_due_of_idle rfl, rfl, rfl⟩, rfl, not_due_running _ _, rfl, rfl⟩

theorem witness_ConstantRegisters :
    aligned 0x003 = 0x000 ∧ aligned 0x063 = 0x060 ∧ aligned 0x067 = 0x064 ∧
    ∃ t, step (due .tdec (loaded [])) = .next t := ⟨by decide, by decide, by decide, _, rfl⟩

theorem witness_StatusFields : aligned 0x00B = 0x008 ∧ State.reset.phase = .idle := ⟨by decide, rfl⟩

theorem witness_RegisterReads :
    aligned 0x00F = 0x00C ∧ aligned 0x018 = 0x018 ∧ aligned 0x02C = 0x02C ∧ aligned 0x034 = 0x034 ∧
    aligned 0x004 = 0x004 ∧ aligned 0x010 = 0x010 ∧ aligned 0x014 = 0x014 ∧ aligned 0x01C = 0x01C ∧
    aligned 0x020 = 0x020 ∧ aligned 0x024 = 0x024 ∧ aligned 0x02B = 0x028 ∧
    (counted [a]).phase = .idle ∧ (counted [a]).ftValid = true ∧ (built [a]).treeValid = true ∧
    (built [a]).padOutUnspec = false ∧ (built [a]).totalBitsUnspec = false := by decide +kernel

/-- The last code word, the last node and the index that names none, the last counter. -/
theorem witness_WindowReads :
    (coded [a]).phase = .idle ∧ (coded [a]).ctValid = true ∧ aligned 0x030 = 0x030 ∧ aligned 0x05F = 0x040 + 4 * 7 ∧
    (coded [a]).treeValid = true ∧ (nodeAt? { coded [a] with nodeSel := 510 }.nodes 510).isSome = true ∧
    aligned 0x038 = 0x038 ∧ aligned 0x03F = 0x03C ∧ { coded [a] with nodeSel := 511 }.nodeSel = 511 ∧
    (coded [a]).ftValid = true ∧ aligned 0x7FF = 0x400 + 4 * (255#8).toNat := by decide +kernel

/-- Two different states that agree on what R68 lists. -/
theorem witness_BusyReadsRevealNothing :
    let s := running State.reset
    let s' := { running State.reset with outLen := 7, ftValid := true, pending := 1 }
    s ≠ s' ∧ s.phase = .busy ∧ s'.phase = .busy ∧ s.params = s'.params ∧ s.draws = s'.draws ∧ s.ibuf = s'.ibuf ∧
      s.inLen = s'.inLen ∧ s.padIn = s'.padIn ∧ s.ctSel = s'.ctSel ∧ s.nodeSel = s'.nodeSel ∧ s.done = s'.done ∧
      s.drop = s'.drop ∧ s.err = s'.err :=
  ⟨fun h => by have := congrArg State.outLen h; revert this; decide, rfl, rfl, rfl, rfl, rfl, rfl, rfl, rfl, rfl, rfl,
    rfl, rfl⟩

theorem witness_GatedReadsRevealNothing :
    State.reset.ftValid = false ∧ State.reset.ctValid = false ∧ State.reset.treeValid = false := ⟨rfl, rfl, rfl⟩

theorem witness_RwRegistersReadBack :
    (∀ x y : Word, (given [.write x 0xFFFFFFFF, .read y] State.reset).inReset = false ∧
      (given [.write x 0xFFFFFFFF, .read y] State.reset).phase = .idle) ∧
    aligned 0x00C = 0x00C ∧ aligned 0x00F = 0x00C ∧ aligned 0x018 = 0x018 ∧ aligned 0x02F = 0x02C ∧
    aligned 0x034 = 0x034 := ⟨fun _ _ => ⟨rfl, rfl⟩, by decide, by decide, by decide, by decide, by decide⟩

/-- The first and the last word of every reserved range. -/
theorem witness_ReservedAddresses :
    Params.vectors.wf = true ∧
    [0x068#32, 0x3FF, 0x800, 0xFFF, 0x1000, 0x3FFFFFFF, 0x40000400, 0x7FFFFFFF, 0x80000400, 0xFFFFFFFF].all
      (reservedAddr Params.vectors) = true := by decide +kernel

/-- The first and the last word of every read-only range. -/
theorem witness_ReadOnlyAddresses :
    Params.vectors.wf = true ∧
    [0x000#32, 0x008, 0x010, 0x014, 0x01C, 0x028, 0x030, 0x038, 0x03F, 0x040, 0x05F, 0x060, 0x064, 0x400, 0x7FF,
      0x80000000, 0x800003FF].all (readOnlyAddr Params.vectors) = true := by decide +kernel

/-- The first and the last word of both windows; a byte of IBUF and one of OBUF that has a value. -/
theorem witness_BufferWindowLanes :
    Params.vectors.wf = true ∧ aligned 0x40000000 = 0x40000000 + 4 * 0 ∧ aligned 0x400003FF = 0x40000000 + 4 * 255 ∧
    4 * 255 < Params.vectors.ibufBytes ∧ aligned 0x80000000 = 0x80000000 + 4 * 0 ∧
    aligned 0x800003FF = 0x80000000 + 4 * 255 ∧ 4 * 255 < Params.vectors.obufBytes ∧
    (loaded [a]).ibuf.read? 0 = some a ∧ (after .tenc (built skewed)).obuf.read? 3 = some 0x10 ∧
    (after .tenc (built skewed)).phase = .idle := by decide +kernel

/-- A write while IDLE, one that goes on while BUSY, one that is refused. -/
theorem witness_WriteStepDoesTheWrite :
    (let s := given [.write 0x400003FF 0xFFFFFFFF] State.reset
     s.inReset = false ∧ s.inputs = [.write 0x400003FF 0xFFFFFFFF] ∧ s.phase = .idle) ∧
    (let s := given [.write 0x004 1] (running State.reset)
     s.inReset = false ∧ s.phase = .busy ∧ ¬ s.completionDue ∧ ∃ t, s.hostWrite 0x004 1 = .next t) ∧
    let s := given [.write 0x00C 1] (running State.reset)
    s.inReset = false ∧ s.phase = .busy ∧ ¬ s.completionDue ∧ ∃ r, s.hostWrite 0x00C 1 = .refused r :=
  ⟨⟨rfl, rfl, rfl⟩, ⟨rfl, rfl, not_due_running _ _, _, rfl⟩, rfl, rfl, not_due_running _ _, _, rfl⟩

/-- Both clauses, at the ends of the IBUF window and just outside it. -/
theorem witness_BusyWritesRefusedOrHarmless :
    (let s := given [.write 0x40000000 1] (running State.reset)
     s.inReset = false ∧ s.phase = .busy ∧ ¬ s.completionDue) ∧
    [0x00C#32, 0x01B, 0x02C, 0x037, 0x40000000, 0x400003FF].all (hazardAddr Params.vectors) = true ∧
    [0x004#32, 0x008, 0x3FFFFFFF, 0x40000400, 0x80000000, 0xFFFFFFFF].any (hazardAddr Params.vectors) = false :=
  ⟨⟨rfl, rfl, not_due_running _ _⟩, by decide +kernel, by decide +kernel⟩

theorem witness_EveryCommandCompletes :
    let s := given [.write 0x004 0, .wait, .read 0x008] { due .count State.reset with delay := 2 }
    s.Inv ∧ s.inReset = false ∧ s.phase = .busy ∧ ∀ i ∈ s.inputs, i.harmless s.params = true :=
  ⟨inv_of_plain _ rfl rfl rfl rfl rfl ⟨rfl, rfl⟩ rfl rfl rfl, rfl, rfl, by decide⟩

theorem witness_BusyStartsAndEndsOnlySo :
    (∃ t, step (given [.write 0x004 0] State.reset) = .next t ∧ State.reset.phase = .idle ∧ t.phase = .busy) ∧
    (∃ t, step (due .nop State.reset) = .next t ∧ (due .nop State.reset).phase = .busy ∧ t.phase = .idle) ∧
    ∃ t, step (running State.reset) = .next t ∧ (running State.reset).phase = .busy ∧ t.phase = .busy :=
  ⟨⟨_, rfl, rfl, rfl⟩, ⟨_, rfl, rfl, rfl⟩, ⟨_, rfl, rfl, rfl⟩⟩

theorem witness_ResetState :
    ∃ s rest, (given [.releaseReset, .read 0] { running State.reset with inReset := true }).inputs =
        .releaseReset :: rest ∧
      step (given [.releaseReset, .read 0] { running State.reset with inReset := true }) = .next s ∧
      s.params = Params.vectors := ⟨_, _, rfl, rfl, rfl⟩

/-- Reset asserted while IDLE and while BUSY; released; a host write and a due command while it is asserted. -/
theorem witness_ResetHoldsTheBlock :
    (let s := given [.assertReset] State.reset
     s.inReset = false ∧ ¬ s.completionDue ∧ s.inputs = [.assertReset]) ∧
    (let s := given [.assertReset] (running State.reset)
     s.inReset = false ∧ ¬ s.completionDue ∧ s.inputs = [.assertReset] ∧ s.phase = .busy) ∧
    (let s := given [.releaseReset] { running State.reset with inReset := true }
     s.inReset = true ∧ s.inputs.head? = some .releaseReset) ∧
    let s := given [.write 0x004 0] { due .nop State.reset with inReset := true }
    s.inReset = true ∧ s.inputs.head? ≠ some .releaseReset ∧ s.inputs.head? = some (.write 0x004 0) :=
  ⟨⟨rfl, not_due_of_idle rfl, rfl⟩, ⟨rfl, not_due_running _ _, rfl, rfl⟩, ⟨rfl, rfl⟩, rfl, by decide, rfl⟩

theorem witness_IdleDoesNothing :
    State.reset.inReset = false ∧ State.reset.phase = .idle ∧ State.reset.inputs = [] := ⟨rfl, rfl, rfl⟩

/-- An illegal word; IN_LEN one above IBUF_BYTES; IN_LEN at IBUF_BYTES and a flag that is 0, for each flag. -/
theorem witness_PreChecksInOrder :
    (∀ i, decode (State.reset.placeCommand 0x100).pending ≠ .ok i) ∧
    decode (due .pack State.reset).pending = .ok .pack ∧
    State.reset.params.ibufBytes < { State.reset with inLen := 1025 }.inLen.toNat ∧
    { State.reset with inLen := 1024 }.inLen.toNat ≤ State.reset.params.ibufBytes ∧
    decode (due .build State.reset).pending = .ok .build ∧ State.reset.ftValid = false ∧
    decode (due .unpack State.reset).pending = .ok .unpack ∧ State.reset.treeValid = false ∧
    State.reset.ctValid = false := by
  refine ⟨fun i => ?_, by decide, by decide, by decide, by decide, rfl, by decide, rfl, rfl⟩
  show decode 0x100 ≠ _
  rw [show decode 0x100 = .error .reservedBits by decide]; exact nofun

/-- A state for every error. -/
theorem witness_ErrorsOfEachCommand :
    (∃ t, exec .unpack { built [a] with inLen := 0, padIn := 7 } = .next t ∧ t.err = .corruptStream) ∧
    (∃ t, exec .tdec (loaded []) = .next t ∧ t.err = .invalidHeader) ∧
    (∃ t, exec .pack { coded [a] with ibuf := [(0, b)] } = .next t ∧ t.err = .noCode) ∧
    (∃ t, exec .count { State.reset with inLen := 1025 } = .next t ∧ t.err = .badLength) ∧
    (∃ t, exec .gencodes State.reset = .next t ∧ t.err = .notReady) ∧
    ∃ t, exec .compress { loaded [a] with params := { ibufBytes := 4, obufBytes := 0 } } = .next t ∧
      t.err = .outOverflow :=
  ⟨⟨_, next_after (by decide +kernel), by decide +kernel⟩, ⟨_, next_after (by decide +kernel), by decide +kernel⟩,
    ⟨_, next_after (by decide +kernel), by decide +kernel⟩, ⟨_, next_after (by decide +kernel), by decide +kernel⟩,
    ⟨_, next_after (by decide +kernel), by decide +kernel⟩, ⟨_, next_after (by decide +kernel), by decide +kernel⟩⟩

/-- An execution error of every command that can raise one. -/
theorem witness_AbortRule :
    (after .pack { coded [a] with ibuf := [(0, b)] }).err.isExecution = true ∧
    (after .unpack { built [a] with inLen := 0, padIn := 7 }).err.isExecution = true ∧
    (after .tdec (loaded [])).err.isExecution = true ∧
    (after .compress { loaded [a] with params := { ibufBytes := 4, obufBytes := 0 } }).err.isExecution = true ∧
    (after .decompress (loaded [])).err.isExecution = true := by decide +kernel

theorem witness_EngineLeavesTheHostsState : ∃ t, exec .count (loaded abracadabra) = .next t := ⟨_, rfl⟩

/-- A command outside every list, and one in them. -/
theorem witness_CommandsWriteOnlyTheirResults :
    (∃ t, exec .nop State.reset = .next t) ∧ (∃ t, exec .tdec (loaded [0x00, 0x00]) = .next t) ∧
    (after .tdec (loaded [0x00, 0x00])).err.isExecution = false := ⟨⟨_, rfl⟩, ⟨_, rfl⟩, by decide +kernel⟩

theorem witness_CountCounts :
    { State.reset with inLen := 1024 }.inLen.toNat ≤ State.reset.params.ibufBytes ∧
    State.reset.params.ibufBytes < { State.reset with inLen := 1025 }.inLen.toNat := by decide

/-- No symbol, one symbol, more. -/
theorem witness_BuildMakesATree :
    (counted []).ftValid = true ∧ distinct (counted []).freq = 0 ∧ (counted [a]).ftValid = true ∧
    distinct (counted [a]).freq = 1 ∧ distinct (counted abracadabra).freq = 5 := by decide +kernel

/-- The first and the last merge. -/
theorem witness_BuildJoinsTheTwoLowest :
    (counted abracadabra).ftValid = true ∧ distinct (counted abracadabra).freq ≤ 5 ∧
    8 < 2 * distinct (counted abracadabra).freq - 1 ∧ waitingAt (built abracadabra).nodes 5 0 := by
  refine ⟨by decide +kernel, by decide +kernel, by decide +kernel, by decide, fun j nd hj hn hl => ?_⟩
  have h : ∀ j : Fin 5, ((built abracadabra).nodes[j.val]?.map Node.leaf) = some true := by decide +kernel
  have := h ⟨j, hj⟩
  rw [hn, Option.map_some, hl] at this
  cases this

theorem witness_BuildSumsDoNotWrap :
    (counted skewed).ftValid = true ∧ ((counted skewed).freq.toList.map BitVec.toNat).sum ≤ 2 ^ 30 ∧
    (built skewed).nodes[2]? = some (internalNode 1 0 9) ∧ (built skewed).nodes[1]? = some (leafNode b 1) ∧
    (built skewed).nodes[0]? = some (leafNode a 8) ∧
    nodeAt? (built skewed).nodes (built skewed).root = some (internalNode 1 0 9) := by decide +kernel

/-- Two inputs that are permutations of each other, and one COMPRESS. -/
theorem witness_BuildDependsOnCountsAlone :
    (loaded [a, b]).inputWritten ∧
    (loaded [a, b]).inputBytes.Perm (loaded [b, a]).inputBytes ∧
    (loaded [a, b]).inLen.toNat ≤ Params.vectors.ibufBytes ∧ (counted [a, b]).ftValid = true ∧
    { counted [a, b] with padIn := 1 }.freq = (counted [a, b]).freq ∧
    (after .compress (loaded [a, b])).err = .noError := by
  refine ⟨loaded_written _, ?_, by decide, by decide +kernel, rfl, by decide +kernel⟩
  rw [show (loaded [a, b]).inputBytes = [a, b] by decide +kernel,
    show (loaded [b, a]).inputBytes = [b, a] by decide +kernel]
  exact .swap _ _ _

/-- The tree of `bytes` has codes and a descriptor, and satisfies R44. -/
theorem built_tree (bytes : List Byte) :
    TreeOk (distinct (tally (loaded bytes).inputBytes)) (buildTree (countInput (loaded bytes))).nodes
      (buildTree (countInput (loaded bytes))).root :=
  buildTree_treeOk (countInput (loaded bytes))

/-- The empty tree, one leaf, more. -/
theorem witness_GencodesFillsTheTable :
    State.reset.treeValid = false ∧ ∀ bytes ∈ [[], [a], abracadabra],
      (buildTree (countInput (loaded bytes))).treeValid = true ∧
      ∃ n codes, TreeCodes n (buildTree (countInput (loaded bytes))).nodes (buildTree (countInput (loaded bytes))).root
        codes := ⟨rfl, fun bytes _ => ⟨rfl, _, (built_tree bytes).treeCodes⟩⟩

/-- One leaf and more. -/
theorem witness_CodeLengths :
    ∀ bytes ∈ [[a], skewed],
      (buildTree (countInput (loaded bytes))).treeValid = true ∧
      TreeOk (distinct (tally (loaded bytes).inputBytes)) (buildTree (countInput (loaded bytes))).nodes
        (buildTree (countInput (loaded bytes))).root := fun bytes _ => ⟨rfl, built_tree bytes⟩

/-- No leaf, one leaf, two leaves. -/
theorem witness_CodesArePrefixFree :
    (∀ bytes ∈ [[], [a], skewed], TreeOk (distinct (tally (loaded bytes).inputBytes))
      (buildTree (countInput (loaded bytes))).nodes (buildTree (countInput (loaded bytes))).root) ∧
    distinct (tally (loaded []).inputBytes) = 0 ∧ distinct (tally (loaded [a]).inputBytes) = 1 ∧
    distinct (tally (loaded skewed).inputBytes) = 2 :=
  ⟨fun bytes _ => built_tree bytes, by decide +kernel, by decide +kernel, by decide +kernel⟩

/-- SYMCOUNT 0 and more. -/
theorem witness_TencWritesTheStream :
    Params.vectors.wf = true ∧ ∀ bytes ∈ [[], skewed],
      ∃ desc, TreeDesc (distinct (tally (loaded bytes).inputBytes)) (buildTree (countInput (loaded bytes))).nodes
        (buildTree (countInput (loaded bytes))).root desc ∧
      (buildTree (countInput (loaded bytes))).symcount.toNat = distinct (tally (loaded bytes).inputBytes) := by
  refine ⟨by decide, fun bytes hb => ?_⟩
  obtain ⟨desc, h⟩ := (built_tree bytes).treeDesc
  refine ⟨desc, h, ?_⟩
  show (BitVec.ofNat 9 (distinct (tally (loaded bytes).inputBytes))).toNat = _
  have := distinct_le (tally (loaded bytes).inputBytes)
  rw [BitVec.toNat_ofNat, Nat.mod_eq_of_lt (by omega)]

/-- The tree of R300's example. -/
def twoLeaves : Shape := .node 0 (.leaf 1 b) (.leaf 2 a)

theorem twoLeaves_described : Described 2 twoLeaves.desc twoLeaves.codes :=
  .inr ⟨twoLeaves, rfl, by decide, rfl, rfl⟩

/-- The stream of R310's example, and the empty tree's. -/
theorem witness_TdecReadsTheStream :
    (loaded [0x01, 0x2C, 0x56, 0x10]).inLen.toNat ≤ Params.vectors.ibufBytes ∧
    Described 2 twoLeaves.desc twoLeaves.codes ∧
    streamBits (loaded [0x01, 0x2C, 0x56, 0x10]).inputBytes =
      bitsOf 9 2 ++ twoLeaves.desc ++ [false, false, false, false] ∧
    Described 0 [] [] ∧
    streamBits (loaded [0x00, 0x00]).inputBytes = bitsOf 9 0 ++ [] ++ List.replicate 7 false :=
  ⟨by decide +kernel, twoLeaves_described, by decide +kernel, .inl ⟨rfl, rfl, rfl⟩, by decide +kernel⟩

theorem witness_TdecInvertsTenc :
    (after .tenc (built skewed)).treeValid = true ∧ (∃ t, exec .tenc (built skewed) = .next t) ∧
    (loaded [0x01, 0x2C, 0x56, 0x10]).inputBytes = (after .tenc (built skewed)).outputBytes ∧
    (loaded [0x01, 0x2C, 0x56, 0x10]).inLen.toNat ≤ Params.vectors.ibufBytes ∧
    ∃ codes, TreeOk (distinct (tally (loaded skewed).inputBytes)) (buildTree (countInput (loaded skewed))).nodes
        (buildTree (countInput (loaded skewed))).root ∧
      TreeCodes (distinct (tally (loaded skewed).inputBytes)) (buildTree (countInput (loaded skewed))).nodes
        (buildTree (countInput (loaded skewed))).root codes := by
  obtain ⟨codes, h⟩ := (built_tree skewed).treeCodes
  exact ⟨by decide +kernel, ⟨_, next_after (by decide +kernel)⟩, by decide +kernel, by decide +kernel, codes,
    built_tree skewed, h⟩

/-- Counts 257 and 511; a leaf too few, a repeated symbol; a count of 1 and flag 0; two leaves of one symbol. -/
theorem witness_TdecRejectsInconsistentTrees :
    (loaded [0x01, 0x2C, 0x36, 0x10]).inLen.toNat ≤ Params.vectors.ibufBytes ∧
    streamBits (loaded [0x80, 0x80]).inputBytes = bitsOf 9 257 ++ List.replicate 7 false ∧
    streamBits (loaded [0xFF, 0x80]).inputBytes = bitsOf 9 511 ++ List.replicate 7 false ∧
    streamBits (loaded [0x01, 0x58, 0x40]).inputBytes =
      bitsOf 9 2 ++ (Shape.leaf 0 a).desc ++ List.replicate 6 false ∧
    (Shape.leaf 0 a).symbols.length ≠ 2 ∧
    streamBits (loaded [0x01, 0x2C, 0x36, 0x10]).inputBytes =
      bitsOf 9 2 ++ (Shape.node 0 (.leaf 1 a) (.leaf 2 a)).desc ++ List.replicate 4 false ∧
    ¬ (Shape.node 0 (.leaf 1 a) (.leaf 2 a)).symbols.Nodup ∧
    streamBits (loaded [0x00, 0x80]).inputBytes =
      bitsOf 9 1 ++ List.replicate 1 false ++ List.replicate 6 false ∧
    streamBits (loaded [0x01, 0x2C, 0x36, 0x10]).inputBytes =
      bitsOf 9 2 ++ List.replicate (2 - 1) false ++ (true :: bitsOf 8 a.toNat) ++ (true :: bitsOf 8 a.toNat) ++
        List.replicate 4 false :=
  ⟨by decide, by decide +kernel, by decide +kernel, by decide +kernel, by decide, by decide +kernel, by decide,
    by decide +kernel, by decide +kernel⟩

/-- A tree whose count and descriptor are 38 bits long. -/
def threeLeaves : Shape := .node 0 (.leaf 1 b) (.node 2 (.leaf 3 a) (.leaf 4 c))

theorem threeLeaves_described : Described 3 threeLeaves.desc threeLeaves.codes :=
  .inr ⟨threeLeaves, rfl, by decide, rfl, rfl⟩

/-- No data at all; data cut inside the count, and inside the descriptor; data cut inside the padding field. -/
theorem witness_TruncatedHeaderIsInvalid :
    Described 2 twoLeaves.desc twoLeaves.codes ∧ Described 3 threeLeaves.desc threeLeaves.codes ∧
    (streamBits (loaded []).inputBytes ++ (bitsOf 9 2 ++ twoLeaves.desc) = bitsOf 9 2 ++ twoLeaves.desc ∧
      bitsOf 9 2 ++ twoLeaves.desc ≠ []) ∧
    streamBits (loaded [0x01]).inputBytes ++ (bitsOf 9 2 ++ twoLeaves.desc).drop 8 = bitsOf 9 2 ++ twoLeaves.desc ∧
    streamBits (loaded [0x01, 0x2C, 0x56]).inputBytes ++ [false, false, false, true] = bitsOf 9 2 ++ twoLeaves.desc ∧
    streamBits (loaded (packBytes (bitsOf 9 3 ++ threeLeaves.desc ++ [true, false]))).inputBytes =
      bitsOf 9 3 ++ threeLeaves.desc ++ [true, false] ∧
    (loaded (packBytes (bitsOf 9 3 ++ threeLeaves.desc ++ [true, false]))).inLen.toNat ≤ Params.vectors.ibufBytes :=
  ⟨twoLeaves_described, threeLeaves_described, ⟨by decide +kernel, by decide⟩, by decide +kernel, by decide +kernel,
    by decide +kernel, by decide +kernel⟩

/-- NODE and ROOT of a single leaf, as TDEC writes them. -/
def oneLeaf (s : State) : State :=
  { s with nodes := arenaOf [leafNode a 0], root := 0, symcount := 1, treeValid := true }

def oneCode : List (Byte × List Bool) := [(a, [false])]

theorem oneLeaf_codes (s : State) : TreeCodes 1 (oneLeaf s).nodes (oneLeaf s).root oneCode := by
  refine .inr ⟨le_refl _, .leaf 0 a, ⟨⟨leafNode a 0, arenaOf_getElem? (by decide), rfl⟩, rfl, .refl _, rfl, by decide, ?_⟩, rfl⟩
  intro i nd hi hn
  by_cases h : i < 511
  · rw [show (oneLeaf s).nodes = arenaOf [leafNode a 0] from rfl, arenaOf_getElem? h] at hn
    cases i with
    | zero => omega
    | succ i => simpa using hn.symm
  · simp [h] at hn

/-- Every byte of the input has a code of 255 bits: eleven of them need more than 324 bytes. -/
def longCodes (s : State) : State :=
  { s with
    params := { ibufBytes := 1024, obufBytes := 324 }, ctValid := true
    ct := Vector.replicate 256 { valid := true, len := 255, code := 0 } }

/-- A payload that fits, one that does not, a byte with no code. -/
theorem witness_PackWritesThePayload :
    ((coded skewed).inputWritten ∧ (longCodes (loaded (List.replicate 11 a))).inputWritten ∧
      { coded skewed with ibuf := [(0, c)], inLen := 1 }.inputWritten) ∧
    ((coded skewed).params.wf = true ∧ (coded skewed).ctValid = true ∧
      (coded skewed).inLen.toNat ≤ (coded skewed).params.ibufBytes ∧
      (coded skewed).inputBytes.all (fun b => (ctOf (coded skewed).ct b).valid) = true ∧
      ceil8 ((coded skewed).inputBytes.map fun b => (ctOf (coded skewed).ct b).len.toNat).sum ≤
        (coded skewed).params.obufBytes) ∧
    (let s := longCodes (loaded (List.replicate 11 a))
     s.params.wf = true ∧ s.ctValid = true ∧ s.inLen.toNat ≤ s.params.ibufBytes ∧
      s.inputBytes.all (fun b => (ctOf s.ct b).valid) = true ∧
      s.params.obufBytes < ceil8 (s.inputBytes.map fun b => (ctOf s.ct b).len.toNat).sum) ∧
    let s := { coded skewed with ibuf := [(0, c)], inLen := 1 }
    s.inputBytes = [c] ∧ (ctOf s.ct c).valid = false :=
  ⟨⟨written_of_ofBytes (bytes := skewed) (by decide +kernel) (by decide +kernel), loaded_written (List.replicate 11 a),
    written_of_ofBytes (bytes := [c]) rfl (by decide)⟩, by decide +kernel, by decide +kernel, by decide +kernel⟩

/-- Output that fits, output that does not, more padding than payload, bits that are no code. -/
theorem witness_UnpackReadsThePayload :
    (∀ s, TreeCodes 1 (oneLeaf s).nodes (oneLeaf s).root oneCode) ∧
    (let s := { oneLeaf (loaded [0x00]) with padIn := 7 }
     s.params.wf = true ∧ s.inLen.toNat ≤ s.params.ibufBytes ∧
      encodeWith oneCode [a] = some ((streamBits s.inputBytes).take (8 * s.inLen.toNat - s.padIn.toNat))) ∧
    (let s := { oneLeaf (loaded (List.replicate 41 0x00)) with params := { ibufBytes := 1024, obufBytes := 324 } }
     s.params.wf = true ∧ s.inLen.toNat ≤ s.params.ibufBytes ∧ s.params.obufBytes < (List.replicate 328 a).length ∧
      encodeWith oneCode (List.replicate 328 a) =
        some ((streamBits s.inputBytes).take (8 * s.inLen.toNat - s.padIn.toNat))) ∧
    8 * { oneLeaf (loaded []) with padIn := 1 }.inLen.toNat < { oneLeaf (loaded []) with padIn := 1 }.padIn.toNat ∧
    TreeCodes 0 State.reset.nodes State.reset.root [] ∧
    ∀ out, encodeWith [] out ≠ some ((streamBits (loaded [0x10]).inputBytes).take 8) := by
  refine ⟨oneLeaf_codes, by decide +kernel, by decide +kernel, by decide, .inl ⟨rfl, rfl, rfl⟩, fun out => ?_⟩
  rw [show (streamBits (loaded [0x10]).inputBytes).take 8 = bitsOf 8 0x10 by decide +kernel]
  cases out <;> simp [encodeWith, bitsOf]

/-- CT, NODE and ROOT of a single leaf. -/
def oneCoded (s : State) : State := { oneLeaf s with ct := tableOf oneCode, ctValid := true }

theorem witness_UnpackInvertsPack :
    (oneCoded (loaded [a, a, a])).inputWritten ∧
    TreeCodes 1 (oneCoded (loaded [a, a, a])).nodes (oneCoded (loaded [a, a, a])).root oneCode ∧
    TableHolds (oneCoded (loaded [a, a, a])).ct oneCode ∧
    exec .pack (oneCoded (loaded [a, a, a])) = .next (after .pack (oneCoded (loaded [a, a, a]))) ∧
    (after .pack (oneCoded (loaded [a, a, a]))).err = .noError ∧
    (oneLeaf { loaded [0x00] with padIn := 5 }).padIn = (after .pack (oneCoded (loaded [a, a, a]))).padOut ∧
    (oneLeaf { loaded [0x00] with padIn := 5 }).inputBytes =
      (after .pack (oneCoded (loaded [a, a, a]))).outputBytes :=
  ⟨loaded_written [a, a, a], oneLeaf_codes (loaded [a, a, a]), (oneLeaf_codes (loaded [a, a, a])).tableOf_holds, next_after (by decide +kernel),
    by decide +kernel, by decide +kernel, by decide +kernel⟩

/-- No code is empty, so a bit string has at least one bit for each input byte. -/
theorem length_le_bits {n : Nat} {nodes : Vector Node 511} {root : BitVec 9} {codes : List (Byte × List Bool)}
    (hc : TreeCodes n nodes root codes) {input : List Byte} :
    ∀ {bits : List Bool}, encodeWith codes input = some bits → input.length ≤ bits.length := by
  induction input with
  | nil => simp
  | cons b bs ih =>
    intro bits h
    obtain ⟨c, rest, hm, hr, rfl⟩ := encodeWith_cons_some h
    have := hc.length_bounds hm
    have := ih hr
    simp only [List.length_cons, List.length_append]
    omega

/-- 2592 bytes, of whatever value, into an OBUF of 324. -/
def tooLong (ibuf : Memory) : State :=
  { State.reset with params := { ibufBytes := 4096, obufBytes := 324 }, ibuf := ibuf, inLen := 2592 }

theorem tooLong_overflows (ibuf : Memory) : ∃ t, exec .compress (tooLong ibuf) = .next t ∧ t.err = .outOverflow := by
  have hl : (tooLong ibuf).inLen.toNat ≤ (tooLong ibuf).params.ibufBytes := by
    show (2592#32).toNat ≤ 4096
    decide
  obtain ⟨desc, codes, -, hc, -, -, he, hb⟩ := compress_main hl
  have h := length_le_bits hc he
  rw [inputBytes_length, codeBits_length, show (tooLong ibuf).inLen.toNat = 2592 from rfl] at h
  refine ⟨_, exec_of_raise (fun _ => hl) (by simp [neededFlag]) (hb.trans (if_pos ?_)), rfl⟩
  show 324 < _
  unfold ceil8
  omega

/-- A container that fits, one that does not, a size that is always enough. -/
theorem witness_CompressWritesTheContainer :
    (loaded [a, a, a, a]).inputWritten ∧ (after .compress (loaded [a, a, a, a])).err = .noError ∧
    322 + 32 * (loaded [a, a, a, a]).inLen.toNat ≤ Params.vectors.obufBytes ∧
    let s := tooLong (Memory.ofBytes 0 (List.replicate 2592 a))
    s.params.wf = true ∧ s.inLen.toNat ≤ s.params.ibufBytes ∧ s.inputWritten ∧
      ∃ t, exec .compress s = .next t ∧ t.err = .outOverflow :=
  ⟨loaded_written _, by decide +kernel, by decide, rfl, by decide,
    written_of_ofBytes rfl (by rw [List.length_replicate]; decide), tooLong_overflows _⟩

theorem witness_CompressPadsAsPackDoes :
    (loaded abracadabra).inputWritten ∧
    exec .compress (loaded abracadabra) = .next (after .compress (loaded abracadabra)) ∧
    (after .compress (loaded abracadabra)).err = .noError :=
  ⟨loaded_written _, next_after (by decide +kernel), by decide +kernel⟩

/-- For PACK a byte with no code and, on an input that the host never wrote, a payload that does not fit and one that
fits; for COMPRESS a container that does not fit, of such an input, and one that fits. -/
theorem witness_LoopsReadAfresh :
    (loaded [a]).inputWritten ∧
    (let s := { coded skewed with ibuf := [(0, c)], inLen := 1 }
     s.params.wf = true ∧ s.ctValid = true ∧ s.inLen.toNat ≤ s.params.ibufBytes ∧ s.inputPass 0 = [c] ∧
      (ctOf s.ct c).valid = false) ∧
    (∀ n ∈ [1#32, 11#32],
      let s := longCodes { State.reset with inLen := n }
      s.params.wf = true ∧ s.ctValid = true ∧ s.inLen.toNat ≤ s.params.ibufBytes ∧ ¬ s.inputWritten ∧
      (∀ b ∈ s.inputPass 0, (ctOf s.ct b).valid = true) ∧
      ((s.inputPass 1).map fun b => (ctOf s.ct b).len.toNat).sum = 255 * n.toNat ∧
      ((s.inputPass 2).flatMap fun b => bitsOf (ctOf s.ct b).len.toNat (ctOf s.ct b).code.toNat).length =
        255 * n.toNat) ∧
    324 < ceil8 (255 * 11) ∧ ceil8 (255 * 1) ≤ 324 ∧ ceil8 (255 * 1 + 1) ≤ 324 ∧
    (¬ (tooLong []).inputWritten ∧ ∃ t, exec .compress (tooLong []) = .next t ∧ t.err = .outOverflow) ∧
    (after .compress (loaded [a, a, a, a])).err = .noError := by
  have hent : ∀ (s : State) (b : Byte), ctOf (longCodes s).ct b = { valid := true, len := 255, code := 0 } := by
    intro s b
    simp [longCodes, ctOf]
  refine ⟨loaded_written _, by decide +kernel, fun n hn => ?_, by decide, by decide, by decide,
    ⟨fun h => ?_, tooLong_overflows _⟩, by decide +kernel⟩
  · have hb : 1 ≤ n.toNat ∧ n.toNat ≤ 1024 := by
      simp only [List.mem_cons, List.not_mem_nil, or_false] at hn
      rcases hn with rfl | rfl <;> decide
    refine ⟨show Params.wf ⟨1024, 324⟩ = true by decide, rfl, hb.2, fun h => ?_, fun b _ => by rw [hent], ?_, ?_⟩
    · cases h 0 hb.1
    · simp only [hent, List.map_const', List.sum_replicate, inputPass_length]
      show n.toNat * 255 = _
      omega
    · simp only [hent, List.length_flatMap, bitsOf_length, List.map_const', List.sum_replicate, inputPass_length]
      show n.toNat * 255 = _
      omega
  · cases h 0 (by decide)

theorem leaf_described : Described 1 (Shape.leaf 0 a).desc oneCode := .inr ⟨.leaf 0 a, rfl, by decide, rfl, rfl⟩

/-- R380's example, the empty container, and 328 bytes of output in an OBUF of 324. -/
theorem witness_DecompressReadsTheContainer :
    (Described 0 [] [] ∧ streamBits (loaded [0x00, 0x00]).inputBytes =
      bitsOf 9 0 ++ [] ++ bitsOf 3 0 ++ List.replicate 4 false ++ [] ∧
      (List.replicate 4 false).length = (8 - (9 + ([] : List Bool).length + 3) % 8) % 8 ∧
      encodeWith [] [] = some []) ∧
    Described 1 (Shape.leaf 0 a).desc oneCode ∧
    ([false, false, false] : List Bool).length = (8 - (9 + (Shape.leaf 0 a).desc.length + 3) % 8) % 8 ∧
    streamBits (loaded [0x00, 0xD8, 0x60, 0x00]).inputBytes =
      bitsOf 9 1 ++ (Shape.leaf 0 a).desc ++ bitsOf 3 4 ++ [false, false, false] ++ List.replicate 8 false ∧
    encodeWith oneCode [a, a, a, a] = some ((List.replicate 8 false).take (8 - 4)) ∧
    (let s := { loaded ([0x00, 0xD8, 0x40] ++ List.replicate 41 0x00) with
       params := { ibufBytes := 1024, obufBytes := 324 } }
     s.params.wf = true ∧ s.inLen.toNat ≤ s.params.ibufBytes ∧ s.params.obufBytes < (List.replicate 328 a).length ∧
      streamBits s.inputBytes =
        bitsOf 9 1 ++ (Shape.leaf 0 a).desc ++ bitsOf 3 0 ++ [false, false, false] ++ List.replicate 328 false ∧
      encodeWith oneCode (List.replicate 328 a) = some (List.replicate 328 false)) :=
  ⟨⟨.inl ⟨rfl, rfl, rfl⟩, by decide +kernel, by decide, rfl⟩, leaf_described, by decide, by decide +kernel,
    by decide +kernel, by decide +kernel⟩

theorem witness_DecompressInvertsCompress :
    (loaded [a, a, a, a]).inputWritten ∧
    exec .compress (loaded [a, a, a, a]) = .next (after .compress (loaded [a, a, a, a])) ∧
    (after .compress (loaded [a, a, a, a])).err = .noError ∧
    (loaded [0x00, 0xD8, 0x60, 0x00]).inputBytes = (after .compress (loaded [a, a, a, a])).outputBytes ∧
    (loaded [0x00, 0xD8, 0x60, 0x00]).inLen.toNat ≤ Params.vectors.ibufBytes ∧
    (loaded [a, a, a, a]).inLen.toNat ≤ Params.vectors.obufBytes :=
  ⟨loaded_written _, next_after (by decide +kernel), by decide +kernel, by decide +kernel, by decide, by decide⟩

/-- An error of the parser; a stream that it takes, with the state of the UNPACK that meets the same payload. -/
theorem witness_DecompressErrors :
    (exec .tdec (loaded []) = .next (after .tdec (loaded [])) ∧ (after .tdec (loaded [])).err.isExecution = true) ∧
    let s := loaded [0x00, 0xD8, 0x60, 0x10]
    let t := after .tdec s
    let p := { loaded [0x10] with nodes := t.nodes, root := t.root, treeValid := true, padIn := 4 }
    exec .tdec s = .next t ∧ t.err = .noError ∧ Described 1 (Shape.leaf 0 a).desc oneCode ∧
      streamBits s.inputBytes =
        bitsOf 9 1 ++ (Shape.leaf 0 a).desc ++ bitsOf 3 4 ++ [false, false, false] ++ streamBits p.inputBytes ∧
      exec .unpack p = .next (after .unpack p) ∧ (after .unpack p).err = .corruptStream :=
  ⟨⟨next_after (by decide +kernel), by decide +kernel⟩, next_after (by decide +kernel), by decide +kernel, leaf_described,
    by decide +kernel, next_after (by decide +kernel), by decide +kernel⟩

theorem witness_ResetMeetsTheInvariant : Params.vectors.wf = true := by decide

theorem reset_inv : State.reset.Inv := inv_of_plain _ rfl rfl rfl rfl rfl ⟨rfl, rfl⟩ rfl rfl rfl

theorem witness_StepKeepsTheInvariant :
    State.reset.Inv ∧ ∃ t, step State.reset = .next t := ⟨reset_inv, _, rfl⟩

/-- A step of each kind that the conclusion names. -/
theorem witness_StepNeverFaults :
    State.reset.Inv ∧ (given [.write 0x00C 1] (running State.reset)).Inv ∧
    hazardAddr Params.vectors 0x00C = true :=
  ⟨reset_inv, inv_of_plain _ rfl rfl rfl rfl rfl ⟨rfl, rfl⟩ rfl rfl rfl, by decide⟩

end Sys2Proof.Tests
end

section
/-! SUPPORT. What PACK and COMPRESS do with any input, unwritten bytes included (R11, R270, R370). -/

namespace Sys2Proof.Machine

/-! ### Sized output: the end that PACK and COMPRESS share (R270, R370)

Both commands compare a size counted beforehand with OBUF, put the bits of one more reading of the input, and then set
PAD_OUT and TOTAL_BITS from the count. The bits need not have the counted size when a byte was never written. -/

/-- The size check on `n` bytes, the bits, and PAD_OUT and TOTAL_BITS for `t` payload bits. -/
def State.writeSized (n t : Nat) (bits : List Bool) (s : State) : Except Stop State :=
  if s.params.obufBytes < n then .error (.raised .outOverflow)
  else
    match s.putOutput n bits with
    | .error e => .error e
    | .ok u => .ok ((u.setPadOut (padCount t)).setTotalBits t)

/-- What `State.writeSized` leaves when nothing overflows. -/
def State.withSized (n t : Nat) (bits : List Bool) (s : State) : State :=
  ((s.setOutput (writtenBytes s.draws n bits)).setPadOut (padCount t)).setTotalBits t

theorem writeSized_of_overflow {n : Nat} (t : Nat) {bits : List Bool} {s : State}
    (h : s.params.obufBytes < n ∨ s.params.obufBytes < ceil8 bits.length) :
    s.writeSized n t bits = .error (.raised .outOverflow) := by
  unfold State.writeSized
  split
  · rfl
  · next hn => rw [putOutput_of_overflow (h.resolve_left hn)]

theorem writeSized_of_fits {n : Nat} (t : Nat) {bits : List Bool} {s : State}
    (hn : n ≤ s.params.obufBytes) (hb : ceil8 bits.length ≤ s.params.obufBytes) :
    s.writeSized n t bits = .ok (s.withSized n t bits) := by
  unfold State.writeSized
  rw [if_neg (Nat.not_lt.mpr hn), putOutput_of_fits hb]
  rfl

/-- OBUF is at most 2^30 bytes (R6). -/
theorem obufBytes_le_of_wf {p : Params} (h : p.wf = true) : p.obufBytes ≤ 2 ^ 30 := by
  simp only [Params.wf, Bool.and_eq_true, decide_eq_true_eq] at h
  exact h.2

section
variable {i : Instr} {s g : State} {n t : Nat} {bits : List Bool}

/-- A command that ends in a sized output answers OUT_OVERFLOW when the counted bytes or the bits put do not fit
(R110). -/
theorem exec_of_sized_overflow (hx : exec i s = finish (commandWrites i) s (g.writeSized n t bits))
    (h : g.params.obufBytes < n ∨ g.params.obufBytes < ceil8 bits.length) :
    ∃ u, exec i s = .next u ∧ u.err = .outOverflow :=
  ⟨_, hx.trans (by rw [writeSized_of_overflow t h]; rfl), abort_err ..⟩

/-- A command that ends in a sized output that fits leaves an output that begins with the bits put, and the three
registers hold what was counted: none of them is too narrow for it (R47, R50, R51). -/
theorem exec_of_sized_fits (hx : exec i s = finish (commandWrites i) s (g.writeSized n t bits))
    (hw : g.params.wf = true) (ht : ceil8 t ≤ n) (hn : n ≤ g.params.obufBytes)
    (hb : ceil8 bits.length ≤ g.params.obufBytes) :
    ∃ u, exec i s = .next u ∧ bits.take (8 * n) <+: streamBits u.outputBytes ∧ u.outLen.toNat = n ∧
      u.padOut.toNat = padCount t ∧ u.totalBits.toNat = t ∧ u = (g.withSized n t bits).complete .noError := by
  have hsmall := obufBytes_le_of_wf hw
  have hcount := add_padCount t
  have hout : ((g.withSized n t bits).complete .noError).outputBytes = writtenBytes g.draws n bits :=
    setOutput_outputBytes _ g (by rw [writtenBytes_length]; omega)
  refine ⟨_, hx.trans (by rw [writeSized_of_fits t hn hb]; rfl), ?_, ?_, ?_, ?_, rfl⟩
  · rw [hout]
    exact streamBits_writtenBytes ..
  · show (BitVec.ofNat 32 (writtenBytes g.draws n bits).length).toNat = n
    rw [writtenBytes_length, BitVec.toNat_ofNat]
    omega
  · exact (BitVec.toNat_ofNat ..).trans (Nat.mod_eq_of_lt (padCount_lt t))
  · exact (BitVec.toNat_ofNat ..).trans (Nat.mod_eq_of_lt (by omega))

end

/-! ### PACK (R270) -/

/-- PACK answers NO_CODE as soon as its first reading meets a byte that has no code (R272). -/
theorem exec_pack_of_uncoded {s : State} (hl : s.inLen.toNat ≤ s.params.ibufBytes) (hct : s.ctValid = true)
    {b : Byte} (hb : b ∈ s.inputPass 0) (hv : (ctOf s.ct b).valid = false) :
    exec .pack s = .next (s.abort Writes.pack .noCode) := by
  have hany : ((s.inputPass 0).any fun b => !(ctOf s.ct b).valid) = true :=
    List.any_eq_true.mpr ⟨b, hb, by rw [hv]; rfl⟩
  exact exec_of_raise (fun _ => hl) (fun _ hf => by cases hf; exact hct) (if_pos hany)

/-- PACK whose first reading is all coded ends in a sized output: counted on the second reading, put from the third. -/
theorem exec_pack_of_coded {s : State} (hl : s.inLen.toNat ≤ s.params.ibufBytes) (hct : s.ctValid = true)
    (hv : ∀ b ∈ s.inputPass 0, (ctOf s.ct b).valid = true) :
    exec .pack s = finish Writes.pack s
      (s.writeSized (ceil8 (codeLength s.ct (s.inputPass 1))) (codeLength s.ct (s.inputPass 1))
        (payloadBits s.ct (s.inputPass 2) (padCount (codeLength s.ct (s.inputPass 1))))) := by
  have hany : ¬ ((s.inputPass 0).any fun b => !(ctOf s.ct b).valid) = true := by simpa using hv
  rw [exec_of_ready (fun _ => hl) fun _ hf => by cases hf; exact hct]
  exact congrArg (finish Writes.pack s) (if_neg hany)

/-! ### COMPRESS (R370) -/

/-- The bits of a container in the order of R153: count, descriptor, padding count, alignment, codes, padding. -/
theorem headerBits_append_payloadBits (n : BitVec 9) (desc : List Bool) (ct : Vector CtEntry 256)
    (input : List Byte) (pad : Nat) :
    headerBits n desc pad ++ payloadBits ct input pad =
      bitsOf 9 n.toNat ++ desc ++ bitsOf 3 pad ++ zeros (padCount (9 + desc.length + 3)) ++ codeBits ct input ++
        zeros pad := by
  simp [headerBits, align, payloadBits, Nat.add_assoc]

/-- What GENCODES writes (R251): the table of `codes`. -/
def State.setCodes (codes : List (Byte × List Bool)) (s : State) : State :=
  { s with ct := tableOf codes, ctValid := true }

/-- The three stages COMPRESS goes through, as commands of their own on the same input: they leave a tree and the table
of its codes (R370). -/
theorem exec_stages {s : State} {codes : List (Byte × List Bool)} (hl : s.inLen.toNat ≤ s.params.ibufBytes)
    (hcodes : TreeCodes (distinct (tally s.inputBytes)) (buildTree (countInput s)).nodes
      (buildTree (countInput s)).root codes) :
    let c := (countInput s).complete .noError
    let b := (buildTree c).complete .noError
    exec .count s = .next c ∧ exec .build c = .next b ∧
      exec .gencodes b = .next ((b.setCodes codes).complete .noError) := by
  refine ⟨?_, ?_, ?_⟩
  · exact exec_of_body (fun _ => hl) (fun _ hf => by cases hf) rfl
  · exact exec_of_body (fun hr => by cases hr) (fun _ hf => by cases hf; rfl) rfl
  · exact exec_of_body (fun hr => by cases hr) (fun _ hf => by cases hf; rfl) (genCodes_of_treeCodes hcodes)

/-- COMPRESS builds tree, codes and sizes on the first reading of the input, and ends in a sized output put from the
second reading (R370, R371). -/
theorem exec_compress_sized {s : State} (hl : s.inLen.toNat ≤ s.params.ibufBytes) :
    ∃ (desc : List Bool) (codes : List (Byte × List Bool)),
      let g := (buildTree (countInput s)).setCodes codes
      let t := weightedLength g.freq g.ct
      TreeCodes (distinct (tally s.inputBytes)) g.nodes g.root codes ∧
      TreeDesc g.symcount.toNat g.nodes g.root desc ∧
      exec .compress s = finish Writes.compress s
        (g.writeSized (ceil8 (9 + desc.length + 3) + ceil8 t) t
          (headerBits g.symcount desc (padCount t) ++ payloadBits g.ct (s.inputPass 1) (padCount t))) := by
  obtain ⟨desc, codes, hdesc, hcodes, hsym, -, -, hbody⟩ := compress_main hl
  have hlt : s.inputBytes.length < 2 ^ 32 := by rw [inputBytes_length]; exact s.inLen.isLt
  have htotal : weightedLength ((buildTree (countInput s)).setCodes codes).freq
      ((buildTree (countInput s)).setCodes codes).ct = codeLength (tableOf codes) s.inputBytes :=
    weightedLength_tally hlt _
  refine ⟨desc, codes, hcodes, hsym ▸ hdesc, ?_⟩
  simp only [htotal]
  rw [exec_of_ready (fun _ => hl) (fun _ hf => by cases hf), hbody]
  rfl

/-- Settles O59: each command comes down to a sized output, whose two outcomes are those of the statement. -/
theorem loopsReadAfresh : Obligations.LoopsReadAfresh := by
  intro s hw hl
  refine ⟨inputPass_written, fun hct => ⟨fun b hb hv => ?_, fun hv => ?_⟩, ?_⟩
  · exact ⟨_, exec_pack_of_uncoded hl hct hb hv, rfl⟩
  · have hx := exec_pack_of_coded hl hct hv
    refine ⟨fun hover => exec_of_sized_overflow hx hover, fun hn hb => ?_⟩
    obtain ⟨u, hnext, hbits, hlen, hpad, htotal, rfl⟩ := exec_of_sized_fits hx hw le_rfl hn hb
    exact ⟨_, hnext, hbits, hlen, hpad, htotal, rfl⟩
  · obtain ⟨desc, codes, hcodes, hdesc, hx⟩ := exec_compress_sized hl
    obtain ⟨hcount, hbuild, hgen⟩ := exec_stages hl hcodes
    rw [headerBits_append_payloadBits] at hx
    refine ⟨_, _, _, desc, hcount, hbuild, hgen, hdesc,
      fun hover => exec_of_sized_overflow hx hover, fun hn hb => ?_⟩
    obtain ⟨u, hnext, hbits, hlen, hpad, htotal, rfl⟩ :=
      exec_of_sized_fits hx hw (Nat.le_add_left ..) hn hb
    exact ⟨_, hnext, hbits, hlen, hpad, htotal, rfl⟩

end Sys2Proof.Machine
end

section
/-! SUPPORT. The invariant of the whole state (R6, R33, R43 to R45, R51, R61, R62): the reset state meets it and every
step keeps it. -/

namespace Sys2Proof.Machine

section
variable {s t : State}

/-! ### What meets the invariant -/

/-- A state of R70 with legal parameters meets the invariant: its flags are 0 and its buffers list no byte. -/
theorem afterReset_inv {p : Params} (hp : p.wf = true) (f : Vector Word 256) (c : Vector CtEntry 256)
    (n : Vector Node 511) (w : Word) (inputs : List Input) (responses : List Word) (draws : Nat) :
    (State.afterReset p f c n w inputs responses draws).Inv where
  params := hp
  ibufWf := List.Pairwise.nil
  ibufBound := nofun
  obufWf := List.Pairwise.nil
  obufBound := nofun
  outLen := nofun
  totalBits _ := show (0#64).toNat < 2 ^ 38 by decide
  busy := nofun
  freqOk := nofun
  treeOk := nofun
  ctOk := nofun

/-- The invariant says nothing of the platform's side and the model's bookkeeping. -/
theorem State.Inv.platform (hs : s.Inv) (inReset : Bool) (delay : Nat) (inputs : List Input) (responses : List Word)
    (draws : Nat) : ({ s with inReset, delay, inputs, responses, draws } : State).Inv :=
  inv_frame hs rfl rfl rfl rfl rfl rfl hs.busy rfl rfl rfl rfl rfl rfl rfl rfl

/-- The completion of PENDING keeps the invariant, of an illegal word too (R34, R142). -/
theorem runPending_inv (hs : s.Inv) (h : runPending s = .next t) : t.Inv := by
  rcases decode_cases s.pending with ⟨i, hi⟩ | ⟨e, he⟩
  · exact exec_inv hs (runPending_of_decode hi ▸ h)
  · rw [runPending_of_illegal he] at h
    cases h
    exact complete_inv hs .badCommand

/-- An event at the boundary keeps the invariant. -/
theorem serve_inv (hs : s.Inv) {i : Input} (h : State.serve s i = .next t) : t.Inv := by
  rcases serve_frame h with ⟨_, _, _, hw⟩ | ⟨_, _, rfl⟩ | ⟨_, rfl⟩ | ⟨_, rfl⟩ | ⟨_, rfl⟩
  · exact hostWrite_inv hs hw
  · exact hs.platform ..
  · exact polled_inv hs _
  · exact hs.platform ..
  · exact hs

/-- So does an event while reset is asserted, the release among them (R600). -/
theorem serveInReset_inv (hs : s.Inv) (i : Input) : (State.serveInReset s i).Inv := by
  cases i with
  | write => exact hs
  | read => exact hs.platform ..
  | wait => exact polled_inv hs _
  | assertReset => exact hs
  | releaseReset => exact afterReset_inv hs.params ..

end

/-! ### The obligations -/

/-- Settles O55. -/
theorem resetMeetsTheInvariant : Obligations.ResetMeetsTheInvariant :=
  ⟨afterReset_inv (by decide) .., fun _ f c n w inputs responses draws hp =>
    afterReset_inv hp f c n w inputs responses draws⟩

/-- Settles O56: a step is a completion, one event at the boundary, or the passing of time, and each keeps the
invariant. -/
theorem stepKeepsTheInvariant : Obligations.StepKeepsTheInvariant := by
  intro s t hs h
  rcases step_cases h with ⟨_, u, hu, rfl⟩ | ⟨_, _, d, i, rest, u, _, _, _, hu, rfl⟩ | ⟨_, _, _, d, _, _, rfl⟩ |
    ⟨_, i, rest, _, rfl⟩ | ⟨_, _, rfl⟩
  · exact (runPending_inv hs hu).platform ..
  · exact (serve_inv (hs.platform ..) hu).platform ..
  · exact hs.platform ..
  · exact (serveInReset_inv (hs.platform ..) i).platform ..
  · exact hs.platform ..

end Sys2Proof.Machine
end

section
/-! SUPPORT. What a command may write (R41, R46 to R54, R57 to R62): the host's side and the platform's side stay, DROP
changes in CLEAR alone, and each result changes in the commands that list it. -/

namespace Sys2Proof.Machine

/-- `s` with every field the engine may write as in `t`. -/
def State.withEngine (s t : State) : State :=
  { s with
    phase := t.phase, done := t.done, drop := t.drop, err := t.err, ftValid := t.ftValid, treeValid := t.treeValid,
    ctValid := t.ctValid, outLen := t.outLen, symcount := t.symcount, padOut := t.padOut,
    padOutUnspec := t.padOutUnspec, totalBits := t.totalBits, totalBitsUnspec := t.totalBitsUnspec, root := t.root,
    freq := t.freq, ct := t.ct, nodes := t.nodes, obuf := t.obuf }

section
variable {i : Instr} {s t u : State}

/-! ### What the engine leaves alone -/

/-- A command writes the engine's fields and no other. -/
theorem exec_frame (h : exec i s = .next t) : t = s.withEngine t := by
  rcases exec_next h with ⟨e, _, rfl⟩ | ⟨_, ⟨u, hu, rfl⟩ | ⟨e, _, rfl⟩⟩
  · rfl
  · exact congrArg (State.complete .noError) (commandBody_frame hu)
  · rfl

/-- So does the completion of PENDING, of an illegal word too (R142). -/
theorem runPending_frame (h : runPending s = .next t) : t = s.withEngine t := by
  rcases decode_cases s.pending with ⟨i, hi⟩ | ⟨e, he⟩
  · exact exec_frame (runPending_of_decode hi ▸ h)
  · rw [runPending_of_illegal he] at h
    cases h
    rfl

/-! ### Which command writes which result -/

/-- The result registers, memories and flags that differ between `s` and `t` are those that the summary of section 7
lists for the command `i`; TDEC's failure clears OUT_LEN and OBUF (log 7), and CLEAR leaves OBUF (log 17). -/
def WritesOnlyResults (i : Instr) (s t : State) : Prop :=
  (i ∉ [.count, .compress] → t.freq = s.freq) ∧
  (i ∉ [.gencodes, .compress] → t.ct = s.ct) ∧
  (i ∉ [.build, .tdec, .compress, .decompress] → t.nodes = s.nodes) ∧
  (i ∉ [.build, .tdec, .compress, .decompress, .clear] → t.root = s.root) ∧
  (i ∉ [.count, .tdec, .compress, .decompress, .clear] → t.symcount = s.symcount) ∧
  (i ∉ [.pack, .compress, .decompress, .clear] → t.padOut = s.padOut ∧ t.padOutUnspec = s.padOutUnspec) ∧
  (i ∉ [.pack, .unpack, .compress, .decompress, .clear] →
    t.totalBits = s.totalBits ∧ t.totalBitsUnspec = s.totalBitsUnspec) ∧
  (i ∉ [.tenc, .pack, .unpack, .compress, .decompress, .clear] → (i = .tdec → t.err.isExecution = false) →
    t.outLen = s.outLen) ∧
  (i ∉ [.tenc, .pack, .unpack, .compress, .decompress] → (i = .tdec → t.err.isExecution = false) →
    t.obuf = s.obuf) ∧
  (i ∉ [.clear, .count, .tdec, .compress, .decompress] → t.ftValid = s.ftValid) ∧
  (i ∉ [.clear, .count, .build, .tdec, .compress, .decompress] → t.treeValid = s.treeValid) ∧
  (i ∉ [.clear, .count, .build, .gencodes, .tdec, .compress, .decompress] → t.ctValid = s.ctValid)

/-- A failed pre-check writes no result (R501). -/
theorem writesOnlyResults_complete (i : Instr) (s : State) (e : ErrCode) : WritesOnlyResults i s (s.complete e) := by
  simp [WritesOnlyResults]

/-- A command that succeeds writes its own results, and only CLEAR writes DROP (R41). COMPRESS may write every
result. -/
theorem commandBody_writes (h : commandBody i s = .ok u) :
    WritesOnlyResults i s (u.complete .noError) ∧ (i ≠ .clear → u.drop = s.drop) := by
  unfold WritesOnlyResults
  cases i <;> simp only [commandBody] at h
  case nop | clear | count | build => cases h; simp
  case gencodes => obtain ⟨_, _, rfl⟩ := genCodes_ok h; simp
  case tenc => obtain ⟨_, _, _, rfl⟩ := encodeTree_ok h; simp
  case pack => obtain ⟨_, _, _, rfl⟩ := packInput_ok h; simp
  case tdec => obtain ⟨_, _, rfl⟩ := decodeTree_ok h; simp
  case unpack => obtain ⟨_, _, _, rfl⟩ := unpackInput_ok h; simp
  case compress =>
    obtain ⟨_, hg, hw⟩ := compressInput_ok h
    obtain ⟨_, _, rfl⟩ := genCodes_ok hg
    obtain ⟨_, _, _, _, rfl⟩ := writeContainer_ok hw
    simp
  case decompress => obtain ⟨_, _, _, _, _, _, _, _, rfl⟩ := decompressInput_ok h; simp

/-- What a command raises is an execution error (R500, R502). -/
theorem isExecution_of_canRaise {e : ErrCode} (h : canRaise i e = true) : e.isExecution = true := by
  cases i <;> cases e <;> simp_all [canRaise, ErrCode.isExecution]

/-- The abort rule writes what the command's "Writes" and "Flags" lines list (R503). -/
theorem writesOnlyResults_abort {e : ErrCode} (h : canRaise i e = true) :
    WritesOnlyResults i s (s.abort (commandWrites i) e) := by
  have he := isExecution_of_canRaise h
  unfold WritesOnlyResults
  cases i
  case nop | clear | count | build | gencodes | tenc => simp [canRaise] at h
  case pack => simp [State.abort, commandWrites, Writes.pack]
  case tdec => simp [State.abort, commandWrites, Writes.tdec, he]
  case unpack => simp [State.abort, commandWrites, Writes.unpack]
  case compress => simp
  case decompress => simp [State.abort, commandWrites, Writes.decompress]

/-- What a command that answers a next state has written: its own results, and DROP if it is CLEAR. -/
theorem exec_writes (h : exec i s = .next t) : WritesOnlyResults i s t ∧ (i ≠ .clear → t.drop = s.drop) := by
  rcases exec_next h with ⟨e, _, rfl⟩ | ⟨_, ⟨u, hu, rfl⟩ | ⟨e, he, rfl⟩⟩
  · exact ⟨writesOnlyResults_complete i s e, fun _ => rfl⟩
  · exact commandBody_writes hu
  · exact ⟨writesOnlyResults_abort (commandBody_raised he), fun _ => rfl⟩

/-- CLEAR, which has no pre-check to fail, sets DROP to 0 (R401, R402). -/
theorem exec_clear_drop (h : exec .clear s = .next t) : t.drop = false := by
  cases h
  rfl

end

/-! ### The obligations -/

/-- Settles O30. -/
theorem engineLeavesTheHostsState : Obligations.EngineLeavesTheHostsState := by
  intro i s t h
  have hdrop := (exec_writes h).2
  rw [exec_frame h]
  exact ⟨rfl, rfl, rfl, rfl, rfl, rfl, rfl, rfl, rfl, rfl, rfl, rfl, hdrop⟩

/-- Settles O31. -/
theorem commandsWriteOnlyTheirResults : Obligations.CommandsWriteOnlyTheirResults :=
  fun _ _ _ h => (exec_writes h).1

end Sys2Proof.Machine
end

section
/-! SUPPORT. The command cycle (R30 to R34, R40 to R42, R600 to R602): everything one step can do to the phase, PENDING,
DONE, ERR and DROP. -/

namespace Sys2Proof.Machine

/-- `t` agrees with `s` on the command cycle: the phase, PENDING, and STATUS bits DONE, DROP and ERR. -/
structure SameCycle (s t : State) : Prop where
  phase : t.phase = s.phase
  pending : t.pending = s.pending
  done : t.done = s.done
  drop : t.drop = s.drop
  err : t.err = s.err

/-- The next event writes `w` to `addr`, a word address of CMD. -/
def State.cmdWrite (s : State) (addr w : Word) : Prop :=
  aligned addr = 0x004 ∧ s.inputs.head? = some (.write addr w)

/-- What a step from `s` to `t` does to the command cycle. -/
inductive CycleStep (s t : State) : Prop
  /-- The due completion ends BUSY and sets DONE (R34); CLEAR's clears DROP, and no other completion changes it. -/
  | completed (due : s.completionDue) (phase : t.phase = .idle) (done : t.done = true)
      (clear : decode s.pending = .ok .clear → t.drop = false)
      (keep : decode s.pending ≠ .ok .clear → t.drop = s.drop)
  /-- A CMD write to an IDLE block is accepted (R33). -/
  | accepted (addr w : Word) (write : s.cmdWrite addr w) (run : s.inReset = false) (idle : s.phase = .idle)
      (after : SameCycle (s.accept w) t)
  /-- A CMD write to a BUSY block sets DROP (R33, R41). -/
  | dropped (addr w : Word) (write : s.cmdWrite addr w) (run : s.inReset = false) (busy : s.phase = .busy)
      (notDue : ¬ s.completionDue) (after : SameCycle s.dropCommand t)
  /-- The release of reset sets the state of R70. -/
  | released (inReset : s.inReset = true) (release : s.inputs.head? = some .releaseReset)
      (after : SameCycle s.released t)
  /-- Every other step leaves the command cycle alone. -/
  | other (notDue : ¬ s.completionDue) (noWrite : s.inReset = false → ∀ addr w, ¬ s.cmdWrite addr w)
      (noRelease : s.inReset = true → s.inputs.head? ≠ some .releaseReset) (after : SameCycle s t)

section
variable {s t : State}

/-! ### One event -/

/-- A host write to CMD (R33). -/
theorem hostWrite_cmd {addr : Word} (ha : aligned addr = 0x004) (s : State) (w : Word) :
    s.hostWrite addr w = .next (if s.busy then s.dropCommand else s.accept w) := by
  unfold State.hostWrite
  rw [reg_of ha (by decide)]
  rfl

/-- A host write elsewhere writes the host's registers and IBUF and nothing else (R35, R104). -/
theorem hostWrite_frame {addr w : Word} (ha : aligned addr ≠ 0x004) (h : s.hostWrite addr w = .next t) :
    t = { s with inLen := t.inLen, padIn := t.padIn, ctSel := t.ctSel, nodeSel := t.nodeSel, ibuf := t.ibuf } := by
  rcases hostWrite_next h with ⟨hr, _⟩ |
    ⟨_, ⟨_, rfl⟩ | ⟨_, rfl⟩ | ⟨_, rfl⟩ | ⟨_, rfl⟩ | ⟨_, _, rfl⟩⟩ | ⟨_, _, rfl⟩
  · exact absurd (cmd_region hr) ha
  all_goals rfl

theorem hostWrite_sameCycle {addr w : Word} (ha : aligned addr ≠ 0x004) (h : s.hostWrite addr w = .next t) :
    SameCycle s t := by
  rw [hostWrite_frame ha h]
  exact ⟨rfl, rfl, rfl, rfl, rfl⟩

/-- A read of WAIT leaves the command cycle alone (R105). -/
theorem polled_sameCycle (w : Word) (s : State) : SameCycle s (s.polled w) := by
  rcases polled_cases w s with ⟨_, h⟩ | ⟨_, h⟩ <;> rw [h] <;> exact ⟨rfl, rfl, rfl, rfl, rfl⟩

/-- An event other than a CMD write leaves the command cycle alone. -/
theorem serve_sameCycle {i : Input} (hi : ∀ addr w, i = .write addr w → aligned addr ≠ 0x004)
    (h : State.serve s i = .next t) : SameCycle s t := by
  rcases serve_frame h with ⟨addr, w, hw, hs⟩ | ⟨_, _, rfl⟩ | ⟨_, rfl⟩ | ⟨_, rfl⟩ | ⟨_, rfl⟩
  · exact hostWrite_sameCycle (hi addr w hw) hs
  · exact ⟨rfl, rfl, rfl, rfl, rfl⟩
  · exact polled_sameCycle ..
  · exact ⟨rfl, rfl, rfl, rfl, rfl⟩
  · exact ⟨rfl, rfl, rfl, rfl, rfl⟩

/-- While reset is asserted only its release moves the command cycle (R600, R602). -/
theorem serveInReset_sameCycle {i : Input} (hi : i ≠ .releaseReset) : SameCycle s (State.serveInReset s i) := by
  cases i with
  | write => exact ⟨rfl, rfl, rfl, rfl, rfl⟩
  | read => exact ⟨rfl, rfl, rfl, rfl, rfl⟩
  | wait => exact polled_sameCycle ..
  | assertReset => exact ⟨rfl, rfl, rfl, rfl, rfl⟩
  | releaseReset => exact absurd rfl hi

/-- The bookkeeping of a step is no part of the command cycle. -/
theorem SameCycle.platform {inputs : List Input} {delay : Nat} (h : SameCycle { s with inputs, delay } t)
    (draws : Nat) : SameCycle s { t with draws } :=
  ⟨h.phase, h.pending, h.done, h.drop, h.err⟩

theorem not_due_of_inReset (h : s.inReset = true) : ¬ s.completionDue :=
  fun hd => Bool.false_ne_true (hd.1.symm.trans h)

theorem not_due_of_idle (h : s.phase = .idle) : ¬ s.completionDue :=
  fun hd => Phase.noConfusion (h.symm.trans hd.2.1)

/-! ### A completion -/

/-- The completion of CLEAR clears DROP, every other keeps it (R41, R402). -/
theorem runPending_drop (h : runPending s = .next t) :
    (decode s.pending = .ok .clear → t.drop = false) ∧ (decode s.pending ≠ .ok .clear → t.drop = s.drop) := by
  constructor
  · intro hd
    exact exec_clear_drop (runPending_of_decode hd ▸ h)
  · intro hd
    rcases decode_cases s.pending with ⟨i, hi⟩ | ⟨e, he⟩
    · rw [runPending_of_decode hi] at h
      exact (exec_writes h).2 fun hc => hd (hc ▸ hi)
    · rw [runPending_of_illegal he] at h
      cases h
      rfl

/-- Where the invariant holds PENDING completes, whatever the word (R34, R142). -/
theorem runPending_total (hs : s.Inv) : ∃ t, runPending s = .next t := by
  rcases decode_cases s.pending with ⟨i, hi⟩ | ⟨e, he⟩
  · rw [runPending_of_decode hi]
    exact exec_total hs
  · exact ⟨_, runPending_of_illegal he⟩

/-! ### One step -/

/-- Everything a step can do to the command cycle. -/
theorem step_cycle (h : step s = .next t) : CycleStep s t := by
  rcases step_cases h with ⟨hd, u, hu, rfl⟩ | ⟨hr, hd, d, i, rest, u, _, _, hi, hu, rfl⟩ |
    ⟨hr, hd, hi, d, _, _, rfl⟩ | ⟨hr, i, rest, hi, rfl⟩ | ⟨hr, hi, rfl⟩
  · obtain ⟨hclear, hkeep⟩ := runPending_drop hu
    obtain ⟨hdone, hphase⟩ := runPending_done hu
    exact .completed hd hphase hdone hclear hkeep
  · by_cases hc : ∃ addr w, i = .write addr w ∧ aligned addr = 0x004
    · obtain ⟨addr, w, rfl, ha⟩ := hc
      have hwrite : s.cmdWrite addr w := ⟨ha, by rw [hi]; rfl⟩
      cases (hostWrite_cmd ha _ w).symm.trans hu
      rcases phase_cases s with hp | hp
      · rw [if_neg (by simp [hp])]
        exact .accepted addr w hwrite hr hp ⟨rfl, rfl, rfl, rfl, rfl⟩
      · rw [if_pos (by simp [hp])]
        exact .dropped addr w hwrite hr hp hd ⟨rfl, rfl, rfl, rfl, rfl⟩
    · refine .other hd (fun _ addr w ⟨ha, hw⟩ => hc ⟨addr, w, by simpa [hi] using hw, ha⟩) (by simp [hr]) ?_
      exact (serve_sameCycle (fun addr w hw ha => hc ⟨addr, w, hw, ha⟩) hu).platform _
  · exact .other hd (by simp [State.cmdWrite, hi]) (by simp [hi]) ⟨rfl, rfl, rfl, rfl, rfl⟩
  · by_cases hrel : i = .releaseReset
    · subst hrel
      exact .released hr (by rw [hi]; rfl) ⟨rfl, rfl, rfl, rfl, rfl⟩
    · exact .other (not_due_of_inReset hr) (by simp [hr]) (by simp [hi, hrel])
        ((serveInReset_sameCycle hrel).platform _)
  · exact .other (not_due_of_inReset hr) (by simp [hr]) (by simp [hi]) ⟨rfl, rfl, rfl, rfl, rfl⟩

end

/-! ### The obligations -/

/-- Settles O4. -/
theorem stepRunsThePendingCommand : Obligations.StepRunsThePendingCommand := by
  intro s i
  refine ⟨fun hd hi => ?_, fun nbits => ⟨⟨rfl, rfl, rfl⟩, (BitVec.ofNat_toNat ..).trans (BitVec.setWidth_eq _)⟩⟩
  rw [step_of_due hd, runPending_of_decode hi]
  cases exec i s <;> rfl

/-- Settles O6. -/
theorem cmdWriteIsAcceptedOrDropped : Obligations.CmdWriteIsAcceptedOrDropped := by
  intro s addr w rest hr hd ha hi
  obtain ⟨d, _, _, hstep⟩ := step_of_serve hr hd hi
  have hwrite := hostWrite_cmd ha { s with inputs := rest, delay := d } w
  refine ⟨fun hp => ⟨Config.latency s.draws, ?_⟩, fun hp => ⟨d, ?_⟩⟩
  · rw [if_neg (by simp [hp])] at hwrite
    exact hstep.trans (congrArg counted hwrite)
  · rw [if_pos (by simp [hp])] at hwrite
    exact hstep.trans (congrArg counted hwrite)

/-- Settles O7. -/
theorem completionEndsBusy : Obligations.CompletionEndsBusy := by
  intro s hs hd
  obtain ⟨u, hu⟩ := runPending_total hs
  obtain ⟨hdone, hphase⟩ := runPending_done hu
  have hframe := runPending_frame hu
  refine ⟨{ s.withEngine u with draws := s.draws + 1 }, ?_, hphase, hdone, rfl, rfl, hd.1, rfl,
    fun i hi => ⟨u, (runPending_of_decode hi).symm.trans hu, by rw [← hframe]⟩⟩
  exact (step_of_due hd).trans (congrArg counted (hu.trans (congrArg Host.Outcome.next hframe)))

/-- Settles O8. -/
theorem doneAndErrChangeOnlySo : Obligations.DoneAndErrChangeOnlySo := by
  intro s t h
  cases step_cycle h with
  | completed due _ done => exact ⟨fun _ => done, fun hd => absurd due hd⟩
  | accepted addr w write run idle after =>
    exact ⟨fun hd => absurd hd (not_due_of_idle idle),
      fun _ => .inr ⟨after.done, after.err, .inl ⟨run, idle, after.phase, addr, w, write⟩⟩⟩
  | dropped _ _ _ _ _ notDue after => exact ⟨fun hd => absurd hd notDue, fun _ => .inl ⟨after.done, after.err⟩⟩
  | released inReset release after =>
    exact ⟨fun hd => absurd hd (not_due_of_inReset inReset),
      fun _ => .inr ⟨after.done, after.err, .inr ⟨inReset, release⟩⟩⟩
  | other notDue _ _ after => exact ⟨fun hd => absurd hd notDue, fun _ => .inl ⟨after.done, after.err⟩⟩

/-- Settles O9. -/
theorem dropIsSticky : Obligations.DropIsSticky := by
  intro s t h
  cases step_cycle h with
  | completed due _ _ clear keep =>
    have hrun := due.1
    grind
  | accepted _ _ _ run idle after =>
    have hkeep : t.drop = s.drop := after.drop
    have hdue := not_due_of_idle idle
    grind
  | dropped addr w write run busy notDue after =>
    have hset : t.drop = true := after.drop
    grind [State.cmdWrite]
  | released inReset release after =>
    have hclear : t.drop = false := after.drop
    have hdue := not_due_of_inReset inReset
    grind
  | other notDue noWrite noRelease after =>
    have hkeep : t.drop = s.drop := after.drop
    have hno : s.inReset = false → ∀ addr w, aligned addr = 0x004 → s.inputs.head? ≠ some (.write addr w) :=
      fun run addr w ha hw => noWrite run addr w ⟨ha, hw⟩
    grind

/-- Settles O23. -/
theorem busyStartsAndEndsOnlySo : Obligations.BusyStartsAndEndsOnlySo := by
  intro s t h
  cases step_cycle h with
  | completed due phase => simp [phase, due]
  | accepted addr w write run idle after =>
    have hstart : t.pending = w := after.pending
    exact ⟨fun _ _ => ⟨run, addr, w, write.1, write.2, hstart⟩, by simp [idle], by simp [idle]⟩
  | dropped _ _ _ _ busy _ after => simp [after.phase, after.pending, busy]
  | released inReset release after =>
    have hidle : t.phase = .idle := after.phase
    simp [hidle, inReset, release]
  | other _ _ _ after => simp +contextual [after.phase, after.pending]

end Sys2Proof.Machine
end

section
/-! SUPPORT. The register map (R35 to R56, R68 to R70): what a host read shows of the state, and what it
hides. -/

namespace Sys2Proof.Machine

section
variable {s t : State}

/-! ### What a read shows -/

/-- A meaningful register of a block that is not BUSY shows its value. -/
theorem shown_meaningful {m : Bool} {mask value : Word} (hp : s.phase = .idle) (hm : m = true) :
    s.shown m mask value = value := by
  rw [hm]
  exact shown_idle hp mask value

/-- STATUS bits [10:8] (R38). -/
theorem flagBits_bits (s : State) : s.flagBits.getLsbD 0 = s.ftValid ∧ s.flagBits.getLsbD 1 = s.treeValid ∧
    s.flagBits.getLsbD 2 = s.ctValid := by
  unfold State.flagBits
  generalize s.ftValid = ft, s.treeValid = tree, s.ctValid = ct
  revert ft tree ct
  decide

/-- STATUS, field by field (R38). -/
theorem status_fields (s : State) :
    s.status.getLsbD 0 = decide (s.phase = .busy) ∧ s.status.getLsbD 1 = s.done ∧ s.status.getLsbD 2 = s.drop ∧
    s.status.getLsbD 3 = false ∧ s.status.extractLsb' 4 4 = s.err.code ∧ s.status.extractLsb' 11 21 = 0 ∧
    (s.phase = .idle → s.status.getLsbD 8 = s.ftValid ∧ s.status.getLsbD 9 = s.treeValid ∧
      s.status.getLsbD 10 = s.ctValid) := by
  obtain ⟨h0, h1, h2, h3, herr, hhigh, h8, h9, h10⟩ := status_bits
    (if s.busy then (Config.readWord s.draws).extractLsb' 8 3 else s.flagBits) s.err s.drop s.done s.busy
  change s.status.getLsbD 8 = _ at h8
  change s.status.getLsbD 9 = _ at h9
  change s.status.getLsbD 10 = _ at h10
  refine ⟨h0, h1, h2, h3, herr, hhigh, fun hp => ?_⟩
  rw [if_neg (by simp [hp])] at h8 h9 h10
  obtain ⟨hft, htree, hct⟩ := flagBits_bits s
  exact ⟨h8.trans hft, h9.trans htree, h10.trans hct⟩

/-- The eight words of a code (R53). -/
theorem readRegister_code {k : Nat} (hk : k < 8) : s.readRegister (0x040 + 4 * k) =
    s.shown s.ctValid (BitVec.allOnes 32) ((ctOf s.ct s.ctSel).code.extractLsb' (32 * k) 32) := by
  unfold State.readRegister State.readHigh
  rw [if_neg (show ¬ 0x040 + 4 * k < 0x040 by omega),
    if_pos (show 0x040 ≤ 0x040 + 4 * k ∧ 0x040 + 4 * k < 0x060 by omega),
    show 8 * (0x040 + 4 * k - 0x040) = 32 * k by omega]

/-- The node window shows the entry that NODE_SEL selects (R54). -/
theorem selectedNode_of_some {nd : Node} (h : nodeAt? s.nodes s.nodeSel = some nd) : s.selectedNode = nd := by
  rw [State.selectedNode, h]
  rfl

/-- NODE_SEL 511 selects no entry, and the window then shows zeros (R54). -/
theorem selectedNode_of_511 (h : s.nodeSel = 511) : s.selectedNode = Node.unused := by
  unfold State.selectedNode nodeAt?
  rw [h]
  rfl

section
variable {addr : Word}

/-! The four read-write registers and CMD read alike in every phase (R35, R37). -/

theorem hostRead_inLen (ha : aligned addr = 0x00C) : s.hostRead addr = s.inLen := read_reg ha (by decide)
theorem hostRead_padIn (ha : aligned addr = 0x018) : s.hostRead addr = s.padIn.setWidth 32 := read_reg ha (by decide)
theorem hostRead_ctSel (ha : aligned addr = 0x02C) : s.hostRead addr = s.ctSel.setWidth 32 := read_reg ha (by decide)
theorem hostRead_nodeSel (ha : aligned addr = 0x034) : s.hostRead addr = s.nodeSel.setWidth 32 :=
  read_reg ha (by decide)
theorem hostRead_cmd (ha : aligned addr = 0x004) : s.hostRead addr = 0 := read_reg ha (by decide)
theorem hostRead_status (ha : aligned addr = 0x008) : s.hostRead addr = s.status := read_reg ha (by decide)

/-! The windows on CT, NODE and FREQ, of an IDLE block whose flag is 1 (R53, R54, R56). -/

theorem hostRead_ctLen (hp : s.phase = .idle) (hc : s.ctValid = true) (ha : aligned addr = 0x030) :
    s.hostRead addr = (ctOf s.ct s.ctSel).lenWord := by
  rw [read_reg ha (by decide)]
  exact shown_meaningful hp hc

theorem hostRead_ctCode {k : Nat} (hp : s.phase = .idle) (hc : s.ctValid = true) (hk : k < 8)
    (ha : aligned addr = 0x040 + 4 * k) :
    s.hostRead addr = (ctOf s.ct s.ctSel).code.extractLsb' (32 * k) 32 := by
  rw [read_reg ha (by omega), readRegister_code hk]
  exact shown_meaningful hp hc

theorem hostRead_nodeInfo (hp : s.phase = .idle) (ht : s.treeValid = true) (ha : aligned addr = 0x038) :
    s.hostRead addr = s.selectedNode.infoWord := by
  rw [read_reg ha (by decide)]
  exact shown_meaningful hp ht

theorem hostRead_nodeFreq (hp : s.phase = .idle) (ht : s.treeValid = true) (ha : aligned addr = 0x03C) :
    s.hostRead addr = s.selectedNode.freq := by
  rw [read_reg ha (by decide)]
  exact shown_meaningful hp ht

theorem hostRead_freq {b : Byte} (hp : s.phase = .idle) (hf : s.ftValid = true)
    (ha : aligned addr = 0x400 + 4 * b.toNat) : s.hostRead addr = s.freq[b.toNat] := by
  have hb := b.isLt
  have hindex : BitVec.ofNat 8 ((0x400 + 4 * b.toNat - 0x400) / 4) = b := by
    rw [Nat.add_sub_cancel_left, Nat.mul_div_cancel_left _ (by decide), BitVec.ofNat_toNat, BitVec.setWidth_eq]
  rw [read_reg ha (by omega), readRegister_freq (by omega) (by omega), hindex]
  exact shown_meaningful hp hf

end

/-- The constant registers (R36, R55). -/
theorem hostRead_constants (s : State) (addr : Word) :
    (aligned addr = 0x000 → s.hostRead addr = 0x48554646) ∧
    (aligned addr = 0x060 → s.hostRead addr = BitVec.ofNat 32 s.params.ibufBytes) ∧
    (aligned addr = 0x064 → s.hostRead addr = BitVec.ofNat 32 s.params.obufBytes) := by
  refine ⟨?_, ?_, ?_⟩ <;> intro ha <;> rw [read_reg ha (by decide)] <;> rfl

/-! ### What a read hides -/

/-- `s` with everything a validity flag guards wiped while that flag is 0 (R48, R69). -/
def State.visible (s : State) : State :=
  { s with
    freq := if s.ftValid then s.freq else Vector.replicate 256 0
    ct := if s.ctValid then s.ct else Vector.replicate 256 CtEntry.invalid
    nodes := if s.treeValid then s.nodes else Vector.replicate 511 Node.unused
    root := if s.treeValid then s.root else 0
    symcount := if s.ftValid || s.treeValid then s.symcount else 0 }

theorem visible_freq (s : State) (h : s.ftValid = true) : s.visible.freq = s.freq := if_pos h
theorem visible_ct (s : State) (h : s.ctValid = true) : s.visible.ct = s.ct := if_pos h
theorem visible_nodes (s : State) (h : s.treeValid = true) : s.visible.nodes = s.nodes := if_pos h
theorem visible_root (s : State) (h : s.treeValid = true) : s.visible.root = s.root := if_pos h
theorem visible_symcount (s : State) (h : (s.ftValid || s.treeValid) = true) : s.visible.symcount = s.symcount :=
  if_pos h

theorem visible_selectedNode (s : State) (h : s.treeValid = true) : s.visible.selectedNode = s.selectedNode := by
  unfold State.selectedNode
  rw [visible_nodes s h]
  rfl

/-- A register shows its value only while it is meaningful, so it may be wiped otherwise. -/
theorem shown_visible {m : Bool} {mask v v' : Word} (h : m = true → v' = v) :
    s.visible.shown m mask v' = s.shown m mask v := by
  cases m with
  | false => rfl
  | true => rw [h rfl]; rfl

theorem readLow_visible (s : State) (o : Nat) : s.visible.readLow o = s.readLow o := by
  have hsym : s.visible.shown (s.visible.ftValid || s.visible.treeValid) 0x1FF (s.visible.symcount.zeroExtend 32) =
      s.shown (s.ftValid || s.treeValid) 0x1FF (s.symcount.zeroExtend 32) :=
    shown_visible fun h => by rw [visible_symcount s h]
  have hroot : s.visible.shown s.visible.treeValid 0x1FF (s.visible.root.zeroExtend 32) =
      s.shown s.treeValid 0x1FF (s.root.zeroExtend 32) := shown_visible fun h => by rw [visible_root s h]
  have hlen : s.visible.shown s.visible.ctValid 0x1FF (ctOf s.visible.ct s.visible.ctSel).lenWord =
      s.shown s.ctValid 0x1FF (ctOf s.ct s.ctSel).lenWord := shown_visible fun h => by rw [visible_ct s h]; rfl
  have hinfo : s.visible.shown s.visible.treeValid 0xC3FFFFFF s.visible.selectedNode.infoWord =
      s.shown s.treeValid 0xC3FFFFFF s.selectedNode.infoWord := shown_visible fun h => by rw [visible_selectedNode s h]
  have hfreq : s.visible.shown s.visible.treeValid (BitVec.allOnes 32) s.visible.selectedNode.freq =
      s.shown s.treeValid (BitVec.allOnes 32) s.selectedNode.freq :=
    shown_visible fun h => by rw [visible_selectedNode s h]
  unfold State.readLow
  rw [hsym, hroot, hlen, hinfo, hfreq]
  rfl

theorem readHigh_visible (s : State) (o : Nat) : s.visible.readHigh o = s.readHigh o := by
  have hcode : s.visible.shown s.visible.ctValid (BitVec.allOnes 32)
        ((ctOf s.visible.ct s.visible.ctSel).code.extractLsb' (8 * (o - offCT_CODE0)) 32) =
      s.shown s.ctValid (BitVec.allOnes 32) ((ctOf s.ct s.ctSel).code.extractLsb' (8 * (o - offCT_CODE0)) 32) :=
    shown_visible fun h => by rw [visible_ct s h]; rfl
  have hfreq : s.visible.shown s.visible.ftValid (BitVec.allOnes 32)
        (s.visible.freq.get (BitVec.ofNat 8 ((o - offFREQ0) / 4)).toFin) =
      s.shown s.ftValid (BitVec.allOnes 32) (s.freq.get (BitVec.ofNat 8 ((o - offFREQ0) / 4)).toFin) :=
    shown_visible fun h => by rw [visible_freq s h]
  unfold State.readHigh
  rw [hcode, hfreq]
  rfl

/-- A host read sees only what is visible (R69, R608). -/
theorem hostRead_visible (s : State) (addr : Word) : s.visible.hostRead addr = s.hostRead addr := by
  unfold State.hostRead
  rw [show s.visible.params = s.params from rfl]
  cases regionOf s.params addr with
  | register o =>
    show s.visible.readRegister o = s.readRegister o
    unfold State.readRegister
    rw [readLow_visible, readHigh_visible]
  | ibuf | obuf | reserved => rfl

/-- Two states that look alike read alike. -/
theorem hostRead_eq_of_visible_eq (h : t.visible = s.visible) (addr : Word) : t.hostRead addr = s.hostRead addr := by
  rw [← hostRead_visible, h, hostRead_visible]

end

/-! ### The obligations -/

/-- Settles O12. -/
theorem statusFields : Obligations.StatusFields := by
  refine ⟨by decide, fun s addr ha => ?_⟩
  rw [hostRead_status ha]
  exact status_fields s

/-- Settles O13. -/
theorem registerReads : Obligations.RegisterReads := by
  intro s addr
  refine ⟨hostRead_inLen, hostRead_padIn, hostRead_ctSel, hostRead_nodeSel, hostRead_cmd,
    fun hp => ⟨?_, ?_, ?_, ?_, ?_, ?_⟩⟩ <;> intro ha <;> rw [read_reg ha (by decide)]
  · exact shown_idle hp ..
  · exact fun hv => shown_meaningful hp (by simpa using hv)
  · exact fun hv => shown_meaningful hp (by rw [hv]; rfl)
  · exact fun hv => shown_meaningful hp (by rw [hv]; rfl)
  · exact fun hv => shown_meaningful hp (by rw [hv]; rfl)
  · exact fun hv => shown_meaningful hp hv

/-- Settles O14. -/
theorem windowReads : Obligations.WindowReads := by
  intro s addr hp
  refine ⟨fun hc => ⟨fun ha => ?_, fun k hk ha => hostRead_ctCode hp hc hk ha⟩,
    fun ht => ⟨fun nd hn => ⟨fun ha => ?_, fun ha => ?_⟩, fun hn ha => ?_⟩, fun hf b ha => hostRead_freq hp hf ha⟩
  · rw [hostRead_ctLen hp hc ha]
    exact lenWord_bits _
  · rw [hostRead_nodeInfo hp ht ha, selectedNode_of_some hn]
    exact infoWord_bits nd
  · rw [hostRead_nodeFreq hp ht ha, selectedNode_of_some hn]
  · rcases ha with ha | ha
    · rw [hostRead_nodeInfo hp ht ha, selectedNode_of_511 hn]
      rfl
    · rw [hostRead_nodeFreq hp ht ha, selectedNode_of_511 hn]
      rfl

/-- Settles O16. -/
theorem gatedReadsRevealNothing : Obligations.GatedReadsRevealNothing := by
  intro s addr
  refine ⟨fun hf f => ?_, fun hc c => ?_, fun ht n r => ?_, fun hf ht n => ?_⟩ <;>
    refine hostRead_eq_of_visible_eq ?_ addr
  · simp [State.visible, hf]
  · simp [State.visible, hc]
  · simp [State.visible, ht]
  · simp [State.visible, hf, ht]

end Sys2Proof.Machine
end

section
/-! SUPPORT. What a host write to the register map does (R35, R46 to R54), the state of R70, and the parameters, which
nothing changes (R6). -/

namespace Sys2Proof.Machine

section
variable {s t : State}

/-! ### What a write does -/

/-- A write to a read-only register or to the OBUF window is ignored (R35, R100): a legal IBUF window ends below the
OBUF window (R6). -/
theorem hostWrite_readOnly {addr : Word} (hw : s.params.wf = true) (ha : readOnlyAddr s.params addr = true) (w : Word) :
    s.hostWrite addr w = .next s := by
  simp only [Params.wf, Bool.and_eq_true, beq_iff_eq, decide_eq_true_eq] at hw
  simp only [readOnlyAddr, Bool.or_eq_true, Bool.and_eq_true, Bool.not_eq_true', Bool.or_eq_false_iff,
    decide_eq_true_eq, beq_eq_false_iff_ne, ne_eq] at ha
  unfold State.hostWrite
  rcases regionOf_cases s.params addr with ⟨hlt, hr⟩ | ⟨hle, hlt, hr⟩ | ⟨_, _, _, hr⟩ | ⟨_, _, _, hr⟩ <;> rw [hr]
  · obtain ⟨-, ⟨⟨⟨hcmd, hin⟩, hpad⟩, hct⟩, hnode⟩ := ha.resolve_right (by omega)
    simp [State.writeRegister, hcmd, hin, hpad, hct, hnode]
  · omega

/-- A write to the register window is a register's write (R100). -/
theorem hostWrite_register {addr w : Word} {o : Nat} (ha : aligned addr = o) (ho : o < 0x1000) :
    s.hostWrite addr w = s.writeRegister addr o w := by
  unfold State.hostWrite
  rw [reg_of ha ho]

theorem unlessBusy_idle (hp : s.phase = .idle) (addr : Word) : s.unlessBusy addr t = .next t := by
  simp [State.unlessBusy, busy_eq_false.mpr hp]

/-- A write and then a read by an IDLE block outside reset: the state `u` the write leaves, and the read's answer. -/
theorem run_write_read {a r w v : Word} {rest : List Input} {u : State} (hr : s.inReset = false)
    (hp : s.phase = .idle) (hi : s.inputs = .write a w :: .read r :: rest)
    (hwrite : ({ s with inputs := .read r :: rest } : State).hostWrite a w = .next u)
    (hur : u.inReset = false) (hup : u.phase = .idle) (hui : u.inputs = .read r :: rest)
    (hread : ({ u with inputs := rest, draws := u.draws + 1 } : State).hostRead r = v) :
    core.run 2 s = .next { u with responses := v :: u.responses, inputs := rest, draws := u.draws + 2 } := by
  have hfirst : step s = .next { u with draws := u.draws + 1 } := by
    rw [step_idle hr hp hi]
    exact congrArg counted hwrite
  refine run_two hfirst ?_
  rw [step_idle (s := { u with draws := u.draws + 1 }) hur hup hui, State.serve, hread]
  rfl

/-- Cut to its low `k` bits and widened again, a word is itself under a mask (R35). -/
theorem setWidth_extractLsb' (w : Word) {k : Nat} (hk : k ≤ 32) :
    (w.extractLsb' 0 k).setWidth 32 = w &&& BitVec.ofNat 32 (2 ^ k - 1) := by
  have hmask : 2 ^ k - 1 < 2 ^ 32 := by
    have := Nat.pow_le_pow_right (n := 2) (by decide) hk
    omega
  apply BitVec.eq_of_toNat_eq
  simp only [BitVec.toNat_setWidth, BitVec.extractLsb'_toNat, BitVec.toNat_and, BitVec.toNat_ofNat,
    Nat.mod_eq_of_lt hmask, Nat.and_two_pow_sub_one_eq_mod, Nat.shiftRight_zero]
  exact Nat.mod_eq_of_lt (lt_of_le_of_lt (Nat.mod_le _ _) w.isLt)

/-! ### Reset and the parameters -/

/-- STATUS reads 0 after reset (R70). -/
theorem afterReset_status (p : Params) (f : Vector Word 256) (c : Vector CtEntry 256) (n : Vector Node 511) (w : Word)
    (inputs : List Input) (responses : List Word) (draws : Nat) :
    (State.afterReset p f c n w inputs responses draws).status = 0 := by
  have hidle : (Phase.idle == Phase.busy) = false := rfl
  simp [State.status, State.statusWith, State.flagBits, State.busy, State.afterReset, ErrCode.code, hidle]

/-- The release of reset leaves a state of R70. -/
theorem step_release {b : State} {rest : List Input} (hr : b.inReset = true) (hi : b.inputs = .releaseReset :: rest)
    (h : step b = .next s) :
    s = State.afterReset b.params (freeFreq b.draws) (freeCt b.draws) (freeNodes b.draws) (Config.pending b.draws)
      rest b.responses (b.draws + 1) := by
  rw [step, turn_reset hr, serveNextInReset_cons hi] at h
  cases h
  rfl

theorem polled_params (w : Word) (s : State) : (s.polled w).params = s.params := by
  rcases polled_cases w s with ⟨_, h⟩ | ⟨_, h⟩ <;> exact (congrArg State.params h :)

/-- No event at the boundary changes the parameters (R6). -/
theorem serve_params {i : Input} (h : State.serve s i = .next t) : t.params = s.params := by
  rcases serve_frame h with ⟨addr, w, _, hw⟩ | ⟨_, _, rfl⟩ | ⟨_, rfl⟩ | ⟨_, rfl⟩ | ⟨_, rfl⟩
  · by_cases ha : aligned addr = 0x004
    · rw [hostWrite_cmd ha] at hw
      cases hw
      split <;> rfl
    · exact (congrArg State.params (hostWrite_frame ha hw) :)
  · rfl
  · exact polled_params ..
  · rfl
  · rfl

theorem serveInReset_params (s : State) (i : Input) : (State.serveInReset s i).params = s.params := by
  cases i with
  | wait => exact polled_params ..
  | _ => rfl

/-- No step changes the parameters (R6, R55). -/
theorem step_params (h : step s = .next t) : t.params = s.params := by
  rcases step_cases h with ⟨_, u, hu, rfl⟩ | ⟨_, _, d, i, rest, u, _, _, _, hu, rfl⟩ | ⟨_, _, _, d, _, _, rfl⟩ |
    ⟨_, i, rest, _, rfl⟩ | ⟨_, _, rfl⟩
  · exact (congrArg State.params (runPending_frame hu) :)
  · exact (serve_params hu :)
  · rfl
  · exact serveInReset_params _ i
  · rfl

end

/-! ### The obligations -/

/-- Settles O11. -/
theorem constantRegisters : Obligations.ConstantRegisters := ⟨hostRead_constants, fun _ _ => step_params⟩

/-- Settles O17. -/
theorem rwRegistersReadBack : Obligations.RwRegistersReadBack := by
  intro s a r w rest hr hp har hi
  have hwrite {o : Nat} (ha : aligned a = o) (ho : o < 0x1000) :=
    hostWrite_register (s := { s with inputs := .read r :: rest }) (w := w) ha ho
  refine ⟨fun ha => ?_, fun ha => ?_, fun ha => ?_, fun ha => ?_⟩
  · exact run_write_read hr hp hi ((hwrite ha (by decide)).trans (unlessBusy_idle hp a)) hr hp rfl
      (hostRead_inLen (har ▸ ha))
  · exact run_write_read hr hp hi ((hwrite ha (by decide)).trans (unlessBusy_idle hp a)) hr hp rfl
      ((hostRead_padIn (har ▸ ha)).trans (setWidth_extractLsb' w (by decide)))
  · exact run_write_read hr hp hi ((hwrite ha (by decide)).trans (unlessBusy_idle hp a)) hr hp rfl
      ((hostRead_ctSel (har ▸ ha)).trans (setWidth_extractLsb' w (by decide)))
  · exact run_write_read hr hp hi ((hwrite ha (by decide)).trans (unlessBusy_idle hp a)) hr hp rfl
      ((hostRead_nodeSel (har ▸ ha)).trans (setWidth_extractLsb' w (by decide)))

/-- Settles O19. -/
theorem readOnlyAddresses : Obligations.ReadOnlyAddresses :=
  fun _ _ w hw ha => hostWrite_readOnly hw ha w

/-- Settles O24: both kinds of state are those of R70. -/
theorem resetState : Obligations.ResetState := by
  intro s hs
  obtain ⟨p, f, c, n, w, inputs, responses, draws, rfl⟩ :
      ∃ p f c n w inputs responses draws, s = State.afterReset p f c n w inputs responses draws := by
    rcases hs with rfl | ⟨b, rest, hr, hi, hstep, _⟩
    · exact ⟨_, _, _, _, _, _, _, _, rfl⟩
    · exact ⟨_, _, _, _, _, _, _, _, step_release hr hi hstep⟩
  refine ⟨rfl, rfl, rfl, rfl, rfl, rfl, rfl, rfl, ?_, ?_, rfl, rfl, rfl, rfl, rfl, rfl, rfl, rfl, rfl, rfl, rfl, ?_, ?_,
    fun _ => rfl, fun _ => rfl⟩
  · exact (hostRead_constants _ 0x000).1 (by decide)
  · exact (hostRead_status (addr := 0x008) (by decide)).trans (afterReset_status ..)
  · exact (hostRead_constants _ 0x060).2.1 (by decide)
  · exact (hostRead_constants _ 0x064).2.2 (by decide)

end Sys2Proof.Machine
end

section
/-! SUPPORT. The host's accesses by address (R100 to R105, R606): the reserved addresses, the byte lanes of the two
buffer windows, and what a step that serves a read, WAIT or a write makes of it. -/

namespace Sys2Proof.Machine

section
variable {s t : State} {addr w : Word}

/-! ### Reserved addresses and unlisted offsets (R104) -/

/-- A legal IBUF window ends at or below the OBUF window (R6). -/
theorem ibufBytes_le_of_wf {p : Params} (h : p.wf = true) : p.ibufBytes ≤ 0x40000000 := by
  simp only [Params.wf, Bool.and_eq_true, decide_eq_true_eq] at h
  obtain ⟨⟨⟨⟨-, hle⟩, -⟩, -⟩, -⟩ := h
  exact hle

/-- A reserved address names no region, or an offset of the register window that R35 does not list. -/
theorem regionOf_of_reservedAddr {p : Params} (hw : p.wf = true) (ha : reservedAddr p addr = true) :
    regionOf p addr = .reserved ∨
      ∃ o, regionOf p addr = .register o ∧ 4 ∣ o ∧ listedOffset o = false := by
  have hsize := ibufBytes_le_of_wf hw
  simp only [reservedAddr, Bool.or_eq_true, Bool.and_eq_true, Bool.not_eq_true', decide_eq_true_eq] at ha
  rcases regionOf_cases p addr with ⟨hlt, hr⟩ | ⟨_, _, _⟩ | ⟨_, _, _, _⟩ | ⟨_, _, _, hr⟩
  · rcases ha with ((⟨_, hunlisted⟩ | _) | _) | _
    · exact .inr ⟨_, hr, Nat.dvd_mul_left .., hunlisted⟩
    all_goals omega
  · omega
  · omega
  · exact .inl hr

theorem readRegister_unlisted {o : Nat} (h4 : 4 ∣ o) (h : listedOffset o = false) : s.readRegister o = 0 := by
  simp only [listedOffset, Bool.or_eq_false_iff, Bool.and_eq_false_iff, beq_eq_false_iff_ne,
    decide_eq_false_iff_not] at h
  obtain ⟨⟨⟨⟨hlow, hcode⟩, hin⟩, hout⟩, hfreq⟩ := h
  rw [State.readRegister, if_neg (show ¬ o < 0x040 by omega), State.readHigh,
    if_neg (show ¬ (0x040 ≤ o ∧ o < 0x060) by omega), if_neg hin, if_neg hout,
    if_neg (show ¬ (0x400 ≤ o ∧ o < 0x800) by omega)]

theorem writeRegister_unlisted {o : Nat} (h : listedOffset o = false) : s.writeRegister addr o w = .next s := by
  simp only [listedOffset, Bool.or_eq_false_iff, decide_eq_false_iff_not] at h
  obtain ⟨⟨⟨⟨hlow, -⟩, -⟩, -⟩, -⟩ := h
  have hne {c : Nat} (hc : c ≤ 0x03C) : o ≠ c := by omega
  rw [State.writeRegister, if_neg (hne (by decide)), if_neg (hne (by decide)), if_neg (hne (by decide)),
    if_neg (hne (by decide)), if_neg (hne (by decide))]

theorem hostRead_reserved (hw : s.params.wf = true) (ha : reservedAddr s.params addr = true) :
    s.hostRead addr = 0 := by
  unfold State.hostRead
  rcases regionOf_of_reservedAddr hw ha with hr | ⟨o, hr, h4, ho⟩ <;> rw [hr]
  exact readRegister_unlisted h4 ho

theorem hostWrite_reserved (hw : s.params.wf = true) (ha : reservedAddr s.params addr = true) (w : Word) :
    s.hostWrite addr w = .next s := by
  unfold State.hostWrite
  rcases regionOf_of_reservedAddr hw ha with hr | ⟨o, hr, -, ho⟩ <;> rw [hr]
  exact writeRegister_unlisted ho

/-! ### The buffer windows (R102) -/

theorem regionOf_ibuf {p : Params} {i : Nat} (ha : aligned addr = 0x40000000 + i) (hi : i < p.ibufBytes) :
    regionOf p addr = .ibuf i := by
  rcases regionOf_cases p addr with ⟨_, _⟩ | ⟨_, _, hr⟩ | ⟨_, _, _, _⟩ | ⟨_, _, _, _⟩
  · omega
  · rw [hr, ha, Nat.add_sub_cancel_left]
  · omega
  · omega

theorem regionOf_obuf {p : Params} {i : Nat} (hw : p.wf = true) (ha : aligned addr = 0x80000000 + i)
    (hi : i < p.obufBytes) : regionOf p addr = .obuf i := by
  have hsize := ibufBytes_le_of_wf hw
  rcases regionOf_cases p addr with ⟨_, _⟩ | ⟨_, _, _⟩ | ⟨_, _, _, hr⟩ | ⟨_, _, _, _⟩
  · omega
  · omega
  · rw [hr, ha, Nat.add_sub_cancel_left]
  · omega

/-- Lane `j` of a bus word is its byte `j`. -/
theorem lane_wordOfLanes (f : Nat → Byte) {j : Nat} (hj : j < 4) :
    (wordOfLanes (f 0) (f 1) (f 2) (f 3)).extractLsb' (8 * j) 8 = f j := by
  obtain ⟨h0, h1, h2, h3⟩ := lanes_word (f 0) (f 1) (f 2) (f 3)
  interval_cases j
  exacts [h0, h1, h2, h3]

/-- A read of an IBUF word, lane by lane; the lane of a byte with no value is a free one (R11, R61). -/
theorem hostRead_ibuf_lane {i j : Nat} (ha : aligned addr = 0x40000000 + i) (hi : i < s.params.ibufBytes)
    (hj : j < 4) : (s.hostRead addr).extractLsb' (8 * j) 8 = s.ibufByte (i + j) := by
  unfold State.hostRead
  rw [regionOf_ibuf ha hi]
  exact lane_wordOfLanes (fun j => s.ibufByte (i + j)) hj

/-- A read of an OBUF word while IDLE, lane by lane (R62). -/
theorem hostRead_obuf_lane {i j : Nat} (hw : s.params.wf = true) (hp : s.phase = .idle)
    (ha : aligned addr = 0x80000000 + i) (hi : i < s.params.obufBytes) (hj : j < 4) :
    (s.hostRead addr).extractLsb' (8 * j) 8 = s.obufByte (i + j) := by
  unfold State.hostRead
  rw [regionOf_obuf hw ha hi]
  simp only [shown_idle hp]
  exact lane_wordOfLanes (fun j => s.obufByte (i + j)) hj

theorem ibufByte_of_read? {i : Nat} {b : Byte} (h : s.ibuf.read? i = some b) : s.ibufByte i = b := by
  rw [State.ibufByte, State.ibufRead, h, Option.getD_some]

theorem obufByte_of_read? {i : Nat} {b : Byte} (h : s.obuf.read? i = some b) : s.obufByte i = b := by
  rw [State.obufByte, h, Option.getD_some]

/-- A write to an IBUF word while IDLE (R101, R102). -/
theorem hostWrite_ibuf {i : Nat} (hp : s.phase = .idle) (ha : aligned addr = 0x40000000 + i)
    (hi : i < s.params.ibufBytes) (w : Word) :
    s.hostWrite addr w = .next { s with ibuf := s.ibuf.writeWord i w } := by
  unfold State.hostWrite
  rw [regionOf_ibuf ha hi]
  exact unlessBusy_idle hp addr

/-! ### The write of a step (R101, R105, R606) -/

/-- What a write to a register of an IDLE block does is the same whatever events wait. -/
theorem writeRegister_inputs {o : Nat} (hp : s.phase = .idle) (h : s.writeRegister addr o w = .next t)
    (inputs : List Input) : ({ s with inputs } : State).writeRegister addr o w = .next { t with inputs } := by
  have hidle : ({ s with inputs } : State).phase = .idle := hp
  simp only [State.writeRegister, unlessBusy_idle hp, unlessBusy_idle hidle, busy_eq_false.mpr hp,
    busy_eq_false.mpr hidle, Bool.false_eq_true, if_false] at h ⊢
  split_ifs at h ⊢ <;> cases h <;> rfl

/-- The same holds of a write to any address. -/
theorem hostWrite_inputs (hp : s.phase = .idle) (h : s.hostWrite addr w = .next t) (inputs : List Input) :
    ({ s with inputs } : State).hostWrite addr w = .next { t with inputs } := by
  unfold State.hostWrite at h ⊢
  dsimp only
  cases hr : regionOf s.params addr <;> rw [hr] at h
  case register o => exact writeRegister_inputs hp h inputs
  case ibuf i =>
    cases (unlessBusy_idle hp addr).symm.trans h
    exact unlessBusy_idle hp addr
  case obuf | reserved => cases h; rfl

/-- Only a step counts a draw, a write does not (R11). -/
theorem hostWrite_draws (h : s.hostWrite addr w = .next t) : t.draws = s.draws := by
  rcases hostWrite_next h with ⟨_, ⟨_, rfl⟩ | ⟨_, rfl⟩⟩ |
    ⟨_, ⟨_, rfl⟩ | ⟨_, rfl⟩ | ⟨_, rfl⟩ | ⟨_, rfl⟩ | ⟨_, _, rfl⟩⟩ | ⟨_, _, rfl⟩ <;> rfl

/-- A write while BUSY is refused when it is a hazard, and else changes at most DROP (R33, R606). -/
theorem hostWrite_busy (hp : s.phase = .busy) (addr w : Word) :
    s.hostWrite addr w = if hazardAddr s.params addr then .refused (.hostWriteWhileBusy addr)
      else .next { s with drop := s.drop || decide (aligned addr = 0x004) } := by
  split_ifs with hz
  · exact hostWrite_refused hp hz
  · by_cases ha : aligned addr = 0x004
    · simp [hostWrite_cmd ha, hp, ha, State.dropCommand]
    · obtain ⟨t, ht⟩ := hostWrite_ok w (.inr (Bool.eq_false_iff.mpr hz))
      rcases hostWrite_next ht with ⟨hr, _⟩ | ⟨hidle, _⟩ | ⟨_, _, rfl⟩
      · exact absurd (cmd_region hr) ha
      · exact Phase.noConfusion (hidle.symm.trans hp)
      · simp [ht, ha]

/-- A step that serves a write while BUSY: the write, and one step less to wait (R606, R611). -/
theorem step_write_busy {rest : List Input} (hr : s.inReset = false) (hp : s.phase = .busy)
    (hd : ¬ s.completionDue) (hi : s.inputs = .write addr w :: rest) :
    step s = counted (if hazardAddr s.params addr then .refused (.hostWriteWhileBusy addr)
      else .next { s with
        drop := s.drop || decide (aligned addr = 0x004), inputs := rest, delay := s.delay - 1 }) := by
  obtain ⟨d, _, hdelay, hstep⟩ := step_of_serve hr hd hi
  obtain rfl : d = s.delay - 1 := by
    have := hdelay hp
    omega
  exact hstep.trans (congrArg counted (hostWrite_busy (s := { s with inputs := rest, delay := s.delay - 1 }) hp addr w))

end

/-! ### The obligations -/

/-- Settles O10. -/
theorem readsHaveNoSideEffect : Obligations.ReadsHaveNoSideEffect := by
  intro s rest hr hd
  refine ⟨fun addr hi => ?_, fun hi => ⟨fun hp => ?_, fun hp => ?_⟩⟩
  · obtain ⟨d, _, _, hstep⟩ := step_of_serve hr hd hi
    exact ⟨d, hstep⟩
  · rw [step_idle hr hp hi, hostRead_status (by decide)]
    exact congrArg (fun u => counted (.next u)) (polled_status_idle (s := { s with inputs := rest }) hp)
  · obtain ⟨d, _, _, hstep⟩ := step_of_serve hr hd hi
    have hpoll := polled_status_busy (s := { s with inputs := rest, delay := d }) hp
    rw [← hi] at hpoll
    exact ⟨d, hstep.trans (congrArg (fun u => counted (.next u)) hpoll)⟩

/-- Settles O18. -/
theorem reservedAddresses : Obligations.ReservedAddresses :=
  fun _ _ hw ha => ⟨hostRead_reserved hw ha, hostWrite_reserved hw ha⟩

/-- Settles O20. -/
theorem bufferWindowLanes : Obligations.BufferWindowLanes := by
  intro s addr k hw
  refine ⟨fun ha hk => ⟨fun j b hj hb => ?_, fun hp w => ?_⟩, fun ha hk hp j b hj hb => ?_⟩
  · rw [hostRead_ibuf_lane ha hk hj, ibufByte_of_read? hb]
  · refine ⟨_, hostWrite_ibuf hp ha hk w, rfl, fun j hj => ?_, fun i hi => ?_⟩
    · rw [Memory.read?_writeWord, if_pos (by omega), Nat.add_sub_cancel_left, lane]
    · rw [Memory.read?_writeWord, if_neg (by omega)]
  · rw [hostRead_obuf_lane hw hp ha hk hj, obufByte_of_read? hb]

/-- Settles O58. -/
theorem writeStepDoesTheWrite : Obligations.WriteStepDoesTheWrite := by
  intro s addr w rest hr hi
  refine ⟨fun hp => ?_, fun hp hd => ?_⟩
  · obtain ⟨t, ht⟩ := hostWrite_ok w (.inl hp)
    refine ⟨t, ht, ?_⟩
    rw [step_idle hr hp hi, State.serve, hostWrite_inputs hp ht, ← hostWrite_draws ht]
    rfl
  · rw [step_write_busy hr hp hd hi, hostWrite_busy hp]
    cases hazardAddr s.params addr with
    | true => exact ⟨fun _ h => absurd h nofun, fun _ h => h⟩
    | false =>
      refine ⟨fun t h => ?_, fun _ h => absurd h nofun⟩
      cases h
      rfl

end Sys2Proof.Machine
end

section
/-! SUPPORT. The command word (R140 to R142): which word selects a command, and the words that select none. TENC's
stream (R152). -/

namespace Sys2Proof.Machine

/-! ### The command word (R140, R141) -/

/-- The facts of `Laws.Encoding`, for all commands at once. -/
theorem encoding_statement (i : Instr) : Laws.Encoding.Statement i := by
  cases i
  exacts [Laws.Encoding.nop, Laws.Encoding.clear, Laws.Encoding.count, Laws.Encoding.build, Laws.Encoding.gencodes,
    Laws.Encoding.tenc, Laws.Encoding.pack, Laws.Encoding.tdec, Laws.Encoding.unpack, Laws.Encoding.compress,
    Laws.Encoding.decompress]

theorem decode_encode (i : Instr) : decode (encode i) = .ok i := by
  obtain ⟨-, -, -, hdec, -⟩ := encoding_statement i
  exact hdec

theorem decodeTableWord_encode (i : Instr) : decodeTableWord 32 (encode i).toNat = some i := by
  obtain ⟨-, -, -, -, htab⟩ := encoding_statement i
  exact htab

/-- Each row of the opcode map is a command with its encoding (R141). -/
theorem eq_encode_of_mem_opcodeMap {w : Word} {i : Instr} (h : (w, i) ∈ opcodeMap) : w = encode i := by
  fin_cases h <;> rfl

/-- A command is selected by its encoding and by no other word (R141). -/
theorem decode_eq_ok_iff_eq_encode (w : Word) (i : Instr) : decode w = .ok i ↔ w = encode i :=
  ⟨fun h => eq_encode_of_mem_opcodeMap ((decode_eq_ok_iff w i).mp h), fun h => h ▸ decode_encode i⟩

/-! ### The two fields of the word (R140, R142) -/

theorem encode_rsvd (i : Instr) : (encode i).extractLsb' 8 24 = 0 :=
  app_hi _ _ (Nat.le_refl 8)

theorem encode_opcode (i : Instr) : (encode i).extractLsb' 0 8 = opcode i :=
  app_lo ..

/-- A word is its RSVD field above its OPCODE field (R140). -/
theorem rsvd_append_opcode (w : Word) : w.extractLsb' 8 24 ++ w.extractLsb' 0 8 = w :=
  BitVec.extractLsb'_append_extractLsb'

/-- A word is a command's encoding exactly when RSVD is 0 and OPCODE is the command's. -/
theorem eq_encode_iff (w : Word) (i : Instr) :
    w = encode i ↔ w.extractLsb' 8 24 = 0 ∧ w.extractLsb' 0 8 = opcode i := by
  constructor
  · rintro rfl
    exact ⟨encode_rsvd i, encode_opcode i⟩
  · rintro ⟨hr, ho⟩
    rw [← rsvd_append_opcode w, hr, ho]
    rfl

/-- The opcodes of the map are those of the commands. -/
theorem mem_opcodes_iff (b : BitVec 8) : b ∈ opcodeMap.map (fun row => opcode row.2) ↔ ∃ i, b = opcode i := by
  rw [List.mem_map]
  constructor
  · rintro ⟨row, -, rfl⟩
    exact ⟨row.2, rfl⟩
  · rintro ⟨i, rfl⟩
    exact ⟨(encode i, i), (decode_eq_ok_iff _ _).mp (decode_encode i), rfl⟩

/-- The legal words: RSVD is 0 and OPCODE is in the map (R142). -/
theorem legal_iff (w : Word) : (∃ i, decode w = .ok i) ↔
    w.extractLsb' 8 24 = 0 ∧ w.extractLsb' 0 8 ∈ opcodeMap.map fun row => opcode row.2 := by
  simp only [mem_opcodes_iff, decode_eq_ok_iff_eq_encode, eq_encode_iff, exists_and_left]

/-- An illegal word whose completion is due completes with BAD_COMMAND and changes no other state (R142). -/
theorem step_of_illegal {s : State} (hd : s.completionDue) (h : ∀ i, decode s.pending ≠ .ok i) :
    step s = counted (.next (s.complete .badCommand)) := by
  obtain ⟨e, he⟩ := (decode_cases s.pending).resolve_left (not_exists.mpr h)
  rw [step_of_due hd, runPending_of_illegal he]

/-! ### The tree-shape stream (R152) -/

section
variable {s : State} {n : Nat} {nodes : Vector Node 511} {root : BitVec 9} {desc : List Bool}

/-- The stream's length for the EMPTY tree (R152). -/
theorem TreeDesc.ceil8_zero (h : TreeDesc n nodes root desc) (hn : n = 0) : ceil8 (9 + desc.length) = 2 := by
  obtain ⟨-, hzero, -⟩ := h.length
  rw [hzero hn]
  rfl

/-- The stream's length for a tree of `n ≥ 1` symbols (R152). -/
theorem TreeDesc.ceil8_pos (h : TreeDesc n nodes root desc) (hn : n ≠ 0) :
    ceil8 (9 + desc.length) = ceil8 (10 * n + 8) := by
  obtain ⟨-, -, hpos⟩ := h.length
  have := hpos (Nat.pos_of_ne_zero hn)
  exact congrArg ceil8 (by omega)

/-- No stream is longer than that of 256 symbols (R152). -/
theorem TreeDesc.ceil8_le (h : TreeDesc n nodes root desc) : ceil8 (9 + desc.length) ≤ 321 := by
  obtain ⟨hle, hzero, hpos⟩ := h.length
  unfold ceil8
  omega

/-- OBUF has room for every stream (R6, R300). -/
theorem obufBytes_ge_of_wf {p : Params} (h : p.wf = true) : 324 ≤ p.obufBytes := by
  simp only [Params.wf, Bool.and_eq_true, decide_eq_true_eq] at h
  obtain ⟨⟨-, hge⟩, -⟩ := h
  exact hge

theorem encodeTree_of_treeDesc (hw : s.params.wf = true) (h : TreeDesc n s.nodes s.root desc) :
    encodeTree s = .ok (s.setOutput (treeStream s.symcount desc)) := by
  have hroom := obufBytes_ge_of_wf hw
  have hlen := h.ceil8_le
  unfold encodeTree
  rw [descOf_treeDesc h]
  exact if_neg (by rw [treeStream_length]; omega)

/-- TENC of a tree writes its stream and completes (R300). -/
theorem exec_tenc (hw : s.params.wf = true) (ht : s.treeValid = true) (h : TreeDesc n s.nodes s.root desc) :
    exec .tenc s = .next ((s.setOutput (treeStream s.symcount desc)).complete .noError) :=
  exec_of_body (fun hr => by cases hr) (fun _ hf => by cases hf; exact ht) (encodeTree_of_treeDesc hw h)

end

/-! ### The obligations -/

/-- Settles O42. -/
theorem tencWritesTheStream : Obligations.TencWritesTheStream := by
  intro s desc hw ht hdesc
  have hle := hdesc.ceil8_le
  have hlen := treeStream_length s.symcount desc
  have hout : ((s.setOutput (treeStream s.symcount desc)).complete .noError).outputBytes = treeStream s.symcount desc :=
    setOutput_outputBytes _ s (by omega)
  have houtLen : ((s.setOutput (treeStream s.symcount desc)).complete .noError).outLen.toNat =
      ceil8 (9 + desc.length) := by
    rw [complete_outLen, setOutput_outLen, hlen, BitVec.toNat_ofNat]
    omega
  refine ⟨_, exec_tenc hw ht hdesc, ?_, houtLen, fun h0 => ?_, fun h0 => ?_, houtLen.trans_le hle, rfl⟩
  · rw [hout, streamBits_treeStream]
    rfl
  · exact BitVec.eq_of_toNat_eq (houtLen.trans (hdesc.ceil8_zero (congrArg BitVec.toNat h0)))
  · exact houtLen.trans (hdesc.ceil8_pos fun h => h0 (BitVec.eq_of_toNat_eq h))

/-- Settles O2. -/
theorem decodeInvertsEncode : Obligations.DecodeInvertsEncode := fun i _ =>
  ⟨decode_encode i, encode_rsvd i, decodeTableWord_encode i, fun w => (decode_eq_ok_iff_eq_encode w i).mp⟩

/-- Settles O3. -/
theorem illegalWordIsBadCommand : Obligations.IllegalWordIsBadCommand := by
  intro w
  refine ⟨legal_iff w, ?_⟩
  rintro s hd rfl hill
  exact step_of_illegal hd hill

/-- Settles O1: the eleven rows are the eleven encodings. -/
theorem opcodeMapIsExact : Obligations.OpcodeMapIsExact := by
  intro w
  refine ⟨?_, ?_, ?_, ?_, ?_, ?_, ?_, ?_, ?_, ?_, ?_⟩ <;> exact decode_eq_ok_iff_eq_encode w _

/-- Settles O5. -/
theorem wordsDecode : Obligations.WordsDecode := by
  unfold Obligations.WordsDecode
  decide

end Sys2Proof.Machine
end

section
/-! SUPPORT. COUNT as a command (R200 to R202): what it leaves when its pre-check passes, and BAD_LENGTH otherwise. -/

namespace Sys2Proof.Machine

/-- A command whose pre-checks fail changes STATUS only (R501). -/
theorem exec_of_precheck {i : Instr} {s : State} {e : ErrCode}
    (h : precheck (readsIbuf i) (neededFlag i) s = some e) : exec i s = .next (s.complete e) := by
  rw [exec_eq, completion_of_precheck h]

/-- IN_LEN is a 32-bit register (R46), so no counter of the input can wrap (R201). -/
theorem inputBytes_length_lt (s : State) : s.inputBytes.length < 2 ^ 32 := by
  rw [inputBytes_length]
  exact s.inLen.isLt

/-- COUNT needs no flag and has no execution error (R200). -/
theorem exec_count {s : State} (hl : s.inLen.toNat ≤ s.params.ibufBytes) :
    exec .count s = .next ((countInput s).complete .noError) :=
  exec_of_body (fun _ => hl) (fun _ hf => nomatch hf) rfl

/-! ### The obligation -/

/-- Settles O34. -/
theorem countCounts : Obligations.CountCounts := by
  refine ⟨decode_encode .count, fun s => ⟨fun hl => ?_, fun hl => exec_of_precheck (precheck_badLength _ hl)⟩⟩
  have hlen := inputBytes_length_lt s
  refine ⟨_, exec_count hl, tally_toNat hlen, ?_, ?_, rfl⟩
  · exact (freqOk_count hl).size.trans (distinct_tally hlen)
  · exact (tally_sum hlen).trans (inputBytes_length s)

end Sys2Proof.Machine
end

section
/-! SUPPORT. BUILD as a command (R220 to R229): NODE and ROOT are `huffman`'s arena and root, so what is known of the
arena as a list carries over to NODE; and COMPRESS of a written input as a function of that input (R229). -/

namespace Sys2Proof.Machine

/-! ### What a command that succeeded has done (R34, R501, R503) -/

/-- A command that answers NONE has passed its pre-checks and ended at the end of its pseudocode. -/
theorem exec_succeeded {i : Instr} {s t : State} (h : exec i s = .next t) (he : t.err = .noError) :
    precheck (readsIbuf i) (neededFlag i) s = none ∧ ∃ u, commandBody i s = .ok u ∧ t = u.complete .noError := by
  rcases exec_next h with ⟨e, hp, rfl⟩ | ⟨hp, hu | ⟨e, hb, rfl⟩⟩
  · obtain rfl : e = .noError := he
    rcases precheck_eq_some hp with ⟨hne, -⟩ | ⟨hne, -⟩ <;> cases hne
  · exact ⟨hp, hu⟩
  · obtain rfl : e = .noError := he
    cases isExecution_of_canRaise (commandBody_raised hb)

/-- BUILD needs FT_VALID and has no execution error (R220). -/
theorem exec_build {s : State} (hf : s.ftValid = true) : exec .build s = .next ((buildTree s).complete .noError) :=
  exec_of_body (fun hr => nomatch hr) (fun _ h => by cases h; exact hf) rfl

/-! ### Entries of the arena and of NODE (R60, R225) -/

theorem huffman_length_le (freq : Vector Word 256) : (huffman freq).1.length ≤ 511 := by
  have := distinct_le freq
  rw [huffman_length]
  omega

theorem arenaOf_of_getElem? {l : List Node} (hl : l.length ≤ 511) {k : Nat} {nd : Node} (h : l[k]? = some nd) :
    (arenaOf l)[k]? = some nd := by
  obtain ⟨hk, -⟩ := List.getElem?_eq_some_iff.mp h
  rw [getElem_arenaOf hl hk, h]

theorem keyBefore_arenaOf {l : List Node} (hl : l.length ≤ 511) {i j : Nat} (hi : i < l.length) (hj : j < l.length) :
    keyBefore (arenaOf l) i j ↔ keyBeforeIn l i j := by
  unfold keyBefore keyBeforeIn
  rw [nodeFreq_arenaOf hl hi, nodeFreq_arenaOf hl hj]

theorem internalNode_left {a : Nat} (h : a < 512) (b : Nat) (f : Word) : (internalNode a b f).left.toNat = a :=
  (BitVec.toNat_ofNat ..).trans (Nat.mod_eq_of_lt h)

theorem internalNode_right {b : Nat} (h : b < 512) (a : Nat) (f : Word) : (internalNode a b f).right.toNat = b :=
  (BitVec.toNat_ofNat ..).trans (Nat.mod_eq_of_lt h)

section
variable {freq : Vector Word 256} {k : Nat}

/-- The leaves are numbered in ascending order of the symbol (R223). -/
theorem leaves_getElem? {b : Byte} (h : (occurring freq)[k]? = some b) :
    (leaves freq)[k]? = some (leafNode b freq[b.toNat]) := by
  rw [occurring, List.getElem?_map, Option.map_eq_some_iff] at h
  obtain ⟨nd, hnd, rfl⟩ := h
  obtain ⟨b, rfl, -⟩ := mem_leaves (List.mem_of_getElem? hnd)
  exact hnd

/-- The arena begins with the leaves (R222, R223). -/
theorem huffman_getElem?_of_lt (h : k < distinct freq) : (huffman freq).1[k]? = (leaves freq)[k]? := by
  obtain ⟨⟨more, hmore⟩, -⟩ := huffman_merges freq
  rw [hmore, List.getElem?_append_left (by rwa [leaves_length])]

theorem occurring_length (freq : Vector Word 256) : (occurring freq).length = distinct freq := by
  rw [occurring, List.length_map, leaves_length]

/-- The leaf of the `k`-th symbol that occurs is entry `k` of NODE (R223). -/
theorem huffman_leaf {b : Byte} (h : (occurring freq)[k]? = some b) :
    (arenaOf (huffman freq).1)[k]? = some (leafNode b freq[b.toNat]) := by
  obtain ⟨hk, -⟩ := List.getElem?_eq_some_iff.mp h
  rw [occurring_length] at hk
  exact arenaOf_of_getElem? (huffman_length_le freq) ((huffman_getElem?_of_lt hk).trans (leaves_getElem? h))

/-- No internal entry stands among the leaves (R222). -/
theorem distinct_le_of_internal {nd : Node} (h : (huffman freq).1[k]? = some nd) (hl : nd.leaf = false) :
    distinct freq ≤ k := by
  by_contra hk
  rw [huffman_getElem?_of_lt (Nat.lt_of_not_le hk)] at h
  obtain ⟨b, rfl, -⟩ := mem_leaves (List.mem_of_getElem? h)
  cases hl

/-! ### The root (R225, R226) -/

theorem huffman_root_empty (h : distinct freq = 0) : rootOf (huffman freq).2 = emptyRoot := (huffman_empty h).1

/-- The last entry that is made is the root (R225). -/
theorem huffman_root_last (h : 1 ≤ distinct freq) : (rootOf (huffman freq).2).toNat = 2 * distinct freq - 2 := by
  obtain ⟨t, ht, -, hidx⟩ := huffman_isTree h
  exact ht.root.trans hidx

/-- The queue's last entry is that root. -/
theorem huffman_root_some (h : 1 ≤ distinct freq) : (huffman freq).2 = some (2 * distinct freq - 2) := by
  obtain ⟨t, -, hroot, -, -, -, hidx⟩ := (huffman_spec freq).2 h
  rw [hroot, hidx]

end

/-! ### Sums (R224, R228) -/

/-- The FREQ of an entry that was made by a merge is its children's sum, as a number, while the total is below 2^32
(R228). -/
theorem MadeIn.freq_toNat {w k : Nat} {l : List Node} {nd nl nr : Node} (h : MadeIn w l k) (hlen : l.length ≤ 511)
    (hw : w < 2 ^ 32) (hk : l[k]? = some nd) (hl : (arenaOf l)[nd.left.toNat]? = some nl)
    (hr : (arenaOf l)[nd.right.toNat]? = some nr) : nd.freq.toNat = nl.freq.toNat + nr.freq.toNat := by
  obtain ⟨a, b, na, nb, ha, hb, hnew, ha512, hb512, -, -, -, -, hsum⟩ := h
  obtain rfl : nd = internalNode a b (na.freq + nb.freq) := Option.some.inj (hk.symm.trans hnew)
  rw [internalNode_left ha512, arenaOf_of_getElem? hlen ha] at hl
  rw [internalNode_right hb512, arenaOf_of_getElem? hlen hb] at hr
  cases hl
  cases hr
  exact BitVec.toNat_add_of_lt (hsum hw)

/-- The root's FREQ is the total of the counters (R228); the EMPTY root has no entry. -/
theorem huffman_root_freq {freq : Vector Word 256} {nd : Node} (hw : (freq.toList.map BitVec.toNat).sum < 2 ^ 32)
    (h : nodeAt? (arenaOf (huffman freq).1) (rootOf (huffman freq).2) = some nd) :
    nd.freq.toNat = (freq.toList.map BitVec.toNat).sum := by
  obtain ⟨-, -, htotal⟩ := huffman_merges freq
  have hlen := huffman_length freq
  by_cases hz : distinct freq = 0
  · rw [huffman_root_empty hz] at h
    cases h
  · have hpos : 1 ≤ distinct freq := by omega
    have hlt : 2 * distinct freq - 2 < (huffman freq).1.length := by omega
    rw [nodeAt?, huffman_root_last hpos, getElem_arenaOf (huffman_length_le freq) hlt, getElem?_of_lt hlt] at h
    cases h
    exact htotal hw _ (huffman_root_some hpos)

/-! ### Determinism (R229) -/

/-- BUILD on equal counters leaves equal trees, whatever else the two states hold. -/
theorem exec_build_congr {s s' u u' : State} (hf : s.ftValid = true) (hf' : s'.ftValid = true)
    (hfreq : s.freq = s'.freq) (hu : exec .build s = .next u) (hu' : exec .build s' = .next u') :
    u.nodes = u'.nodes ∧ u.root = u'.root := by
  cases (exec_build hf).symm.trans hu
  cases (exec_build hf').symm.trans hu'
  simp only [complete_nodes, complete_root, buildTree_nodes, buildTree_root, hfreq, and_self]

/-- What COUNT leaves for BUILD. -/
theorem exec_count_freq {s t : State} (hl : s.inLen.toNat ≤ s.params.ibufBytes) (h : exec .count s = .next t) :
    t.ftValid = true ∧ t.freq = tally s.inputBytes := by
  cases (exec_count hl).symm.trans h
  exact ⟨rfl, rfl⟩

/-- The counters do not depend on the order of the input (R200). -/
theorem tally_perm {input input' : List Byte} (h : input.Perm input') : tally input = tally input' := by
  unfold tally
  simp only [h.countP_eq]

/-- The container of R153 for an input with the tree descriptor `desc` and the codes `codes`. -/
def container (input : List Byte) (desc : List Bool) (codes : List (Byte × List Bool)) : List Byte :=
  let ct := tableOf codes
  let pad := padCount (codeLength ct input)
  packBytes (headerBits (BitVec.ofNat 9 (distinct (tally input))) desc pad ++ payloadBits ct input pad)

theorem length_container (input : List Byte) (desc : List Bool) (codes : List (Byte × List Bool)) :
    (container input desc codes).length = ceil8 (9 + desc.length + 3) + ceil8 (codeLength (tableOf codes) input) :=
  packBytes_length _ (container_length ..)

/-- A successful COMPRESS of a written input leaves the container of the tree that BUILD makes of the input's counters
(R370). -/
theorem exec_compress_output {s t : State} (hp : s.params.wf = true) (hw : s.inputWritten)
    (h : exec .compress s = .next t) (he : t.err = .noError) :
    ∃ desc codes, let tree := huffman (tally s.inputBytes)
      descOf (arenaOf tree.1) (rootOf tree.2) = some desc ∧ codesOf (arenaOf tree.1) (rootOf tree.2) = some codes ∧
        t.outputBytes = container s.inputBytes desc codes := by
  obtain ⟨hpre, u, hu, rfl⟩ := exec_succeeded h he
  obtain ⟨hl, -⟩ := (precheck_eq_none_iff ..).mp hpre
  obtain ⟨desc, codes, hdesc, hcodes, -, -, -, hbody⟩ := compress_written (hl rfl) hw
  refine ⟨desc, codes, descOf_treeDesc hdesc, codesOf_treeCodes hcodes, ?_⟩
  rw [hbody] at hu
  split_ifs at hu with hfits
  cases hu
  have hroom := obufBytes_le_of_wf hp
  exact setOutput_outputBytes (container s.inputBytes desc codes) _ (by rw [length_container]; omega)

/-! ### The obligations -/

/-- Settles O35: the symbols are those that occur, in ascending order. -/
theorem buildMakesATree : Obligations.BuildMakesATree := fun s hf =>
  ⟨_, exec_build hf, buildTree_treeOk s, huffman_root_empty, huffman_root_last,
    ⟨occurring s.freq, occurring_pairwise s.freq, mem_occurring, occurring_length s.freq, fun _ _ => huffman_leaf⟩,
    rfl⟩

/-- Settles O36: what the merge loop keeps of its arena (`MadeIn`), read in NODE. -/
theorem buildJoinsTheTwoLowest : Obligations.BuildJoinsTheTwoLowest := by
  intro s hf
  refine ⟨_, exec_build hf, fun k hn hk => ?_⟩
  have hlen := huffman_length_le s.freq
  rw [← huffman_length] at hk
  obtain ⟨-, hmade, -⟩ := huffman_merges s.freq
  obtain ⟨a, b, na, nb, ha, hb, hnew, -, -, hwa, hwb, hab, hlow, -⟩ := hmade k hn hk
  have hlt : ∀ {c}, waitsIn (huffman s.freq).1 k c → c < (huffman s.freq).1.length := fun hc => hc.1.trans hk
  refine ⟨a, b, na, nb, arenaOf_of_getElem? hlen ha, arenaOf_of_getElem? hlen hb, arenaOf_of_getElem? hlen hnew,
    (waits_arenaOf hlen hk.le).mpr hwa, (waits_arenaOf hlen hk.le).mpr hwb,
    (keyBefore_arenaOf hlen (hlt hwa) (hlt hwb)).mpr hab, fun c hc hca hcb => ?_⟩
  have hwc := (waits_arenaOf hlen hk.le).mp hc
  exact (keyBefore_arenaOf hlen (hlt hwb) (hlt hwc)).mpr (hlow c hwc hca hcb)

/-- Settles O37: 2^30 is below 2^32, where `MadeIn` says that sums do not wrap. -/
theorem buildSumsDoNotWrap : Obligations.BuildSumsDoNotWrap := by
  intro s hf hsum
  have hw : (s.freq.toList.map BitVec.toNat).sum < 2 ^ 32 := by omega
  refine ⟨_, exec_build hf, fun k nd nl nr hk hu hl hleft hright => ?_, fun nd => huffman_root_freq hw⟩
  obtain ⟨hlt, hat⟩ := arenaOf_used hk hu
  obtain ⟨-, hmade, -⟩ := huffman_merges s.freq
  exact (hmade k (distinct_le_of_internal hat hl) hlt).freq_toNat (huffman_length_le s.freq) hw hat hleft hright

/-- Settles O38: each result is a function of the counters, and so of the input. -/
theorem buildDependsOnCountsAlone : Obligations.BuildDependsOnCountsAlone := by
  refine ⟨fun _ _ _ _ => exec_build_congr, fun s s' t t' u u' hperm hl hl' ht ht' hu hu' => ?_,
    fun s s' t t' hp hp' hw hw' hin ht ht' he he' => ?_⟩
  · obtain ⟨hf, hfreq⟩ := exec_count_freq hl ht
    obtain ⟨hf', hfreq'⟩ := exec_count_freq hl' ht'
    have hsame : t.freq = t'.freq := by rw [hfreq, hfreq', tally_perm hperm]
    exact ⟨hsame, exec_build_congr hf hf' hsame hu hu'⟩
  · obtain ⟨desc, codes, hdesc, hcodes, hout⟩ := exec_compress_output hp hw ht he
    obtain ⟨desc', codes', hdesc', hcodes', hout'⟩ := exec_compress_output hp' hw' ht' he'
    rw [← hin] at hdesc' hcodes' hout'
    obtain rfl := Option.some.inj (hdesc.symm.trans hdesc')
    obtain rfl := Option.some.inj (hcodes.symm.trans hcodes')
    rw [hout, hout']

end Sys2Proof.Machine
end

section
/-! SUPPORT. GENCODES as a command (R250, R251), and what its table's codes are: their form by the number of leaves,
their lengths (R252), that none begins another, and Kraft's sum (R253). -/

namespace Sys2Proof.Machine

/-! ### The codes of a tree, by its number of leaves (R250) -/

section
variable {n : Nat} {nodes : Vector Node 511} {root : BitVec 9} {codes : List (Byte × List Bool)}

/-- The empty tree has no code. -/
theorem TreeCodes.eq_nil (h : TreeCodes n nodes root codes) (hn : n = 0) : codes = [] := by
  rcases h with ⟨-, -, hcodes⟩ | ⟨hpos, -⟩
  · exact hcodes
  · omega

/-- A single leaf has the fixed code "0". -/
theorem TreeCodes.eq_singleton (h : TreeCodes n nodes root codes) (hn : n = 1) : ∃ b, codes = [(b, [false])] := by
  rcases h with ⟨hz, -⟩ | ⟨-, t, ht, rfl⟩
  · omega
  · cases t with
    | leaf i b => exact ⟨b, rfl⟩
    | node i l r =>
      have hcount := ht.count
      have := l.height_pos.trans l.height_le
      have := r.height_pos.trans r.height_le
      simp only [Shape.symbols, List.length_append] at hcount
      omega

/-- The codes of two or more leaves are the tree's paths. -/
theorem TreeCodes.eq_paths (h : TreeCodes n nodes root codes) (hn : 2 ≤ n) :
    ∃ t, IsTree n nodes root t ∧ codes = t.paths := by
  rcases h with ⟨hz, -⟩ | ⟨-, t, ht, rfl⟩
  · omega
  · refine ⟨t, ht, ?_⟩
    cases t with
    | leaf i b =>
      obtain rfl : 1 = n := ht.count
      omega
    | node i l r => rfl

/-! ### Lengths (R252) -/

/-- A path to one of `n` leaves has at most `n - 1` bits. -/
theorem TreeCodes.length_le (h : TreeCodes n nodes root codes) (hn : 2 ≤ n) {b : Byte} {c : List Bool}
    (hc : (b, c) ∈ codes) : c.length ≤ n - 1 := by
  obtain ⟨t, ht, rfl⟩ := h.eq_paths hn
  have hlt := t.path_length_lt hc
  have hle := t.height_le
  rw [ht.count] at hle
  omega

/-! ### No code begins another, and Kraft's sum (R253) -/

/-- No code begins the code of another symbol. -/
theorem TreeCodes.symbol_eq_of_isPrefix (h : TreeCodes n nodes root codes) {a b : Byte} {c d : List Bool}
    (hc : (a, c) ∈ codes) (hd : (b, d) ∈ codes) (hcd : c <+: d) : a = b := by
  rcases h with ⟨-, -, rfl⟩ | ⟨-, t, -, rfl⟩
  · cases hc
  · cases t with
    | leaf i x =>
      cases List.mem_singleton.mp hc
      cases List.mem_singleton.mp hd
      rfl
    | node i l r => exact (Shape.paths_prefix_free _ hc hd hcd).1

/-- The codes of two or more leaves fill Kraft's sum, scaled by 2^255, which is above every code's length. -/
theorem TreeCodes.kraft (h : TreeCodes n nodes root codes) (hn : 2 ≤ n) :
    (codes.map fun c => 2 ^ (255 - c.2.length)).sum = 2 ^ 255 := by
  obtain ⟨t, ht, rfl⟩ := h.eq_paths hn
  refine t.kraft ?_
  calc t.height ≤ t.symbols.length := t.height_le
    _ = n := ht.count
    _ ≤ 256 := ht.count_le

/-- The single-symbol code takes half of that sum. -/
theorem TreeCodes.kraft_single (h : TreeCodes n nodes root codes) (hn : n = 1) :
    (codes.map fun c => 2 ^ (255 - c.2.length)).sum = 2 ^ 254 := by
  obtain ⟨b, rfl⟩ := h.eq_singleton hn
  simp

end

/-! ### The table (R45, R251) -/

/-- A VALID entry is the entry of a code of its symbol (R45, R59). -/
theorem TableHolds.exists_code {ct : Vector CtEntry 256} {codes : List (Byte × List Bool)} (h : TableHolds ct codes)
    {b : Byte} (hv : (ctOf ct b).valid = true) :
    ∃ c, (b, c) ∈ codes ∧ (ctOf ct b).len.toNat = c.length ∧ (ctOf ct b).code.toNat = num c ∧ (ctOf ct b).bits = c := by
  obtain ⟨⟨b, c⟩, hc, rfl⟩ := List.mem_map.mp ((h.valid_iff b).mp hv)
  obtain ⟨-, hlen, hcode⟩ := (h b).1 c hc
  exact ⟨c, hc, hlen, hcode, h.bits hc⟩

/-- GENCODES of a tree writes the table of its codes and completes (R251). -/
theorem exec_gencodes {s : State} {n : Nat} {codes : List (Byte × List Bool)} (ht : s.treeValid = true)
    (h : TreeCodes n s.nodes s.root codes) : exec .gencodes s = .next ((s.setCodes codes).complete .noError) :=
  exec_of_body (fun hr => nomatch hr) (fun _ hf => by cases hf; exact ht) (genCodes_of_treeCodes h)

/-- GENCODES of a tree of R44 leaves a table that holds the tree's codes. -/
theorem exec_gencodes_of_treeOk {s : State} {n : Nat} (ht : s.treeValid = true) (h : TreeOk n s.nodes s.root) :
    ∃ t codes, exec .gencodes s = .next t ∧ TreeCodes n s.nodes s.root codes ∧ TableHolds t.ct codes := by
  obtain ⟨codes, hcodes⟩ := h.treeCodes
  exact ⟨_, codes, exec_gencodes ht hcodes, hcodes, hcodes.tableOf_holds⟩

/-! ### The obligations -/

/-- Settles O39. -/
theorem gencodesFillsTheTable : Obligations.GencodesFillsTheTable := by
  refine ⟨decode_encode .gencodes, fun s => ⟨fun hf => ?_, fun n codes ht hcodes => ?_⟩⟩
  · exact exec_of_precheck (precheck_notReady (fun hr => nomatch hr) hf)
  · exact ⟨_, exec_gencodes ht hcodes, hcodes.tableOf_holds, rfl⟩

/-- Settles O40: CODE is `num` of a string of LEN bits. -/
theorem codeLengths : Obligations.CodeLengths := by
  intro s n ht hok
  obtain ⟨t, codes, hexec, hcodes, htable⟩ := exec_gencodes_of_treeOk ht hok
  refine ⟨t, hexec, fun b hv => ?_⟩
  obtain ⟨c, hc, hlen, hcode, -⟩ := htable.exists_code hv
  obtain ⟨hpos, hmax⟩ := hcodes.length_bounds hc
  rw [hlen, hcode]
  refine ⟨hpos, hmax, fun h1 => ?_, fun h2 => hcodes.length_le h2 hc, num_lt c⟩
  obtain ⟨x, rfl⟩ := hcodes.eq_singleton h1
  cases List.mem_singleton.mp hc
  rfl

/-- Settles O41: the sum over the VALID entries is the sum over the codes. -/
theorem codesArePrefixFree : Obligations.CodesArePrefixFree := by
  intro s n ht hok
  obtain ⟨t, codes, hexec, hcodes, htable⟩ := exec_gencodes_of_treeOk ht hok
  have hsum := filter_valid_sum htable hcodes.nodup fun l => 2 ^ (255 - l)
  refine ⟨t, hexec, fun a b ha hb hab => ?_, fun h2 => hsum.trans (hcodes.kraft h2),
    fun h1 => ⟨hsum.trans (hcodes.kraft_single h1), fun b hv => ?_⟩, fun h0 b => ?_⟩
  · obtain ⟨c, hc, -, -, hcbits⟩ := htable.exists_code ha
    obtain ⟨d, hd, -, -, hdbits⟩ := htable.exists_code hb
    rw [hcbits, hdbits] at hab
    exact hcodes.symbol_eq_of_isPrefix hc hd hab
  · obtain ⟨c, hc, -, -, hbits⟩ := htable.exists_code hv
    obtain ⟨x, rfl⟩ := hcodes.eq_singleton h1
    cases List.mem_singleton.mp hc
    exact hbits
  · obtain rfl := hcodes.eq_nil h0
    rw [(htable b).2 List.not_mem_nil]
    rfl

end Sys2Proof.Machine
end

section
/-! SUPPORT. PACK and UNPACK as commands (R270 to R273, R280 to R285): the output of PACK is the payload's bits and
nothing else, UNPACK answers the bytes whose codes are the meaningful bits, and the one undoes the other. -/

namespace Sys2Proof.Machine

/-! ### PACK of a written input (R270, R609) -/

/-- `T` for the input and the table (R270). -/
def State.payloadLength (s : State) : Nat := codeLength s.ct s.inputBytes

/-- The payload of the input: its codes and the padding zeros (R150, R270). -/
def State.payload (s : State) : List Bool := payloadBits s.ct s.inputBytes (padCount s.payloadLength)

theorem payload_length (s : State) : s.payload.length = 8 * ceil8 s.payloadLength :=
  payloadBits_length ..

@[simp] theorem outputBytes_length (s : State) : s.outputBytes.length = s.outLen.toNat := by
  simp [State.outputBytes]

/-- A sized output whose bits were counted rightly is these bits and nothing else (R107). -/
theorem exec_of_sized_counted {i : Instr} {s g : State} {n t : Nat} {bits : List Bool}
    (hx : exec i s = finish (commandWrites i) s (g.writeSized n t bits)) (hw : g.params.wf = true)
    (ht : ceil8 t ≤ n) (hn : n ≤ g.params.obufBytes) (hb : bits.length = 8 * n) :
    ∃ u, exec i s = .next u ∧ streamBits u.outputBytes = bits ∧ u.outLen.toNat = n ∧
      u.padOut.toNat = padCount t ∧ u.totalBits.toNat = t ∧ u = (g.withSized n t bits).complete .noError := by
  obtain ⟨u, hu, hbits, hlen, hrest⟩ := exec_of_sized_fits hx hw ht hn (by rwa [hb, ceil8_eight_mul])
  refine ⟨u, hu, ?_, hlen, hrest⟩
  rw [← hb, List.take_length] at hbits
  exact (hbits.eq_of_length (by rw [hb, streamBits_length, outputBytes_length, hlen])).symm

section
variable {s : State} (hl : s.inLen.toNat ≤ s.params.ibufBytes) (hct : s.ctValid = true) (hin : s.inputWritten)
  (hv : ∀ b ∈ s.inputBytes, (ctOf s.ct b).valid = true)
include hl hct hin hv

/-- PACK of a written input with a code for every byte counts and puts that one input. -/
theorem exec_pack_of_written :
    exec .pack s = finish Writes.pack s (s.writeSized (ceil8 s.payloadLength) s.payloadLength s.payload) := by
  have hx := exec_pack_of_coded hl hct hv
  rwa [inputPass_written hin 1, inputPass_written hin 2] at hx

/-- PACK answers the payload when it fits (R270, R271). -/
theorem exec_pack_of_fits (hw : s.params.wf = true)
    (hfits : ceil8 s.payloadLength ≤ s.params.obufBytes) :
    ∃ t, exec .pack s = .next t ∧ streamBits t.outputBytes = s.payload ∧ t.outLen.toNat = ceil8 s.payloadLength ∧
      t.padOut.toNat = padCount s.payloadLength ∧ t.totalBits.toNat = s.payloadLength ∧
      t = (s.withSized (ceil8 s.payloadLength) s.payloadLength s.payload).complete .noError :=
  exec_of_sized_counted (exec_pack_of_written hl hct hin hv) hw le_rfl hfits (payload_length s)

end

/-- What a successful PACK has found: its pre-checks passed, every input byte has a code, and a written input's payload
fits. -/
theorem exec_pack_succeeded {s t : State} (hin : s.inputWritten) (h : exec .pack s = .next t) (he : t.err = .noError) :
    s.inLen.toNat ≤ s.params.ibufBytes ∧ s.ctValid = true ∧ (∀ b ∈ s.inputBytes, (ctOf s.ct b).valid = true) ∧
      ceil8 s.payloadLength ≤ s.params.obufBytes := by
  obtain ⟨hpre, u, hu, -⟩ := exec_succeeded h he
  obtain ⟨hl, hct⟩ := (precheck_eq_none_iff ..).mp hpre
  obtain ⟨hv, hfits, -, -⟩ := packInput_ok hu
  rw [inputPass_written hin] at hfits
  exact ⟨hl rfl, hct .ct rfl, hv, hfits⟩

/-! ### UNPACK (R280 to R285) -/

/-- The payload in IBUF without its last PAD_IN bits (R281). -/
def State.meaningfulBits (s : State) : List Bool :=
  (streamBits s.inputBytes).take (8 * s.inLen.toNat - s.padIn.toNat)

/-- Walk on more padding than payload, or on bits that no byte string has as its codes (R282 to R285). -/
theorem walk_corrupt {n : Nat} {nodes : Vector Node 511} {root : BitVec 9} {codes : List (Byte × List Bool)}
    (hc : TreeCodes n nodes root codes) (obuf : Nat) {payload : List Byte} {pad : Nat}
    (h : 8 * payload.length < pad ∨
      ∀ out, encodeWith codes out ≠ some ((streamBits payload).take (8 * payload.length - pad))) :
    walk nodes root obuf payload pad = .error (.raised .corruptStream) := by
  unfold walk
  split
  · rfl
  · next hpad =>
    have hbad : walkSymbols nodes root ((streamBits payload).take (8 * payload.length - pad)) =
        .error (.raised .corruptStream) := by
      refine (walkSymbols_cases hc _).resolve_left ?_
      rintro ⟨out, -, henc⟩
      exact h.resolve_left hpad out henc
    simp only [hbad]

section
variable {s : State} {n : Nat} {codes : List (Byte × List Bool)} (hc : TreeCodes n s.nodes s.root codes)
include hc

theorem unpackInput_of_encodes {out : List Byte} (hpad : s.padIn.toNat ≤ 8 * s.inLen.toNat)
    (he : encodeWith codes out = some s.meaningfulBits) :
    unpackInput s = if s.params.obufBytes < out.length then .error (.raised .outOverflow)
      else .ok ((s.setOutput out).setTotalBits (8 * s.inLen.toNat - s.padIn.toNat)) := by
  rw [State.meaningfulBits, ← inputBytes_length s] at he
  rw [← inputBytes_length s] at hpad ⊢
  unfold unpackInput
  rw [walk_out hc hpad he]
  split_ifs <;> rfl

theorem unpackInput_of_corrupt
    (h : 8 * s.inLen.toNat < s.padIn.toNat ∨ ∀ out, encodeWith codes out ≠ some s.meaningfulBits) :
    unpackInput s = .error (.raised .corruptStream) := by
  unfold State.meaningfulBits at h
  rw [← inputBytes_length s] at h
  unfold unpackInput
  rw [walk_corrupt hc _ h]

section
variable (hl : s.inLen.toNat ≤ s.params.ibufBytes) (ht : s.treeValid = true)
include hl ht

/-- UNPACK of the codes of a byte string that fits answers the byte string; OUT_LEN and TOTAL_BITS are wide enough for
what it reports (R47, R51, R281). -/
theorem exec_unpack_of_fits {out : List Byte} (hw : s.params.wf = true) (hpad : s.padIn.toNat ≤ 8 * s.inLen.toNat)
    (he : encodeWith codes out = some s.meaningfulBits) (hfits : out.length ≤ s.params.obufBytes) :
    ∃ t, exec .unpack s = .next t ∧ t.outputBytes = out ∧ t.outLen.toNat = out.length ∧
      t.totalBits.toNat = 8 * s.inLen.toNat - s.padIn.toNat ∧
      t = ((s.setOutput out).setTotalBits (8 * s.inLen.toNat - s.padIn.toNat)).complete .noError := by
  have hsmall := obufBytes_le_of_wf hw
  have hinLen := s.inLen.isLt
  refine ⟨_, exec_of_body (fun _ => hl) (fun _ hf => by cases hf; exact ht)
    ((unpackInput_of_encodes hc hpad he).trans (if_neg (Nat.not_lt.mpr hfits))), ?_, ?_, ?_, rfl⟩
  · exact setOutput_outputBytes out s (by omega)
  · exact (BitVec.toNat_ofNat ..).trans (Nat.mod_eq_of_lt (by omega))
  · exact (BitVec.toNat_ofNat ..).trans (Nat.mod_eq_of_lt (by omega))

/-- UNPACK of the codes of a byte string that does not fit is OUT_OVERFLOW (R504). -/
theorem exec_unpack_of_overflow {out : List Byte} (hpad : s.padIn.toNat ≤ 8 * s.inLen.toNat)
    (he : encodeWith codes out = some s.meaningfulBits) (hover : s.params.obufBytes < out.length) :
    exec .unpack s = .next (s.abort Writes.unpack .outOverflow) :=
  exec_of_raise (fun _ => hl) (fun _ hf => by cases hf; exact ht)
    ((unpackInput_of_encodes hc hpad he).trans (if_pos hover))

/-- UNPACK of anything else is CORRUPT_STREAM (R282 to R285). -/
theorem exec_unpack_of_corrupt
    (h : 8 * s.inLen.toNat < s.padIn.toNat ∨ ∀ out, encodeWith codes out ≠ some s.meaningfulBits) :
    exec .unpack s = .next (s.abort Writes.unpack .corruptStream) :=
  exec_of_raise (fun _ => hl) (fun _ hf => by cases hf; exact ht) (unpackInput_of_corrupt hc h)

end

end

/-- When IBUF holds the payload of `s` and PAD_IN its padding count, the meaningful bits are the code bits of the input
of `s` (R271, R281). -/
theorem meaningfulBits_of_payload {s s' : State} (hbits : streamBits s'.inputBytes = s.payload)
    (hpad : s'.padIn.toNat = padCount s.payloadLength) :
    8 * s'.inLen.toNat = s.payloadLength + s'.padIn.toNat ∧ s'.meaningfulBits = codeBits s.ct s.inputBytes := by
  have hlen : 8 * s'.inLen.toNat = s.payloadLength + s'.padIn.toNat := by
    rw [hpad, add_padCount, ← payload_length, ← hbits, streamBits_length, inputBytes_length]
  have hcount : s.payloadLength = (codeBits s.ct s.inputBytes).length := (codeBits_length ..).symm
  refine ⟨hlen, ?_⟩
  rw [State.meaningfulBits, hlen, Nat.add_sub_cancel, hbits, hcount]
  exact List.take_left

/-! ### The obligations -/

/-- Settles O47. -/
theorem packWritesThePayload : Obligations.PackWritesThePayload := by
  intro s hw hct hl hin
  refine ⟨fun hv hfits => ?_, fun hv hover => ?_, fun b hb hv => ⟨_, exec_pack_of_uncoded hl hct hb hv, rfl⟩⟩
  · obtain ⟨t, hexec, hbits, hlen, hpad, htotal, rfl⟩ := exec_pack_of_fits hl hct hin hv hw hfits
    exact ⟨_, hexec, hbits, hlen, hpad, htotal, rfl⟩
  · exact exec_of_sized_overflow (exec_pack_of_written hl hct hin hv) (.inl hover)

/-- Settles O48: the walk decodes the meaningful bits if they are codes at all, and its size check comes last. -/
theorem unpackReadsThePayload : Obligations.UnpackReadsThePayload := by
  intro s n codes hw ht hc hl
  refine ⟨fun out hpad he hfits => ?_, fun out hpad he hover => ?_, fun h => ?_⟩
  · obtain ⟨t, hexec, hout, hlen, htotal, rfl⟩ := exec_unpack_of_fits hc hl ht hw hpad he hfits
    exact ⟨_, hexec, hout, hlen, htotal, rfl⟩
  · exact ⟨_, exec_unpack_of_overflow hc hl ht hpad he hover, rfl⟩
  · exact ⟨_, exec_unpack_of_corrupt hc hl ht h, rfl⟩

/-- Settles O49: the meaningful bits of PACK's output are the code bits of its input. -/
theorem unpackInvertsPack : Obligations.UnpackInvertsPack := by
  intro s t s' n codes hw hw' hc htable hin hpack herr ht hnodes hroot hpadIn hl hinput hroom
  obtain ⟨hl₀, hct, hv, hfits⟩ := exec_pack_succeeded hin hpack herr
  obtain ⟨t', ht', hbits, -, hpadOut, htotal, -⟩ := exec_pack_of_fits hl₀ hct hin hv hw hfits
  cases hpack.symm.trans ht'
  obtain ⟨hlen, hmean⟩ := meaningfulBits_of_payload (s' := s') (hinput ▸ hbits) (hpadIn ▸ hpadOut)
  have hcodes : encodeWith codes s.inputBytes = some s'.meaningfulBits := by
    rw [hmean]
    exact codeBits_of_holds htable hc.nodup hv
  obtain ⟨u, hu, hout, -, htotal', rfl⟩ := exec_unpack_of_fits (s := s') (by rw [hnodes, hroot]; exact hc) hl ht hw'
    (by omega) hcodes hroom
  exact ⟨_, hu, rfl, hout, BitVec.eq_of_toNat_eq (by omega)⟩

end Sys2Proof.Machine
end

section
/-! SUPPORT. TDEC as a command (R310 to R319), and the header errors that DECOMPRESS shares with it (R317, R380): TDEC
answers what ParseTree answers, so each statement is a fact of ParseTree on the stream. -/

namespace Sys2Proof.Machine

/-! ### TDEC and DECOMPRESS by what ParseTree answers (R310, R380) -/

section
variable {s : State} (hl : s.inLen.toNat ≤ s.params.ibufBytes)
include hl

/-- TDEC of a stream that ParseTree accepts takes its tree (R310). -/
theorem exec_tdec_of_parsed {pt : ParsedTree} (h : parseTree (streamBits s.inputBytes) = .ok pt) :
    exec .tdec s = .next ({ s.setTree pt with
      ftValid := false, ctValid := false, treeValid := true }.complete .noError) := by
  refine exec_of_body (fun _ => hl) (fun _ hf => nomatch hf) ?_
  rw [commandBody, decodeTree, h]

/-- TDEC of a stream that ParseTree refuses answers the parser's error (R310). -/
theorem exec_tdec_err {e : ErrCode} (h : parseTree (streamBits s.inputBytes) = .error e) :
    ∃ t, exec .tdec s = .next t ∧ t.err = e := by
  obtain ⟨htdec, -⟩ := tdec_err hl h
  exact ⟨_, htdec, rfl⟩

/-- DECOMPRESS of a container that ends inside the padding field (R317). -/
theorem exec_decompress_of_short_pad {pt : ParsedTree} (h : parseTree (streamBits s.inputBytes) = .ok pt)
    (hshort : pt.rest.length < 3) :
    exec .decompress s = .next (s.abort Writes.decompress .invalidHeader) := by
  refine exec_of_raise (fun _ => hl) (fun _ hf => nomatch hf) ?_
  rw [commandBody, decompressInput, h]
  simp only [(getBits_eq_none_iff 3 pt.rest).mpr hshort]

end

/-- A stream that ends inside the count or the descriptor (R317), the empty tree's count included. -/
theorem parseTree_of_described_truncated {n : Nat} {desc bits more : List Bool} {codes : List (Byte × List Bool)}
    (h : Described n desc codes) (hm : more ≠ []) (hbits : bits ++ more = bitsOf 9 n ++ desc) :
    parseTree bits = .error .invalidHeader := by
  have hle := described_le h
  rcases h with ⟨rfl, rfl, -⟩ | ⟨t, hn, hd, rfl, -⟩
  · have hlen := congrArg List.length hbits
    have hpos := List.length_pos_iff.mpr hm
    simp only [List.length_append, bitsOf_length, List.length_nil] at hlen
    rw [parseTree, (getBits_eq_none_iff 9 bits).mpr (by omega)]
  · exact parseTree_truncated t hn hle hd hm hbits

/-! ### The obligations -/

/-- Settles O43: the parser rebuilds every described tree, numbered in preorder. -/
theorem tdecReadsTheStream : Obligations.TdecReadsTheStream := by
  intro s n desc rest codes hl hdesc hbits
  have hle := described_le hdesc
  obtain ⟨pt, hparse, -, rfl, hok, hcodes, htree, hpre, hfreq⟩ := parse_described hdesc rest
  rw [← hbits] at hparse
  have hcount : (BitVec.ofNat 9 pt.count).toNat = pt.count :=
    (BitVec.toNat_ofNat ..).trans (Nat.mod_eq_of_lt (by omega))
  exact ⟨_, exec_tdec_of_parsed hl hparse, hcount, hok, hcodes, htree, hpre, hfreq, rfl⟩

/-- Settles O44: TENC's output is a stream that describes the tree, followed by alignment bits. -/
theorem tdecInvertsTenc : Obligations.TdecInvertsTenc := by
  intro s t s' codes hw ht hok hcodes htenc hl hinput
  obtain ⟨desc, hdesc⟩ := hok.treeDesc
  obtain ⟨t', ht', hbits, -⟩ := tencWritesTheStream s desc hw ht hdesc
  cases htenc.symm.trans ht'
  rw [← hinput] at hbits
  obtain ⟨u, hu, hcount, hok', hcodes', -, -, -, hframe⟩ :=
    tdecReadsTheStream s' _ desc _ codes hl (described_of_tree hcodes hdesc) hbits
  refine ⟨u, hu, ?_, ?_, BitVec.eq_of_toNat_eq hcount, ?_, ?_⟩
  · rw [hframe]
  · rw [hframe]
  · rwa [hcount]
  · rwa [hcount]

/-- Settles O45: each clause is one check of the parser. -/
theorem tdecRejectsInconsistentTrees : Obligations.TdecRejectsInconsistentTrees := by
  intro s n rest hl
  refine ⟨fun hlow hhigh hbits => ?_, fun shape h1 h256 hbits hbad => ?_, fun h1 h256 hbits => ?_,
    fun sym h2 h256 hbits => ?_⟩
  · exact exec_tdec_err hl (hbits ▸ parseTree_large hlow hhigh rest)
  · rw [List.append_assoc] at hbits
    exact exec_tdec_err hl (hbits ▸ parseTree_inconsistent shape h1 h256 rest hbad)
  · rw [List.append_assoc] at hbits
    exact exec_tdec_err hl (hbits ▸ parseTree_internals h1 h256 rest)
  · simp only [List.append_assoc, List.cons_append] at hbits
    exact exec_tdec_err hl (hbits ▸ parseTree_repeated h2 h256 sym rest)

/-- Settles O46: both commands read the header with the one parser, and the padding field is what follows the tree. -/
theorem truncatedHeaderIsInvalid : Obligations.TruncatedHeaderIsInvalid := by
  intro s n desc codes hl hdesc
  refine ⟨fun more hm hbits => ?_, fun part hpart hbits => ?_⟩
  · obtain ⟨htdec, hdecompress⟩ := tdec_err hl (parseTree_of_described_truncated hdesc hm hbits)
    exact ⟨_, _, htdec, rfl, hdecompress, rfl⟩
  · obtain ⟨pt, hparse, rfl, -⟩ := parse_described hdesc part
    rw [← hbits] at hparse
    exact ⟨_, exec_decompress_of_short_pad hl hparse hpart, rfl⟩

end Sys2Proof.Machine
end

section
/-! SUPPORT. The container commands. COMPRESS of a written input is a sized output of the container of the state its
three stages leave (R370 to R372), so that state's header and payload are all there is to say of its result; DECOMPRESS
is Walk on the parsed tree and the bytes after the header (R380, R381). -/

namespace Sys2Proof.Machine

/-! ### COMPRESS of a written input (R370 to R372, R609) -/

/-- What COMPRESS has built when it begins to write (R370): counters, tree and the table of `codes`. -/
def State.staged (codes : List (Byte × List Bool)) (s : State) : State := (buildTree (countInput s)).setCodes codes

/-- `H`, the bytes of a container's header for the descriptor `desc` (R153). -/
def headerSize (desc : List Bool) : Nat := ceil8 (9 + desc.length + 3)

/-- The bytes of the container of the input with the tree and table at hand (R153, R372). -/
def State.containerSize (desc : List Bool) (g : State) : Nat := headerSize desc + ceil8 g.payloadLength

/-- The container of the input with the tree and table at hand (R153). -/
def State.containerBits (desc : List Bool) (g : State) : List Bool :=
  headerBits g.symcount desc (padCount g.payloadLength) ++ g.payload

section
variable {s g : State} {n : Nat} {nodes : Vector Node 511} {root : BitVec 9} {desc : List Bool}
  {codes : List (Byte × List Bool)}

@[simp] theorem staged_inputBytes : (s.staged codes).inputBytes = s.inputBytes := rfl

/-- SYMCOUNT is wide enough for the number of symbols (R48, R202). -/
theorem staged_symcount (hl : s.inLen.toNat ≤ s.params.ibufBytes) :
    (s.staged codes).symcount.toNat = distinct (tally s.inputBytes) :=
  (freqOk_count hl).size

theorem containerBits_length : (g.containerBits desc).length = 8 * g.containerSize desc := by
  rw [State.containerBits, List.length_append, headerBits_length, payload_length, State.containerSize, headerSize,
    Nat.mul_add]

/-- The parts of the container in the order of R153. -/
theorem containerBits_eq : g.containerBits desc =
    bitsOf 9 g.symcount.toNat ++ desc ++ bitsOf 3 (padCount g.payloadLength) ++
      zeros (padCount (9 + desc.length + 3)) ++ codeBits g.ct g.inputBytes ++ zeros (padCount g.payloadLength) :=
  headerBits_append_payloadBits ..

/-- The header of 256 symbols is the longest (R153, R372). -/
theorem TreeDesc.headerSize_le (h : TreeDesc n nodes root desc) : headerSize desc ≤ 322 := by
  obtain ⟨hle, hzero, hpos⟩ := h.length
  unfold headerSize ceil8
  omega

/-- No code is longer than 255 bits, so no payload is longer than 32 bytes for each input byte (R252, R372). -/
theorem ceil8_payloadLength_le : ceil8 g.payloadLength ≤ 32 * g.inLen.toNat := by
  have hle := codeLength_le g.ct g.inputBytes
  rw [inputBytes_length] at hle
  unfold State.payloadLength ceil8
  omega

/-- The input's code bits are its encoding under the tree's codes (R150, R370). -/
theorem encodeWith_staged (hc : TreeCodes n nodes root codes)
    (hv : ∀ b ∈ s.inputBytes, (ctOf (s.staged codes).ct b).valid = true) :
    encodeWith codes s.inputBytes = some (codeBits (s.staged codes).ct s.inputBytes) :=
  codeBits_of_holds hc.tableOf_holds hc.nodup hv

end

/-- COMPRESS of a written input: a tree, a code for every input byte, and a sized output whose bits are counted rightly
(R370, R371). -/
theorem exec_compress_of_written {s : State} (hl : s.inLen.toNat ≤ s.params.ibufBytes) (hin : s.inputWritten) :
    ∃ desc codes, let g := s.staged codes
      TreeCodes g.symcount.toNat g.nodes g.root codes ∧ TreeDesc g.symcount.toNat g.nodes g.root desc ∧
      (∀ b ∈ s.inputBytes, (ctOf g.ct b).valid = true) ∧ weightedLength g.freq g.ct = g.payloadLength ∧
      exec .compress s =
        finish Writes.compress s (g.writeSized (g.containerSize desc) g.payloadLength (g.containerBits desc)) := by
  obtain ⟨desc, codes, hcodes, hdesc, hx⟩ := exec_compress_sized hl
  have hlt := inputBytes_length_lt s
  have htotal : weightedLength ((buildTree (countInput s)).setCodes codes).freq
      ((buildTree (countInput s)).setCodes codes).ct = (s.staged codes).payloadLength := weightedLength_tally hlt _
  simp only [htotal, inputPass_written hin] at hx
  exact ⟨desc, codes, staged_symcount hl ▸ hcodes, hdesc, input_coded hlt hcodes, htotal, hx⟩

/-- COMPRESS of a written input answers the container when it fits (R370, R371). -/
theorem exec_compress_of_fits {s g : State} {desc : List Bool} (hw : g.params.wf = true)
    (hx : exec .compress s =
      finish Writes.compress s (g.writeSized (g.containerSize desc) g.payloadLength (g.containerBits desc)))
    (hfits : g.containerSize desc ≤ g.params.obufBytes) :
    ∃ t, exec .compress s = .next t ∧ streamBits t.outputBytes = g.containerBits desc ∧
      t.outLen.toNat = g.containerSize desc ∧ t.padOut.toNat = padCount g.payloadLength ∧
      t.totalBits.toNat = g.payloadLength ∧
      t = (g.withSized (g.containerSize desc) g.payloadLength (g.containerBits desc)).complete .noError :=
  exec_of_sized_counted hx hw (Nat.le_add_left ..) hfits containerBits_length

/-- What a successful COMPRESS of a written input has built and left (R370, R371). -/
theorem exec_compress_succeeded {s t : State} (hw : s.params.wf = true) (hin : s.inputWritten)
    (h : exec .compress s = .next t) (he : t.err = .noError) :
    ∃ desc codes, let g := s.staged codes
      s.inLen.toNat ≤ s.params.ibufBytes ∧
      TreeCodes g.symcount.toNat g.nodes g.root codes ∧ TreeDesc g.symcount.toNat g.nodes g.root desc ∧
      (∀ b ∈ s.inputBytes, (ctOf g.ct b).valid = true) ∧ weightedLength g.freq g.ct = g.payloadLength ∧
      g.containerSize desc ≤ s.params.obufBytes ∧ streamBits t.outputBytes = g.containerBits desc ∧
      t.padOut.toNat = padCount g.payloadLength ∧ t.totalBits.toNat = g.payloadLength ∧
      t = (g.withSized (g.containerSize desc) g.payloadLength (g.containerBits desc)).complete .noError := by
  obtain ⟨hpre, -⟩ := exec_succeeded h he
  obtain ⟨hl, -⟩ := (precheck_eq_none_iff ..).mp hpre
  obtain ⟨desc, codes, hcodes, hdesc, hv, htotal, hx⟩ := exec_compress_of_written (hl rfl) hin
  by_cases hfits : (s.staged codes).containerSize desc ≤ s.params.obufBytes
  · obtain ⟨t', ht', hbits, -, hpad, hcount, hframe⟩ := exec_compress_of_fits (g := s.staged codes) hw hx hfits
    cases h.symm.trans ht'
    exact ⟨desc, codes, hl rfl, hcodes, hdesc, hv, htotal, hfits, hbits, hpad, hcount, hframe⟩
  · obtain ⟨t', ht', herr⟩ := exec_of_sized_overflow hx (.inl (Nat.lt_of_not_le hfits))
    cases h.symm.trans ht'
    cases he.symm.trans herr

/-! ### PACK after a sized output (R270, R371) -/

section
variable {g : State} {size t : Nat} {bits : List Bool}

/-- A sized output leaves what PACK reads, and the counters. -/
@[simp] theorem withSized_frame : let u := g.withSized size t bits
    u.params = g.params ∧ u.inLen = g.inLen ∧ u.ibuf = g.ibuf ∧ u.draws = g.draws ∧ u.ct = g.ct ∧
      u.ctValid = g.ctValid ∧ u.freq = g.freq := by
  simp [State.withSized]

@[simp] theorem withSized_complete_inputBytes :
    ((g.withSized size t bits).complete .noError).inputBytes = g.inputBytes := by
  simp [State.inputBytes, State.inputPass, State.ibufRead]

/-- PACK after a completed sized output packs the input as it would have before. -/
theorem exec_pack_of_withSized (hw : g.params.wf = true) (hl : g.inLen.toNat ≤ g.params.ibufBytes)
    (hct : g.ctValid = true) (hin : g.inputWritten) (hv : ∀ b ∈ g.inputBytes, (ctOf g.ct b).valid = true)
    (hfits : ceil8 g.payloadLength ≤ g.params.obufBytes) :
    ∃ u, exec .pack ((g.withSized size t bits).complete .noError) = .next u ∧ u.err = .noError ∧
      streamBits u.outputBytes = g.payload ∧ u.padOut.toNat = padCount g.payloadLength ∧
      u.totalBits.toNat = g.payloadLength := by
  have hlen : ((g.withSized size t bits).complete .noError).payloadLength = g.payloadLength := by
    simp [State.payloadLength]
  have hpayload : ((g.withSized size t bits).complete .noError).payload = g.payload := by
    simp [State.payload, hlen]
  obtain ⟨u, hexec, hbits, -, hpad, htotal, hframe⟩ :=
    exec_pack_of_fits (s := (g.withSized size t bits).complete .noError) (by simpa using hl) (by simpa using hct)
      (by simpa [State.inputWritten] using hin) (by simpa using hv) (by simpa using hw) (by simpa [hlen] using hfits)
  rw [hlen] at hpad htotal
  rw [hpayload] at hbits
  exact ⟨u, hexec, by simp [hframe], hbits, hpad, htotal⟩

end

/-! ### DECOMPRESS (R380, R381) -/

/-- What DECOMPRESS writes: the parsed tree, the decoded bytes, and what it read of padding and payload (R380). -/
def State.unpacked (pt : ParsedTree) (pad m : Nat) (out : List Byte) (s : State) : State :=
  { (((s.setTree pt).setOutput out).setPadOut pad).setTotalBits m with
    ftValid := false, ctValid := false, treeValid := true }

/-- DECOMPRESS of a container ends as Walk does on the tree that ParseTree returns and the bytes of the payload
(R380). -/
theorem exec_decompress_of_container {s : State} {n pad : Nat} {desc align payload : List Bool}
    {codes : List (Byte × List Bool)} (hl : s.inLen.toNat ≤ s.params.ibufBytes) (hdesc : Described n desc codes)
    (hpad : pad < 8) (halign : align.length = (8 - (9 + desc.length + 3) % 8) % 8)
    (hbits : streamBits s.inputBytes = bitsOf 9 n ++ desc ++ bitsOf 3 pad ++ align ++ payload) :
    ∃ pt bytes, streamBits bytes = payload ∧ pt.count = n ∧ parseTree (streamBits s.inputBytes) = .ok pt ∧
      TreeOk n (arenaOf pt.nodes) (rootOf pt.root) ∧ TreeCodes n (arenaOf pt.nodes) (rootOf pt.root) codes ∧
      (TreeDesc n (arenaOf pt.nodes) (rootOf pt.root) desc ∧
        (1 ≤ n → rootOf pt.root = 0 ∧ ∃ shape, IsTree n (arenaOf pt.nodes) (rootOf pt.root) shape ∧
          shape.indices = List.range (2 * n - 1)) ∧
        ∀ nd ∈ (arenaOf pt.nodes).toList, nd.freq = 0) ∧
      (∀ out m, walk (arenaOf pt.nodes) (rootOf pt.root) s.params.obufBytes bytes pad = .ok (out, m) →
        exec .decompress s = .next ((s.unpacked pt pad m out).complete .noError)) ∧
      ∀ e, walk (arenaOf pt.nodes) (rootOf pt.root) s.params.obufBytes bytes pad = .error (.raised e) →
        exec .decompress s = .next (s.abort Writes.decompress e) := by
  obtain ⟨pt, bytes, hbytes, -, hcount, hparse, hok, hcodes, htree, hbody⟩ :=
    decompress_body hdesc hpad halign hbits
  refine ⟨pt, bytes, hbytes, hcount, hparse, hok, hcodes, htree, fun out m hwalk => ?_, fun e hwalk => ?_⟩ <;>
    rw [hwalk] at hbody
  · exact exec_of_body (fun _ => hl) (fun _ hf => nomatch hf) hbody
  · exact exec_of_raise (fun _ => hl) (fun _ hf => nomatch hf) hbody

/-! ### UNPACK by what Walk answers (R280) -/

/-- UNPACK's ERR is the error that Walk raises, or NONE when Walk answers bytes (R280). -/
theorem exec_unpack_walk {s t : State} (hl : s.inLen.toNat ≤ s.params.ibufBytes) (ht : s.treeValid = true)
    (h : exec .unpack s = .next t) :
    (∃ out m, walk s.nodes s.root s.params.obufBytes s.inputBytes s.padIn.toNat = .ok (out, m) ∧ t.err = .noError) ∨
      walk s.nodes s.root s.params.obufBytes s.inputBytes s.padIn.toNat = .error (.raised t.err) := by
  rw [exec_of_ready (fun _ => hl) fun _ hf => by cases hf; exact ht, commandBody, unpackInput] at h
  cases hwalk : walk s.nodes s.root s.params.obufBytes s.inputBytes s.padIn.toNat with
  | ok r =>
    rw [hwalk] at h
    cases h
    exact .inl ⟨r.1, r.2, rfl, rfl⟩
  | error e =>
    rw [hwalk] at h
    cases e <;> cases h
    exact .inr rfl

/-! ### The obligations -/

/-- Settles O50: the header has at most 322 bytes and the payload at most 32 for each input byte. -/
theorem compressWritesTheContainer : Obligations.CompressWritesTheContainer := by
  intro s hw hl hin
  obtain ⟨desc, codes, hcodes, hdesc, hv, -, hx⟩ := exec_compress_of_written hl hin
  refine ⟨?_, fun hroom => ?_⟩
  · obtain ⟨hc, hb, hg⟩ := exec_stages hl (staged_symcount hl ▸ hcodes)
    refine ⟨_, _, _, desc, codes, _, hc, hb, hg, hdesc, hcodes, encodeWith_staged hcodes hv, ?_⟩
    rw [codeBits_length]
    refine ⟨fun hfits => ?_, fun hover => exec_of_sized_overflow hx (.inl hover)⟩
    obtain ⟨t, hexec, hbits, hlen, hpad, htotal, rfl⟩ := exec_compress_of_fits (g := s.staged codes) hw hx hfits
    exact ⟨_, hexec, hbits.trans containerBits_eq, hlen, hpad, htotal, rfl⟩
  · have hheader := hdesc.headerSize_le
    have hpayload : ceil8 (s.staged codes).payloadLength ≤ 32 * s.inLen.toNat := ceil8_payloadLength_le
    obtain ⟨t, hexec, -, -, -, -, hframe⟩ := exec_compress_of_fits (g := s.staged codes) hw hx
      (show headerSize desc + ceil8 (s.staged codes).payloadLength ≤ s.params.obufBytes by omega)
    exact ⟨t, hexec, by simp [hframe]⟩

/-- Settles O51: what COMPRESS leaves is ready for PACK, and PACK's payload is the container without its header. -/
theorem compressPadsAsPackDoes : Obligations.CompressPadsAsPackDoes := by
  intro s t hw hin h he
  obtain ⟨desc, codes, hl, -, -, hv, hweighted, hfits, hbits, hpad, htotal, hframe⟩ :=
    exec_compress_succeeded hw hin h he
  have hroom : ceil8 (s.staged codes).payloadLength ≤ s.params.obufBytes := (Nat.le_add_left ..).trans hfits
  obtain ⟨u, hexec, herr, hpayload, hpad', htotal'⟩ :=
    exec_pack_of_withSized (g := s.staged codes) hw hl rfl hin hv hroom
  obtain ⟨hinput, hct, hfreq⟩ : t.inputBytes = s.inputBytes ∧ t.ct = (s.staged codes).ct ∧
      t.freq = (s.staged codes).freq := by
    simp [hframe]
  rw [← hframe] at hexec
  rw [State.containerBits, ← hpayload] at hbits
  refine ⟨hinput, by rwa [hinput, hct], ?_, u, hexec, herr, BitVec.eq_of_toNat_eq (hpad'.trans hpad.symm),
    BitVec.eq_of_toNat_eq (htotal'.trans htotal.symm), ?_⟩
  · rw [hinput, hct, hfreq]
    exact hweighted.symm
  · rw [← drop_bits hbits (headerBits_length ..)]
    exact List.drop_suffix ..

/-- Settles O52: the payload's meaningful bits are codes, which Walk decodes. -/
theorem decompressReadsTheContainer : Obligations.DecompressReadsTheContainer := by
  intro s n pad desc align payload codes out hw hl hdesc hpad halign hbits hlen he
  have hle := described_le hdesc
  obtain ⟨pt, bytes, rfl, rfl, -, hok, hcodes, ⟨htree, hpre, hfreq⟩, hdone, hraise⟩ :=
    exec_decompress_of_container hl hdesc hpad halign hbits
  rw [streamBits_length] at hlen he ⊢
  have hwalk := walk_out hcodes (obuf := s.params.obufBytes) hlen he
  refine ⟨fun hfits => ?_, fun hover => ⟨_, hraise _ (hwalk.trans (if_pos hover)), rfl⟩⟩
  have hsmall := obufBytes_le_of_wf hw
  have hinLen := s.inLen.isLt
  have hbytes := congrArg List.length hbits
  simp only [List.length_append, streamBits_length, inputBytes_length] at hbytes
  refine ⟨_, hdone _ _ (hwalk.trans (if_neg (Nat.not_lt.mpr hfits))), ?_, ?_, ?_, ?_, ?_, hok, hcodes, htree, hpre,
    hfreq, ?_⟩
  · exact setOutput_outputBytes out _ (by omega)
  · exact (BitVec.toNat_ofNat ..).trans (Nat.mod_eq_of_lt (by omega))
  · exact (BitVec.toNat_ofNat ..).trans (Nat.mod_eq_of_lt hpad)
  · exact (BitVec.toNat_ofNat ..).trans (Nat.mod_eq_of_lt (by omega))
  · exact (BitVec.toNat_ofNat ..).trans (Nat.mod_eq_of_lt (by omega))
  · simp only [State.unpacked, State.complete, State.setTotalBits, State.setPadOut, State.setOutput, State.setTree]

/-- Settles O53: the container of a described tree whose payload holds the codes of COMPRESS' input. -/
theorem decompressInvertsCompress : Obligations.DecompressInvertsCompress := by
  intro s t s' hw hw' hin h he hl hinput hroom
  obtain ⟨desc, codes, -, hcodes, hdesc, hv, -, -, hbits, -⟩ := exec_compress_succeeded hw hin h he
  rw [← hinput, containerBits_eq, staged_inputBytes, List.append_assoc] at hbits
  obtain ⟨hread, -⟩ := decompressReadsTheContainer s' _ _ desc _ _ codes s.inputBytes hw' hl
    (described_of_tree hcodes hdesc) (padCount_lt _) (zeros_length _) hbits (by simp)
    (by simpa using encodeWith_staged hcodes hv)
  obtain ⟨u, hu, hout, houtLen, -, -, -, -, -, -, -, -, hframe⟩ := hread (by rwa [inputBytes_length])
  rw [inputBytes_length] at houtLen
  exact ⟨u, hu, by rw [hframe], hout, BitVec.eq_of_toNat_eq houtLen⟩

/-- Settles O54: TDEC and DECOMPRESS share the parser, UNPACK and DECOMPRESS share Walk. -/
theorem decompressErrors : Obligations.DecompressErrors := by
  intro s t hl htdec
  refine ⟨fun he => ?_, fun he n pad desc align codes p v hdesc hpad halign hparams htree hnodes hroot hpadIn hl' hbits
    hunpack => ?_⟩
  · cases hparse : parseTree (streamBits s.inputBytes) with
    | error e =>
      obtain ⟨ht, hu⟩ := tdec_err hl hparse
      cases htdec.symm.trans ht
      exact ⟨_, hu, rfl⟩
    | ok pt =>
      cases htdec.symm.trans (exec_tdec_of_parsed hl hparse)
      cases he
  · obtain ⟨pt, bytes, hbytes, -, hparse, -, -, -, hdone, hraise⟩ :=
      exec_decompress_of_container hl hdesc hpad halign hbits
    obtain rfl : bytes = p.inputBytes := by rw [← packBytes_streamBits bytes, hbytes, packBytes_streamBits]
    cases htdec.symm.trans (exec_tdec_of_parsed hl hparse)
    have hwalk := exec_unpack_walk hl' htree hunpack
    rw [hnodes, hroot, hparams, hpadIn] at hwalk
    rcases hwalk with ⟨out, m, hok, herr⟩ | herr
    · exact ⟨_, hdone out m hok, herr.symm⟩
    · exact ⟨_, hraise _ herr, rfl⟩

end Sys2Proof.Machine
end

section
/-! SUPPORT. The control commands (R400 to R402). They read no buffer and need no flag, so no pre-check can fail (R401)
and each completes with the state its body leaves. -/

namespace Sys2Proof.Machine

/-- NOP's body is the identity, so only the completion's STATUS update remains (R34, R400). -/
theorem exec_nop (s : State) : exec .nop s = .next (s.complete .noError) :=
  exec_of_body nofun nofun rfl

/-- CLEAR completes for every IN_LEN and whatever the flags are (R401, R402). -/
theorem exec_clear (s : State) : exec .clear s = .next ((clearDerived s).complete .noError) :=
  exec_of_body nofun nofun rfl

/-! ### The obligations -/

/-- Settles O32. -/
theorem nopHasNoEffect : Obligations.NopHasNoEffect :=
  ⟨decode_encode .nop, exec_nop⟩

/-- Settles O33: the fields that the statement lists are those `clearDerived` and the completion write. -/
theorem clearDiscardsResults : Obligations.ClearDiscardsResults :=
  ⟨decode_encode .clear, exec_clear⟩

end Sys2Proof.Machine
end

section
/-! SUPPORT. Progress (R505, R515, R606, R611): a step answers a next state unless the host makes a hazard write
while BUSY, so a command that nothing disturbs completes once its delay has run out. -/

namespace Sys2Proof.Machine

section
variable {s : State}

/-! ### One event -/

/-- An event outside reset answers a next state, or it is a write that R606 refuses. -/
theorem serve_total (s : State) (i : Input) :
    (∃ t, State.serve s i = .next t) ∨
    ∃ addr w, s.phase = .busy ∧ i = .write addr w ∧ hazardAddr s.params addr = true ∧
      State.serve s i = .refused (.hostWriteWhileBusy addr) := by
  cases i with
  | write addr w =>
    rcases phase_cases s with hp | hp
    · exact .inl (hostWrite_ok w (.inl hp))
    · cases hz : hazardAddr s.params addr with
      | false => exact .inl (hostWrite_ok w (.inr hz))
      | true => exact .inr ⟨addr, w, hp, rfl, hz, hostWrite_refused hp hz⟩
  | read | wait | assertReset | releaseReset => exact .inl ⟨_, rfl⟩

/-- A harmless event while BUSY changes at most DROP and the record of the platform, where WAIT may stay first (R146,
R606, R607). -/
theorem serve_harmless {i : Input} (hp : s.phase = .busy) (hi : i.harmless s.params = true) :
    ∃ drop responses inputs, State.serve s i = .next { s with drop, responses, inputs } ∧
      inputs ⊆ i :: s.inputs := by
  cases i with
  | write addr w =>
    have hz : hazardAddr s.params addr = false := by simpa [Input.harmless] using hi
    have hwrite := hostWrite_busy hp addr w
    rw [hz] at hwrite
    exact ⟨_, s.responses, s.inputs, hwrite, List.subset_cons_self ..⟩
  | read => exact ⟨s.drop, _, s.inputs, rfl, List.subset_cons_self ..⟩
  | wait => exact ⟨s.drop, s.responses, _, congrArg Host.Outcome.next (polled_status_busy hp), List.Subset.refl _⟩
  | assertReset | releaseReset => cases hi

/-! ### A command that nothing disturbs -/

/-- A command runs, and neither reset nor a hazard write is waiting (R602, R606). -/
structure State.Undisturbed (s : State) : Prop where
  inv : s.Inv
  outOfReset : s.inReset = false
  busy : s.phase = .busy
  harmless : ∀ i ∈ s.inputs, i.harmless s.params = true

/-- While the delay has not run out, a step of an undisturbed command lowers it by 1 and changes nothing else but DROP
and the record of the platform. -/
theorem step_of_undisturbed (hs : s.Undisturbed) {d : Nat} (hd : s.delay = d + 1) :
    ∃ drop responses inputs,
      step s = .next { s with drop, responses, inputs, delay := d, draws := s.draws + 1 } ∧ inputs ⊆ s.inputs := by
  have hdue : ¬ s.completionDue := fun ⟨_, _, h⟩ => Nat.succ_ne_zero d (hd.symm.trans h)
  rcases inputs_cases s with hi | ⟨i, rest, hi⟩
  · obtain ⟨d', _, hdelay, hstep⟩ := step_of_quiet hs.outOfReset hdue hi
    obtain rfl := Nat.succ.inj ((hdelay hs.busy).trans hd)
    exact ⟨s.drop, s.responses, s.inputs, hstep, List.Subset.refl _⟩
  · obtain ⟨d', _, hdelay, hstep⟩ := step_of_serve hs.outOfReset hdue hi
    obtain rfl := Nat.succ.inj ((hdelay hs.busy).trans hd)
    obtain ⟨drop, responses, inputs, hserve, hsub⟩ := serve_harmless (s := { s with inputs := rest, delay := d' })
      hs.busy (hs.harmless i (by simp [hi]))
    exact ⟨drop, responses, inputs, hstep.trans (congrArg counted hserve), by rw [hi]; exact hsub⟩

/-- Such a step leaves the command undisturbed, and PENDING as it was. -/
theorem State.Undisturbed.step_next (hs : s.Undisturbed) {d : Nat} (hd : s.delay = d + 1) :
    ∃ t, step s = .next t ∧ t.Undisturbed ∧ t.delay = d ∧ t.pending = s.pending := by
  obtain ⟨drop, responses, inputs, hstep, hsub⟩ := step_of_undisturbed hs hd
  have hinv := stepKeepsTheInvariant _ _ hs.inv hstep
  exact ⟨_, hstep, ⟨hinv, hs.outOfReset, hs.busy, fun i hi => hs.harmless i (hsub hi)⟩, rfl, rfl⟩

/-- After as many steps as the delay says, every run of an undisturbed command goes on from a state with the same
command due. -/
theorem State.Undisturbed.run_delay (hs : s.Undisturbed) :
    ∃ t, t.Undisturbed ∧ t.completionDue ∧ t.pending = s.pending ∧ ∀ k, core.run (s.delay + k) s = core.run k t := by
  induction hd : s.delay generalizing s with
  | zero => exact ⟨s, hs, ⟨hs.outOfReset, hs.busy, hd⟩, rfl, fun k => by rw [Nat.zero_add]⟩
  | succ d ih =>
    obtain ⟨u, hstep, hu, hud, hpend⟩ := hs.step_next hd
    obtain ⟨t, ht, hdue, hpend', hrun⟩ := ih hu hud
    refine ⟨t, ht, hdue, hpend'.trans hpend, fun k => ?_⟩
    rw [Nat.succ_add, run_succ _ hstep, hrun]

end

/-! ### The obligations -/

/-- Settles O57: of a completion, an event at the boundary and the passing of time, only an event can be refused. -/
theorem stepNeverFaults : Obligations.StepNeverFaults := by
  intro s hs
  rcases Bool.eq_false_or_eq_true s.inReset with hr | hr
  · rcases step_of_reset hr with ⟨_, hstep⟩ | ⟨_, _, _, hstep⟩ <;> exact .inl ⟨_, hstep⟩
  · by_cases hd : s.completionDue
    · obtain ⟨t, ht⟩ := runPending_total hs
      exact .inl ⟨_, (step_of_due hd).trans (congrArg counted ht)⟩
    · rcases inputs_cases s with hi | ⟨i, rest, hi⟩
      · obtain ⟨d, _, _, hstep⟩ := step_of_quiet hr hd hi
        exact .inl ⟨_, hstep⟩
      · obtain ⟨d, _, _, hstep⟩ := step_of_serve hr hd hi
        rcases serve_total { s with inputs := rest, delay := d } i with ⟨t, ht⟩ | ⟨addr, w, hp, rfl, hz, hrefused⟩
        · exact .inl ⟨_, hstep.trans (congrArg counted ht)⟩
        · exact .inr ⟨addr, w, hr, hp, by rw [hi]; rfl, hz, hstep.trans (congrArg counted hrefused)⟩

/-- Settles O26. -/
theorem idleDoesNothing : Obligations.IdleDoesNothing := by
  intro s hr hp hi
  obtain ⟨d, hdelay, _, hstep⟩ := step_of_quiet hr (not_due_of_idle hp) hi
  rwa [hdelay hp] at hstep

/-- Settles O22, by induction on the delay. -/
theorem everyCommandCompletes : Obligations.EveryCommandCompletes := by
  intro s hs hr hp hi
  obtain ⟨t, ht, hdue, hpend, hrun⟩ := State.Undisturbed.run_delay ⟨hs, hr, hp, hi⟩
  obtain ⟨u, hstep, hidle, hdone, _⟩ := completionEndsBusy t ht.inv hdue
  exact ⟨⟨t, hrun 0, hdue, hpend⟩, u, (hrun 1).trans (run_succ 0 hstep), hidle, hdone⟩

end Sys2Proof.Machine
end

section
/-! SUPPORT. Errors (R500 to R503): which error each command can end in, and what the abort rule leaves. -/

namespace Sys2Proof.Machine

section
variable {i : Instr} {s t : State}

/-- The commands that read IBUF, as a list (R501). -/
theorem mem_readers_iff : i ∈ [.count, .pack, .tdec, .unpack, .compress, .decompress] ↔ readsIbuf i = true := by
  cases i <;> decide

/-- The commands that need a validity flag, as a list (R501). -/
theorem mem_flagged_of_neededFlag {f : ValidFlag} (h : neededFlag i = some f) :
    i ∈ [.build, .gencodes, .tenc, .pack, .unpack] := by
  cases i with
  | build | gencodes | tenc | pack | unpack => decide
  | nop | clear | count | tdec | compress | decompress => cases h

/-- R502's table, error by error. -/
theorem canRaise_cases {e : ErrCode} (h : canRaise i e = true) :
    (e = .corruptStream ∧ i ∈ [.unpack, .tdec, .decompress]) ∨ (e = .invalidHeader ∧ i ∈ [.tdec, .decompress]) ∨
    (e = .outOverflow ∧ i ∈ [.pack, .unpack, .compress, .decompress]) ∨ (e = .noCode ∧ i = .pack) := by
  unfold canRaise at h
  split at h <;> simp at h ⊢

/-- The pre-check of a flag, after that of IN_LEN (R501). -/
theorem exec_notReady {f : ValidFlag} (hl : readsIbuf i = true → s.inLen.toNat ≤ s.params.ibufBytes)
    (hn : neededFlag i = some f) (hf : s.flag f = false) : exec i s = .next (s.complete .notReady) :=
  exec_of_precheck (by rw [hn]; exact precheck_notReady hl hf)

/-- How a command that answers a next state can have ended: NONE, one of its own pre-check errors, or an execution error
that R502 lists for it. -/
theorem exec_err (h : exec i s = .next t) :
    t.err = .noError ∨ (t.err = .badLength ∧ readsIbuf i = true) ∨
    (t.err = .notReady ∧ ∃ f, neededFlag i = some f) ∨ canRaise i t.err = true := by
  rcases exec_next h with ⟨e, hp, rfl⟩ | ⟨_, ⟨u, _, rfl⟩ | ⟨e, hb, rfl⟩⟩
  · rcases precheck_eq_some hp with ⟨rfl, hr, _⟩ | ⟨rfl, _, f, hf, _⟩
    · exact .inr (.inl ⟨rfl, hr⟩)
    · exact .inr (.inr (.inl ⟨rfl, f, hf⟩))
  · exact .inl rfl
  · exact .inr (.inr (.inr (commandBody_raised hb)))

/-- An execution error comes from the abort rule alone (R502, R503). -/
theorem exec_aborted (h : exec i s = .next t) (he : t.err.isExecution = true) :
    t = s.abort (commandWrites i) t.err := by
  rcases exec_next h with ⟨e, hp, rfl⟩ | ⟨_, ⟨u, _, rfl⟩ | ⟨e, _, rfl⟩⟩
  · rcases precheck_eq_some hp with ⟨rfl, _⟩ | ⟨rfl, _⟩ <;> cases he
  · cases he
  · rfl

end

/-! ### The obligations -/

/-- Settles O27. -/
theorem preChecksInOrder : Obligations.PreChecksInOrder := by
  intro s
  refine ⟨fun hillegal => ?_, fun i hi => ?_⟩
  · obtain ⟨e, he⟩ := (decode_cases s.pending).resolve_left fun ⟨i, hi⟩ => hillegal i hi
    exact runPending_of_illegal he
  · rw [runPending_of_decode hi, mem_readers_iff]
    refine ⟨fun hr hlong => exec_of_precheck (hr ▸ precheck_badLength _ hlong), fun hl hneed => ?_⟩
    rcases hneed with ⟨rfl, hf⟩ | ⟨hmem, hf⟩ | ⟨rfl, hf⟩
    · exact exec_notReady hl (f := .ft) rfl hf
    · have hn : neededFlag i = some .tree := by
        simp only [List.mem_cons, List.not_mem_nil, or_false] at hmem
        rcases hmem with rfl | rfl | rfl <;> rfl
      exact exec_notReady hl hn hf
    · exact exec_notReady hl (f := .ct) rfl hf

/-- Settles O28. -/
theorem errorsOfEachCommand : Obligations.ErrorsOfEachCommand := by
  intro i s t h
  rcases exec_err h with he | ⟨he, hr⟩ | ⟨he, f, hf⟩ | he
  · simp [he]
  · simpa [he] using mem_readers_iff.mpr hr
  · simpa [he] using mem_flagged_of_neededFlag hf
  · rcases canRaise_cases he with ⟨he, hi⟩ | ⟨he, hi⟩ | ⟨he, hi⟩ | ⟨he, hi⟩ <;> simpa [he] using hi

/-- Settles O29: `t` is what the abort rule leaves, and each command's "Writes" and "Flags" lines say what that is. -/
theorem abortRule : Obligations.AbortRule := by
  intro i s t h he
  rw [exec_aborted h he]
  refine ⟨rfl, rfl, rfl, fun _ => rfl, fun hi => ?_, ?_, ?_, ?_, ?_, ?_⟩
  · simp only [List.mem_cons, List.not_mem_nil, or_false] at hi
    rcases hi with rfl | rfl <;> rfl
  · rintro rfl; rfl
  · rintro rfl; exact ⟨rfl, rfl⟩
  · rintro rfl; rfl
  · rintro rfl; rfl
  · rintro rfl; rfl

end Sys2Proof.Machine
end

section
/-! SUPPORT. Hazards and reset (R600 to R602, R606, R607): what the host sees and may do while BUSY, and that a block in
reset waits for its release. -/

namespace Sys2Proof.Machine

section
variable {s : State}

/-! ### What a read while BUSY shows (R68, R607) -/

/-- A block BUSY with what R68 lists as in `s`, and everything else as after reset. -/
def State.busyView (s : State) : State :=
  { State.afterReset s.params (Vector.replicate 256 0) (Vector.replicate 256 CtEntry.invalid)
      (Vector.replicate 511 Node.unused) 0 [] [] s.draws with
    phase := .busy, done := s.done, drop := s.drop, err := s.err, inLen := s.inLen, padIn := s.padIn, ctSel := s.ctSel
    nodeSel := s.nodeSel, ibuf := s.ibuf }

@[simp] theorem busyView_phase (s : State) : s.busyView.phase = .busy := rfl

/-- While BUSY no register that `shown` guards has a specified value (R68). -/
theorem shown_busy (hp : s.phase = .busy) (m : Bool) (mask v : Word) :
    s.shown m mask v = Config.readWord s.draws &&& mask := by
  simp [State.shown, hp]

/-- STATUS while BUSY, whose bits [10:8] are a free value (R38). -/
theorem status_busyView (hp : s.phase = .busy) : s.busyView.status = s.status := by
  simp only [State.status, State.statusWith, busy_eq_true.mpr hp, busy_eq_true.mpr (busyView_phase s)]
  rfl

theorem readRegister_busyView (hp : s.phase = .busy) (o : Nat) : s.busyView.readRegister o = s.readRegister o := by
  simp only [State.readRegister, State.readLow, State.readHigh, status_busyView hp, shown_busy hp,
    shown_busy (busyView_phase s)]
  rfl

/-- A host read of a BUSY block shows its view and no more (R68, R607). -/
theorem hostRead_busyView (hp : s.phase = .busy) (addr : Word) : s.busyView.hostRead addr = s.hostRead addr := by
  unfold State.hostRead
  rw [show s.busyView.params = s.params from rfl]
  cases regionOf s.params addr with
  | register o => exact readRegister_busyView hp o
  | obuf => exact (shown_busy (busyView_phase s) ..).trans (shown_busy hp ..).symm
  | ibuf | reserved => rfl

/-! ### While reset is asserted (R600, R602) -/

/-- Only the release moves the block; every other event changes the record of the platform, and a write not even the
responses. -/
theorem serveInReset_frame {i : Input} (hi : i ≠ .releaseReset) :
    ∃ inputs responses, State.serveInReset s i = { s with inputs, responses } ∧
      ∀ addr w, i = .write addr w → responses = s.responses := by
  cases i with
  | write => exact ⟨s.inputs, s.responses, rfl, fun _ _ _ => rfl⟩
  | read => exact ⟨s.inputs, _, rfl, nofun⟩
  | wait =>
    rcases polled_cases (Config.readWord s.draws) s with ⟨_, h⟩ | ⟨_, h⟩
    · exact ⟨_, s.responses, h, nofun⟩
    · exact ⟨s.inputs, _, h, nofun⟩
  | assertReset => exact ⟨s.inputs, s.responses, rfl, nofun⟩
  | releaseReset => exact absurd rfl hi

end

/-! ### The obligations -/

/-- Settles O15: two blocks that agree on what R68 lists have the same view. -/
theorem busyReadsRevealNothing : Obligations.BusyReadsRevealNothing := by
  intro s s' addr hp hp' hparams hdraws hibuf hinLen hpadIn hctSel hnodeSel hdone hdrop herr
  have hview : s.busyView = s'.busyView := by
    simp only [State.busyView, hparams, hdraws, hibuf, hinLen, hpadIn, hctSel, hnodeSel, hdone, hdrop, herr]
  rw [← hostRead_busyView hp, hview, hostRead_busyView hp']

/-- Settles O21. -/
theorem busyWritesRefusedOrHarmless : Obligations.BusyWritesRefusedOrHarmless := by
  intro s addr w rest hr hp hd hi
  rw [step_write_busy hr hp hd hi]
  exact ⟨fun hz => by rw [hz]; rfl, fun hz => ⟨s.delay - 1, by rw [hz]; rfl⟩⟩

/-- Settles O25. -/
theorem resetHoldsTheBlock : Obligations.ResetHoldsTheBlock := by
  refine ⟨fun s rest hr hd hi => ?_, fun s hr => ?_⟩
  · obtain ⟨d, _, _, hstep⟩ := step_of_serve hr hd hi
    exact ⟨d, hstep⟩
  · rcases step_of_reset hr with ⟨hi, hstep⟩ | ⟨i, rest, hi, hstep⟩
    · exact ⟨by simp [hi], fun _ => ⟨s.inputs, s.responses, hstep, fun _ _ _ => rfl⟩⟩
    · simp only [hi, List.head?_cons, List.tail_cons, Option.some.injEq, ne_eq]
      refine ⟨?_, fun hrel => ?_⟩
      · rintro rfl
        exact ⟨_, hstep, rfl, rfl, rfl, rfl, rfl, rfl⟩
      · obtain ⟨inputs, responses, hserve, hwrite⟩ := serveInReset_frame (s := { s with inputs := rest }) hrel
        exact ⟨inputs, responses, hstep.trans (congrArg (fun u => counted (.next u)) hserve), hwrite⟩

end Sys2Proof.Machine
end
